-- ==== Sys2Proof/Config.lean ====
section
/-! DEFINITION. The implementation parameters of R5, every one, at the values the spec's decisions give them (log entries 9,
10, 16, 18), and the free values: constants with no body, of which nothing can be proved. -/

namespace Sys2Proof

/-- The structures `MUL_IMPL` chooses among (R5, R74, U2). -/
inductive MulImpl where
  /-- The table of all 256 by 256 products. -/
  | fullTable
  /-- The log/antilog pair. -/
  | logPair
  /-- The bit-serial multiplier of R72. -/
  | bitSerial
  deriving DecidableEq, Repr

/-- `POLY`, x^8 + x^4 + x^3 + x^2 + 1, as a 9-bit number (R5, R72; the spec's decision D1). -/
def Config.poly : BitVec 9 := 0x11D#9

/-- `GEN`, the element whose powers fill the log/antilog tables (R5, R74; decision D1). -/
def Config.gen : BitVec 8 := 0x02#8

/-- `X(row)`: the Cauchy value of a parity row (R100, R102; decision D2). -/
def Config.xOfRow (row : Nat) : BitVec 8 := BitVec.ofNat 8 row

/-- `Y(col)`: the Cauchy value of a column (R100, R102; decision D2). -/
def Config.yOfCol (col : Nat) : BitVec 8 := BitVec.ofNat 8 col

/-- `KM_MAX`: the largest legal `k + m` (R5; decision D3, conflict C2). -/
def Config.kmMax : Nat := 256

/-- `GRANULE`: BLOCK_BYTES must be a positive multiple of it (R5, R33; decision D4, conflict C3). -/
def Config.granule : Nat := 1

/-- `AW`: the width of a buffer-memory address in bits (R5, R30; decision D6). -/
def Config.addressWidth : Nat := 32

/-- `REGW`: the width of a register in bits (R5, R12; decision D6). -/
abbrev Config.regWidth : Nat := 32

/-- `NDESC`: the number of descriptor entries (R5, R17; decision D13). -/
abbrev Config.nDesc : Nat := 256

/-- `REG_BASE`: where the registers sit on a bus. OPEN in R5, and no rule depends on it (R12): no definition reads it (log
entry 16). -/
opaque Config.regBase : Nat

/-- `MUL_IMPL`: OPEN in R5 and U2, not observable, since every choice computes the same products (R74). DESIGN CHOICE (log
entry 18), safe. -/
def Config.mulImpl : MulImpl := .bitSerial

/-- `LAZY_INIT`: whether tables are built on first use instead of by INIT (R5, R144; decision D11). -/
def Config.lazyInit : Bool := false

/-- `N_ENGINES` at reset: OPEN in R5 and R27. DESIGN CHOICE (log entry 10), unsafe: no statement rests on it. -/
def Config.nEngines : Nat := 1

/-- The number of addresses of buffer memory (R30). -/
def Config.addressLimit : Nat := 2 ^ Config.addressWidth

/-- What a byte of buffer memory that nothing has written reads as. DESIGN CHOICE (log entry 2), unsafe: the spec leaves
the contents of the host's memory to the host (R23, R24). -/
def Config.unlistedByte : BitVec 8 := 0x00#8

/-- Free byte number `n`: a byte the spec leaves undefined (U3, U6). Safe: nothing can be proved of its value. -/
opaque Config.freeByte (n : Nat) : BitVec 8

/-- Free word number `n`: a register value the spec leaves undefined (U6). Safe, as `freeByte`. -/
opaque Config.freeWord (n : Nat) : BitVec Config.regWidth

/-- What `ginv` answers for 0, which has no inverse (R76, U1; log entry 8). Safe: no command ever asks for it. -/
opaque Config.inverseOfZero : BitVec 8

end Sys2Proof
end

