-- ==== Sys2Proof/Word.lean ====
section
/-! DEFINITION. The two word sizes of LHCORE (spec R5, R6): bytes of buffer memory and field elements, and registers of
`REGW` bits. An address of buffer memory is a plain `Nat` once it has been computed from a register (R6: exact sums). -/

namespace Sys2Proof

/-- 8 bits, unsigned: a byte of buffer memory and, read as a polynomial, a field element (R6, R70). -/
abbrev Byte := BitVec 8

/-- `REGW` bits, unsigned: a register, a command word, a buffer address before it is added to (R5, R12, R50). -/
abbrev Word := BitVec Config.regWidth

end Sys2Proof
end

