-- ==== Sys2Proof/Syntax.lean ====
section
/-! DEFINITION. The commands of LHCORE (R51, every row of spec/opcode_table.json), the four fields of a command word
(R50), and the names of the ways a word can be illegal (R53). -/

namespace Sys2Proof

/-- The eight commands of R51, with the operands that stand in the command word itself. All other operands come from the
registers (R50). -/
inductive Instr where
  /-- `INIT` (R77). -/
  | init
  /-- `GFADD a, b` (R78). -/
  | gfadd (a b : Byte)
  /-- `GFMUL a, b` (R79). -/
  | gfmul (a b : Byte)
  /-- `GFINV a` (R80). -/
  | gfinv (a : Byte)
  /-- `COEF row, col` (R105). -/
  | coef (row col : Byte)
  /-- `MULACC scalar` (R95). -/
  | mulacc (scalar : Byte)
  /-- `ENCODE` (R111). -/
  | encode
  /-- `DECODE` (R121). -/
  | decode
  deriving DecidableEq, Repr

/-- The fields of a command word, format `C` (R50). -/
structure Fields where
  /-- `OPC`, bits 7:0. -/
  opc : Byte
  /-- `A`, bits 15:8. -/
  a : Byte
  /-- `B`, bits 23:16. -/
  b : Byte
  /-- `RSV`, bits 31:24. -/
  rsv : Byte
  deriving DecidableEq, Repr

/-- Why a command word is illegal (R53). The engine reports one code for all of them (R145). -/
inductive IllegalWord where
  /-- `OPC` is 0x00 or at least 0x09. -/
  | opcode
  /-- `RSV` is not 0. -/
  | reservedBits
  /-- `A` is not 0 in a command that has no `A` operand. -/
  | operandA
  /-- `B` is not 0 in a command that has no `B` operand. -/
  | operandB
  deriving DecidableEq, Repr

end Sys2Proof
end

