-- ==== Sys2Proof/WellFormed.lean ====
section
/-! DEFINITION. When the fields of a command word are legal (R53, said as the conditions a legal word meets), and when an
instruction is well formed: when the fields R51 gives it are legal. An operand of an `Instr` is a byte by its type, so every
`Instr` passes (Laws/PerInstr.lean); what the checks refuse are fields no instruction has. -/

namespace Sys2Proof

/-- `OPC` names one of the eight commands of R51. -/
def Fields.opcodeKnown (f : Fields) : Bool := decide (1 ≤ f.opc.toNat) && decide (f.opc.toNat ≤ 8)

/-- `RSV` is 0 (R50). -/
def Fields.reservedClear (f : Fields) : Bool := f.rsv == 0

/-- `A` is 0 where R51 says "must be 0": INIT, ENCODE, DECODE. -/
def Fields.operandAClear (f : Fields) : Bool := f.a == 0 || !([0x01, 0x07, 0x08].contains f.opc)

/-- `B` is 0 where R51 says "must be 0": INIT, GFINV, MULACC, ENCODE, DECODE. -/
def Fields.operandBClear (f : Fields) : Bool := f.b == 0 || !([0x01, 0x04, 0x06, 0x07, 0x08].contains f.opc)

/-- No condition of R53 holds: the word is legal. -/
def Fields.legal (f : Fields) : Bool :=
  f.opcodeKnown && f.reservedClear && f.operandAClear && f.operandBClear

/-- The fields R51 gives an instruction. -/
def Instr.fields : Instr → Fields
  | .init => ⟨0x01, 0, 0, 0⟩
  | .gfadd a b => ⟨0x02, a, b, 0⟩
  | .gfmul a b => ⟨0x03, a, b, 0⟩
  | .gfinv a => ⟨0x04, a, 0, 0⟩
  | .coef row col => ⟨0x05, row, col, 0⟩
  | .mulacc scalar => ⟨0x06, scalar, 0, 0⟩
  | .encode => ⟨0x07, 0, 0, 0⟩
  | .decode => ⟨0x08, 0, 0, 0⟩

/-- An instruction is well formed when its fields are legal. -/
def Instr.wellFormed (i : Instr) : Bool := i.fields.legal

end Sys2Proof
end

