-- ==== Sys2Proof/Decode.lean ====
section
/-! DEFINITION. The decoder of command words, total on all 32-bit values and refusing by name (R50, R53), the table of
R51, and the encoder (R55). A command word comes as the data of a `CMD` write, so there is no byte order to settle (R32). -/

namespace Sys2Proof

/-- The fields of a word (R50). -/
def wordFields (w : Word) : Fields where
  opc := w.extractLsb' 0 8
  a := w.extractLsb' 8 8
  b := w.extractLsb' 16 8
  rsv := w.extractLsb' 24 8

/-- The command `i`, whose row of R51 has "must be 0" for both operands. -/
def decodeNoOperand (f : Fields) (i : Instr) : Except IllegalWord Instr :=
  if f.a ≠ 0 then .error .operandA else if f.b ≠ 0 then .error .operandB else .ok i

/-- A command whose row of R51 has an `A` operand and "must be 0" for `B`. -/
def decodeOneOperand (f : Fields) (i : Byte → Instr) : Except IllegalWord Instr :=
  if f.b ≠ 0 then .error .operandB else .ok (i f.a)

/-- A command with both operands (R51). -/
def decodeTwoOperands (f : Fields) (i : Byte → Byte → Instr) : Except IllegalWord Instr := .ok (i f.a f.b)

/-- The opcode map of R51 and the illegal values of R53. -/
def decodeFields (f : Fields) : Except IllegalWord Instr :=
  if f.rsv ≠ 0 then .error .reservedBits
  else match f.opc.toNat with
    | 0x01 => decodeNoOperand f .init
    | 0x02 => decodeTwoOperands f .gfadd
    | 0x03 => decodeTwoOperands f .gfmul
    | 0x04 => decodeOneOperand f .gfinv
    | 0x05 => decodeTwoOperands f .coef
    | 0x06 => decodeOneOperand f .mulacc
    | 0x07 => decodeNoOperand f .encode
    | 0x08 => decodeNoOperand f .decode
    | _ => .error .opcode

/-- The command a `CMD` value selects, or the name of what makes it illegal (R50, R53). -/
def decodeWord (w : Word) : Except IllegalWord Instr := decodeFields (wordFields w)

/-- A command word put together from its opcode and operands, as R55 writes it: `OPC | A<<8 | B<<16`. -/
def packWord (opc a b : Byte) : Word :=
  opc.setWidth Config.regWidth ||| (a.setWidth Config.regWidth <<< 8) ||| (b.setWidth Config.regWidth <<< 16)

/-- The word of an instruction (R51, R55). -/
def encodeWord : Instr → Word
  | .init => packWord 0x01 0 0
  | .gfadd a b => packWord 0x02 a b
  | .gfmul a b => packWord 0x03 a b
  | .gfinv a => packWord 0x04 a 0
  | .coef row col => packWord 0x05 row col
  | .mulacc scalar => packWord 0x06 scalar 0
  | .encode => packWord 0x07 0 0
  | .decode => packWord 0x08 0 0

/-- The `match` and `mask` words R51 prints beside each command. -/
def tableRow : Instr → Word × Word
  | .init => (0x00000001, 0xFFFFFFFF)
  | .gfadd _ _ => (0x00000002, 0xFF0000FF)
  | .gfmul _ _ => (0x00000003, 0xFF0000FF)
  | .gfinv _ => (0x00000004, 0xFFFF00FF)
  | .coef _ _ => (0x00000005, 0xFF0000FF)
  | .mulacc _ => (0x00000006, 0xFFFF00FF)
  | .encode => (0x00000007, 0xFFFFFFFF)
  | .decode => (0x00000008, 0xFFFFFFFF)

/-- One instruction of each row of R51, to name the rows by. -/
def tableRows : List Instr :=
  [.init, .gfadd 0 0, .gfmul 0 0, .gfinv 0, .coef 0 0, .mulacc 0, .encode, .decode]

/-- `w` selects the row of `i`: `(w & mask) == match` (R51). -/
def selectsRow (w : Word) (i : Instr) : Bool := w &&& (tableRow i).2 == (tableRow i).1

/-- The instruction of a word whose bits are numbered as spec/opcode_table.json numbers them: LHCORE has one word of 32
bits (R54), so the number is the word. -/
def decodeTableWord (nbits w : Nat) : Option Instr :=
  if w < 2 ^ nbits ∧ w < 2 ^ Config.regWidth then (decodeWord (BitVec.ofNat Config.regWidth w)).toOption else none

end Sys2Proof
end

