-- ==== Sys2Proof/Machine/State.lean ====
section
/-! DEFINITION. The state of LHCORE as plain data: the registers of one engine (R12 to R18), buffer memory (R30), the
other engine instances (R27), the operations the host has still to make (R11), and the reasons a step can stop. -/

namespace Sys2Proof.Machine

/-- `STATUS` (R15). Its reserved bits 3:2 and 31:16 read 0 and are put there by the read (`Status.toWord`). -/
structure Status where
  /-- `INIT_DONE`, bit 0; it also stands for the field tables (R18). -/
  initDone : Bool
  /-- `ANYERR`, bit 1, sticky. -/
  anyErr : Bool
  /-- `ERR`, bits 7:4. -/
  err : BitVec 4
  /-- `ERRINFO`, bits 15:8. -/
  errInfo : Byte
  deriving DecidableEq, Repr

/-- The registers of one engine instance (R12). `CMD` is not stored (R14). -/
structure Engine where
  status : Status
  /-- `RESULT`, bits 7:0 (R16). -/
  result : Byte
  /-- `K` (R13). -/
  k : Word
  /-- `M` (R13). -/
  m : Word
  /-- `BLOCK_BYTES` (R13). -/
  blockBytes : Word
  /-- `SRC` (R13). -/
  src : Word
  /-- `DST` (R13). -/
  dst : Word
  /-- `LEN` (R13). -/
  len : Word
  /-- `DESC_ADDR[n]` (R17). -/
  descAddr : Vector Word Config.nDesc
  /-- `DESC_ROW[n]` (R17). -/
  descRow : Vector Byte Config.nDesc
  deriving DecidableEq, Repr

/-- The sub-causes of `CONFIG_ERROR` (R140). -/
inductive ConfigCause where
  | kZero | mZero | kmRange | size | addrRange | operandRange
  deriving DecidableEq, Repr

/-- The sub-causes of `DECODE_ERROR` (R140). -/
inductive DecodeCause where
  | rowRange | dupOriginal | singular
  deriving DecidableEq, Repr

/-- How a command ends (R140). None of them stops the machine: each is what `finish` writes (R141). -/
inductive Completion where
  | ok
  | configError (cause : ConfigCause)
  | decodeError (cause : DecodeCause)
  | notInit
  | domainError
  | illegalCmd
  deriving DecidableEq, Repr

/-- The addresses `base, ..., base + len - 1` of buffer memory (R31). -/
structure Region where
  base : Nat
  len : Nat
  deriving DecidableEq, Repr

/-- What stands at addresses that are not plain memory (R34, R35, U8). -/
inductive WindowKind where
  /-- No memory answers there. -/
  | absent
  /-- A read or a write there has an effect of its own. -/
  | device
  deriving DecidableEq, Repr

/-- A part of the address space where the platform has no plain memory (R35). -/
structure Window where
  region : Region
  kind : WindowKind
  deriving DecidableEq, Repr

/-- One operation of the host (R11, R166). -/
inductive HostOp where
  /-- `RegWrite(n, v)`; with `n = 0` it is a command (R14). -/
  | regWrite (n : Nat) (v : Word)
  /-- `RegRead(n)`. -/
  | regRead (n : Nat)
  /-- The host, or another agent between commands, stores one byte (`MEM`, R56; R41). -/
  | memWrite (a : Word) (v : Byte)
  /-- Reset of the addressed engine (R160), which can only come between commands (R161). -/
  | reset
  /-- The host turns to the `n`-th of the other engines: it and the engine addressed so far change places (R27, R28; the
  model's own way to name an instance, log entry 10). -/
  | select (n : Nat)
  deriving DecidableEq, Repr

/-- Buffer memory (R30): the listed bytes; an address not listed reads `Config.unlistedByte`. Its canonical form is
`Memory.wf`. -/
abbrev Memory := List Host.Cell

/-- The whole machine. -/
structure State where
  /-- The engine the host's operations address. -/
  engine : Engine
  /-- The other engine instances (R27). -/
  others : List Engine
  /-- Buffer memory (R23, R30). -/
  mem : Memory
  /-- Where buffer memory is not plain memory; no step changes it (R35; log entry 6). -/
  platform : List Window
  /-- The host's operations to come, oldest first (R11, R20; the model's own field, log entry 3). -/
  pending : List HostOp
  /-- What the latest `RegRead` returned (R11; the model's own field, log entry 14). -/
  readData : Word
  /-- How many free values have been drawn (U3, U6; the model's own field, log entry 15). -/
  freeNext : Nat
  deriving DecidableEq, Repr

/-- Why the machine stops with a fault: never. LHCORE has no fault: its errors are completion codes (R141), nothing hangs or
sticks (R155), it has no bus error (U8), so no reason exists and no step ends in one. -/
inductive Fault where
  deriving DecidableEq, Repr

/-- Why the model gives a step no meaning. -/
inductive Refusal where
  /-- An arm of `exec` with no meaning. Safe. None is left. -/
  | notModelled (mnemonic : String)
  /-- An address with no memory behind it is to be accessed (R35, U8: a model refuses it); raised by `withContract` for
  MULACC, ENCODE, DECODE and by the host's `memWrite`. Safe: the spec does not say what happens. -/
  | unbackedMemory
  /-- A device's address is to be accessed (R34, U8); raised by `withContract` for MULACC, ENCODE, DECODE and by the host's
  `memWrite`. Safe: the spec does not say what happens. -/
  | deviceMemory
  /-- A region the command writes overlaps another of its regions (R38, U7); raised by `withContract` for MULACC, ENCODE
  and DECODE. Safe: the spec gives no result. -/
  | overlappingRegions
  /-- The host turns to an engine instance that does not exist; raised by the host's `select`. Safe. -/
  | noSuchEngine
  deriving DecidableEq, Repr

/-- The outcome of a command or a step. -/
abbrev Result := Host.Outcome State Fault Refusal

/-- An engine right after reset (R24, R160). The descriptor file is "unspecified": each entry holds a free value, the
`draw`-th and following (log entry 1). -/
def Engine.afterReset (draw : Nat) : Engine where
  status := { initDone := false, anyErr := false, err := 0, errInfo := 0 }
  result := 0
  k := 0
  m := 0
  blockBytes := 0
  src := 0
  dst := 0
  len := 0
  descAddr := Vector.ofFn fun n => Config.freeWord (draw + n.val)
  descRow := Vector.ofFn fun n => Config.freeByte (draw + n.val)

/-- The machine right after reset (R24, R160): every engine at its reset values, memory with nothing listed, no operation
of the host to come. What the spec gives no value for: log entries 1, 2, 3, 6, 10, 14, 15. -/
def State.reset : State where
  engine := Engine.afterReset 0
  others := (List.range (Config.nEngines - 1)).map fun j => Engine.afterReset (Config.nDesc * (j + 1))
  mem := []
  platform := []
  pending := []
  readData := 0
  freeNext := Config.nDesc * Config.nEngines

end Sys2Proof.Machine
end

