-- ==== Sys2Proof/Machine/Flags.lean ====
section
/-! DEFINITION. LHCORE has no condition codes (R19): its only status state is `STATUS` (R15). The codes and sub-causes of
R140, what a completion writes to `STATUS`, and how `STATUS` reads. -/

namespace Sys2Proof.Machine

/-- `ERRINFO` of a `CONFIG_ERROR` (R140). -/
def ConfigCause.info : ConfigCause → Byte
  | .kZero => 1
  | .mZero => 2
  | .kmRange => 3
  | .size => 4
  | .addrRange => 5
  | .operandRange => 6

/-- `ERRINFO` of a `DECODE_ERROR` (R140). -/
def DecodeCause.info : DecodeCause → Byte
  | .rowRange => 1
  | .dupOriginal => 2
  | .singular => 3

/-- `ERR` (R140). -/
def Completion.code : Completion → BitVec 4
  | .ok => 0
  | .configError _ => 1
  | .decodeError _ => 2
  | .notInit => 3
  | .domainError => 4
  | .illegalCmd => 5

/-- `ERRINFO` (R140): 0 for every code without sub-causes. -/
def Completion.info : Completion → Byte
  | .configError c => c.info
  | .decodeError c => c.info
  | .ok | .notInit | .domainError | .illegalCmd => 0

/-- `STATUS` after `finish(code, info)` (R141): `ERR` and `ERRINFO` overwritten, `ANYERR` set if the code is not 0. -/
def Status.complete (st : Status) (c : Completion) : Status :=
  { st with err := c.code, errInfo := c.info, anyErr := st.anyErr || c.code != 0 }

/-- `STATUS` as the host reads it (R15): bits 3:2 and 31:16 are 0. -/
def Status.toWord (st : Status) : Word :=
  (0#16 ++ st.errInfo ++ st.err ++ 0#2 ++ BitVec.ofBool st.anyErr ++ BitVec.ofBool st.initDone : BitVec 32)

end Sys2Proof.Machine
end

