-- ==== Sys2Proof/Machine/Ops.lean ====
section
/-! DEFINITION. The named operations over memory and registers: one byte of buffer memory (R31), the register map (R12),
ending a command (`finish`, R141, the only thing LHCORE has in an exception's place, so there is no return from one: R149),
the `INIT_DONE` test (R144), reset (R160), and the host's operations (R11). -/

namespace Sys2Proof.Machine

/-- The canonical form of memory: addresses strictly rising, and no listed byte equal to what an unlisted one reads as. -/
abbrev Memory.wf (mem : Memory) : Prop :=
  mem.Pairwise (fun c d => c.1 < d.1) ∧ ∀ c ∈ mem, c.2 ≠ Config.unlistedByte

/-- Every listed byte lies in the address space of R30. -/
abbrev Memory.inSpace (mem : Memory) : Prop := ∀ c ∈ mem, c.1 < Config.addressLimit

/-- `MemRead(a, 1)` (R31). -/
def Memory.read : Memory → Nat → Byte
  | [], _ => Config.unlistedByte
  | (b, v) :: rest, a => if a = b then v else Memory.read rest a

/-- The cell `(a, v)` put in its place by address. -/
def Memory.insertCell : Memory → Nat → Byte → Memory
  | [], a, v => [(a, v)]
  | (b, w) :: rest, a, v => if a < b then (a, v) :: (b, w) :: rest else (b, w) :: Memory.insertCell rest a v

/-- `MemWrite(a, 1, v)` (R31), keeping the canonical form: what was listed at `a` goes, and `v` is listed unless an
unlisted address reads so anyway. -/
def Memory.write (mem : Memory) (a : Nat) (v : Byte) : Memory :=
  let erased := mem.filter fun c => c.1 != a
  if v = Config.unlistedByte then erased else Memory.insertCell erased a v

/-- `DESC_ADDR[n]` as an address. Commands ask for `n < K + M <= 256` only, so the 0 beyond entry 255 is never used
(R17; log entry 17). -/
def Engine.addrOf (e : Engine) (n : Nat) : Nat := (e.descAddr[n]?.getD 0).toNat

/-- `DESC_ROW[n]` as a row index; as for `addrOf`, `n < 256` in every use. -/
def Engine.rowOf (e : Engine) (n : Nat) : Nat := (e.descRow[n]?.getD 0).toNat

/-- `DESC_ROW[n] <- row` (R127). -/
def Engine.setRow (e : Engine) (n : Nat) (row : Byte) : Engine :=
  { e with descRow := e.descRow.setIfInBounds n row }

/-- `RegRead(n)` (R12): write-only `CMD` reads 0 (R14), `RESULT` and `DESC_ROW` read zero-extended (R16, R17), reserved
numbers read 0 (R22). -/
def Engine.readReg (e : Engine) (n : Nat) : Word :=
  match n with
  | 0x001 => e.status.toWord
  | 0x002 => e.result.setWidth Config.regWidth
  | 0x003 => e.k
  | 0x004 => e.m
  | 0x005 => e.blockBytes
  | 0x006 => e.src
  | 0x007 => e.dst
  | 0x008 => e.len
  | _ =>
    if 0x100 ≤ n ∧ n < 0x100 + Config.nDesc then e.descAddr[n - 0x100]?.getD 0
    else if 0x200 ≤ n ∧ n < 0x200 + Config.nDesc then (e.descRow[n - 0x200]?.getD 0).setWidth Config.regWidth
    else 0

/-- `RegWrite(n, v)` for a register that is not `CMD` (R12): operand registers keep all 32 bits (R13), `DESC_ROW` keeps
bits 7:0 (R17), writes to `STATUS`, `RESULT` and reserved numbers are ignored (R22). -/
def Engine.writeReg (e : Engine) (n : Nat) (v : Word) : Engine :=
  match n with
  | 0x003 => { e with k := v }
  | 0x004 => { e with m := v }
  | 0x005 => { e with blockBytes := v }
  | 0x006 => { e with src := v }
  | 0x007 => { e with dst := v }
  | 0x008 => { e with len := v }
  | _ =>
    if 0x100 ≤ n ∧ n < 0x100 + Config.nDesc then { e with descAddr := e.descAddr.setIfInBounds (n - 0x100) v }
    else if 0x200 ≤ n ∧ n < 0x200 + Config.nDesc then { e with descRow := e.descRow.setIfInBounds (n - 0x200) (v.setWidth 8) }
    else e

/-- `finish(code, info)` (R141): the end of every command. Nothing but `STATUS` changes. -/
def State.finish (s : State) (c : Completion) : State :=
  { s with engine := { s.engine with status := s.engine.status.complete c } }

/-- `RESULT <- v` (R16). -/
def State.setResult (s : State) (v : Byte) : State :=
  { s with engine := { s.engine with result := v } }

/-- `INIT_DONE <- 1` (R77). -/
def State.setInitDone (s : State) : State :=
  { s with engine := { s.engine with status := { s.engine.status with initDone := true } } }

/-- The `NOT_INIT` test that every command but INIT makes first (R144); `LAZY_INIT` would do away with it. -/
def requireInit (s : State) (body : Result) : Result :=
  if s.engine.status.initDone || Config.lazyInit then body else .next (s.finish .notInit)

/-- A `CMD` value that selects no command (R53, R145): `finish(ILLEGAL_CMD, 0)` and nothing else. -/
def illegalCommand (s : State) : Result := .next (s.finish .illegalCmd)

/-- Two regions have no address in common (R38); an empty region meets none. -/
def Region.disjoint (r q : Region) : Bool :=
  r.len == 0 || q.len == 0 || decide (r.base + r.len ≤ q.base) || decide (q.base + q.len ≤ r.base)

/-- Some of the regions touch a part of the platform of this kind (R34, R35). -/
def State.touches (s : State) (kind : WindowKind) (regions : List Region) : Bool :=
  s.platform.any fun w => w.kind == kind && regions.any fun r => !r.disjoint w.region

/-- Reset of the addressed engine (R160): its registers take their reset values, the descriptor file takes fresh free
values; buffer memory, the other engines and the host are untouched. -/
def State.resetEngine (s : State) : State :=
  { s with engine := Engine.afterReset s.freeNext, freeNext := s.freeNext + Config.nDesc }

/-- The `n`-th of the other engines and the addressed one change places (R27; log entry 10). -/
def State.selectEngine (s : State) (n : Nat) : Result :=
  match s.others[n]? with
  | some e => .next { s with engine := e, others := s.others.set n s.engine }
  | none => .refused .noSuchEngine

/-- The host stores a byte of buffer memory (R41, `MEM` of R56), which must be plain memory (R34, R35). -/
def State.hostStore (s : State) (a : Word) (v : Byte) : Result :=
  if s.touches .absent [⟨a.toNat, 1⟩] then .refused .unbackedMemory
  else if s.touches .device [⟨a.toNat, 1⟩] then .refused .deviceMemory
  else .next { s with mem := Memory.write s.mem a.toNat v }

/-- A host operation that is not a command (R11, R166). A write of `CMD` is one (R14), and `step` runs it; here it would
change nothing. -/
def hostOperation (op : HostOp) (s : State) : Result :=
  match op with
  | .regWrite n v => .next { s with engine := s.engine.writeReg n v }
  | .regRead n => .next { s with readData := s.engine.readReg n }
  | .memWrite a v => s.hostStore a v
  | .reset => .next s.resetEngine
  | .select n => s.selectEngine n

/-- The command word of a host operation that is a command: a write of register 0, `CMD` (R11, R14). -/
def HostOp.commandWord : HostOp → Option Word
  | .regWrite 0 w => some w
  | _ => none

end Sys2Proof.Machine
end

