-- ==== Sys2Proof/Machine/Field.lean ====
section
/-! DEFINITION. The field arithmetic engine: FMUL and FINV (R70 to R76), in the forms R72, R74 and R75 call
equivalent. The commands use the one `MUL_IMPL` names, which cannot be observed (U2). Addition is `^^^` (R71). -/

namespace Sys2Proof.Machine

/-- One round of R72's loop, for bit `i` of `b`: multiply by x, reduce, add `a`. -/
def gmulRound (a b : Byte) (acc : BitVec 9) (i : Nat) : BitVec 9 :=
  let shifted := acc <<< 1
  let reduced := if shifted.getLsbD 8 then shifted ^^^ Config.poly else shifted
  if b.getLsbD i then reduced ^^^ a.setWidth 9 else reduced

/-- The bit-serial form of `gmul(a, b)` (R72), most significant bit of `b` first. -/
def gmulSerial (a b : Byte) : Byte := ([7, 6, 5, 4, 3, 2, 1, 0].foldl (gmulRound a b) 0).setWidth 8

/-- `xtime(a)` (R72): multiplication by x alone. -/
def xtime (a : Byte) : Byte :=
  (a <<< 1) ^^^ (if a.getLsbD 7 then Config.poly.setWidth 8 else 0)

/-- The 15-bit carry-less product of R72's second form. -/
def carrylessProduct (a b : Byte) : BitVec 15 :=
  (List.range 8).foldl (fun p i => if b.getLsbD i then p ^^^ (a.setWidth 15 <<< i) else p) 0

/-- The second form of R72: the carry-less product, then reduction from bit 14 down to bit 8. -/
def gmulCarryless (a b : Byte) : Byte :=
  ([14, 13, 12, 11, 10, 9, 8].foldl
    (fun (p : BitVec 15) i => if p.getLsbD i then p ^^^ (Config.poly.setWidth 15 <<< (i - 8)) else p)
    (carrylessProduct a b)).setWidth 8

/-- `EXP[i]` (R74): `GEN^i`. With `GEN = 0x02` each entry is `xtime` of the one before. -/
def expTable : Nat → Byte
  | 0 => 1
  | i + 1 => gmulSerial (expTable i) Config.gen

/-- `LOG[a]` (R74): the `i` below 255 with `EXP[i] = a`; there is none for 0. -/
def logTable (a : Byte) : Option Nat := (List.range 255).find? fun i => expTable i == a

/-- The log/antilog form of the product (R74). -/
def gmulLog (a b : Byte) : Byte :=
  match logTable a, logTable b with
  | some i, some j => expTable ((i + j) % 255)
  | _, _ => 0

/-- Row `a` of the full multiplication table (R18, R74). -/
def productRow (a : Byte) : List Byte := (List.range 256).map fun b => gmulSerial a (BitVec.ofNat 8 b)

/-- The full-table form of the product (R74). -/
def gmulTable (a b : Byte) : Byte := (productRow a).getD b.toNat 0

/-- The product as each structure of `MUL_IMPL` computes it (R74, U2). -/
def gmulBy (impl : MulImpl) (a b : Byte) : Byte :=
  match impl with
  | .fullTable => gmulTable a b
  | .logPair => gmulLog a b
  | .bitSerial => gmulSerial a b

/-- `gmul(a, b)` (R72): FMUL, in the structure the implementation has. -/
def gmul (a b : Byte) : Byte := gmulBy Config.mulImpl a b

/-- `a` to the power `2^i`, by squaring. -/
def gpowTwo (a : Byte) : Nat → Byte
  | 0 => a
  | i + 1 => gmul (gpowTwo a i) (gpowTwo a i)

/-- `ginv(a)` for `a` not 0 (R75): `a^254`, as the product of `a^2, a^4, ..., a^128`. For 0 there is no value (R76, U1):
the constant is a free one, and no command comes to it (log entry 8). -/
def ginv (a : Byte) : Byte :=
  if a = 0 then Config.inverseOfZero
  else [2, 3, 4, 5, 6, 7].foldl (fun acc i => gmul acc (gpowTwo a i)) (gpowTwo a 1)

/-- The 254-fold product of R75, and any other power. -/
def gpow (a : Byte) : Nat → Byte
  | 0 => 1
  | n + 1 => gmul (gpow a n) a

/-- The log/antilog form of the inverse (R75); there is none for 0. -/
def ginvLog (a : Byte) : Option Byte := (logTable a).map fun i => expTable ((255 - i) % 255)

/-- The XOR network of R97: the product as the XOR of `gmul(1 << i, c)` over the set bits `i` of `s`. -/
def gmulNetwork (s c : Byte) : Byte :=
  (List.range 8).foldl (fun acc i => if s.getLsbD i then acc ^^^ gmul (1#8 <<< i) c else acc) 0

end Sys2Proof.Machine
end

