-- ==== Sys2Proof/Machine/Buffer.lean ====
section
/-! DEFINITION. The buffer primitives: MulAcc, Scale, Zero (R90, R93, R94), and the filling of a buffer with free bytes
that SINGULAR needs (R129, U3). Each walks its buffer in ascending order, as the pseudocode does (R39). -/

namespace Sys2Proof.Machine

/-- `MulAcc(dst, src, c, n)` (R90). -/
def mulAcc (mem : Memory) (dst src : Nat) (c : Byte) : Nat → Memory
  | 0 => mem
  | n + 1 =>
    let before := mulAcc mem dst src c n
    Memory.write before (dst + n) (Memory.read before (dst + n) ^^^ gmul (Memory.read before (src + n)) c)

/-- `Scale(dst, c, n)` (R93). -/
def scale (mem : Memory) (dst : Nat) (c : Byte) : Nat → Memory
  | 0 => mem
  | n + 1 =>
    let before := scale mem dst c n
    Memory.write before (dst + n) (gmul (Memory.read before (dst + n)) c)

/-- `Zero(dst, n)` (R94). -/
def zero (mem : Memory) (dst : Nat) : Nat → Memory
  | 0 => mem
  | n + 1 => Memory.write (zero mem dst n) (dst + n) 0

/-- Bytes `dst, ..., dst + n - 1` become the free bytes `draw, ..., draw + n - 1`. -/
def fillFree (mem : Memory) (dst draw : Nat) : Nat → Memory
  | 0 => mem
  | n + 1 => Memory.write (fillFree mem dst draw n) (dst + n) (Config.freeByte (draw + n))

/-- A buffer of `n` bytes becomes undefined: every byte of it is a fresh free value (U3; log entry 7). -/
def State.scramble (s : State) (dst n : Nat) : State :=
  { s with mem := fillFree s.mem dst s.freeNext n, freeNext := s.freeNext + n }

end Sys2Proof.Machine
end

