-- ==== Sys2Proof/Machine/Operands.lean ====
section
/-! DEFINITION. What a command does with its operands before its work: the configuration checks in the order of R146, the
buffers it may touch (R36), and the contract on them (R34, R35, R38). All sums are exact naturals (R6, R146). -/

namespace Sys2Proof.Machine

/-- `k`, the number in register K. -/
def Engine.rows (e : Engine) : Nat := e.k.toNat

/-- `m`, the number in register M. -/
def Engine.parityRows (e : Engine) : Nat := e.m.toNat

/-- `bb`, the number in register BLOCK_BYTES. -/
def Engine.blockLen (e : Engine) : Nat := e.blockBytes.toNat

/-- The first of `K_ZERO`, `M_ZERO`, `KM_RANGE` that holds (R105, R111, R121, R146). -/
def kmCheck (e : Engine) : Option ConfigCause :=
  if e.rows = 0 then some .kZero
  else if e.parityRows = 0 then some .mZero
  else if e.rows + e.parityRows > Config.kmMax then some .kmRange
  else none

/-- The checks of ENCODE and DECODE over descriptor entries `0, ..., entries - 1` (R111, R121): after `kmCheck`, `SIZE`,
then `ADDR_RANGE`. -/
def blockCheck (e : Engine) (entries : Nat) : Option ConfigCause :=
  match kmCheck e with
  | some c => some c
  | none =>
    if e.blockLen = 0 ∨ e.blockLen % Config.granule ≠ 0 then some .size
    else if (List.range entries).any fun n => decide (e.addrOf n + e.blockLen > Config.addressLimit) then some .addrRange
    else none

/-- The checks of COEF (R105). -/
def coefCheck (e : Engine) (row col : Byte) : Option ConfigCause :=
  match kmCheck e with
  | some c => some c
  | none =>
    if row.toNat ≥ e.rows + e.parityRows ∨ col.toNat ≥ e.rows then some .operandRange else none

/-- The check of MULACC (R95). -/
def mulaccCheck (e : Engine) : Option ConfigCause :=
  if e.src.toNat + e.len.toNat > Config.addressLimit ∨ e.dst.toNat + e.len.toNat > Config.addressLimit then
    some .addrRange
  else none

/-- The buffer of descriptor entry `n` (R17, R36). -/
def Engine.block (e : Engine) (n : Nat) : Region := ⟨e.addrOf n, e.blockLen⟩

/-- The buffer MULACC writes (R36). -/
def Engine.dstRegion (e : Engine) : Region := ⟨e.dst.toNat, e.len.toNat⟩

/-- The buffer MULACC only reads; with `DST = SRC` there is no second region (R38, R96). -/
def Engine.srcRegions (e : Engine) : List Region :=
  if e.dst = e.src then [] else [⟨e.src.toNat, e.len.toNat⟩]

/-- The recovery buffers, which ENCODE writes (R36, R110). -/
def Engine.recoveryBlocks (e : Engine) : List Region :=
  (List.range e.parityRows).map fun j => e.block (e.rows + j)

/-- The data buffers, which ENCODE only reads (R36, R110). -/
def Engine.dataBlocks (e : Engine) : List Region := (List.range e.rows).map e.block

/-- Every region a command writes is disjoint from every other region of it (R38). -/
def regionsDisjoint : List Region → List Region → Bool
  | [], _ => true
  | w :: ws, readOnly =>
    ws.all (fun v => w.disjoint v) && readOnly.all (fun r => w.disjoint r) && regionsDisjoint ws readOnly

/-- The contract of a command that will access the regions `written` and `readOnly`: they are plain memory that exists
(R34, R35, U8) and overlap only as R38 allows (U7). -/
def State.contract (s : State) (written readOnly : List Region) : Bool :=
  !s.touches .absent (written ++ readOnly) && !s.touches .device (written ++ readOnly) &&
    regionsDisjoint written readOnly

/-- The work of a command whose checks have passed, if its contract holds; the engine checks none of this, and the spec
gives the command no result otherwise (log entries 5, 6). -/
def withContract (s : State) (written readOnly : List Region) (work : State) : Result :=
  if s.touches .absent (written ++ readOnly) then .refused .unbackedMemory
  else if s.touches .device (written ++ readOnly) then .refused .deviceMemory
  else if regionsDisjoint written readOnly then .next work
  else .refused .overlappingRegions

end Sys2Proof.Machine
end

