-- ==== Sys2Proof/Machine/Cauchy.lean ====
section
/-! DEFINITION. The Cauchy matrix generator: `coef` (R100) and the command COEF (R105). Nothing is stored: a coefficient is
made from its indices on demand (R106). -/

namespace Sys2Proof.Machine

/-- `coef(k, row, col)` (R100), for `col < k` and `row < 256`: the identity above, `ginv(x_row ^ y_col)` below. -/
def coef (k row col : Nat) : Byte :=
  if row < k then (if col = row then 1 else 0)
  else ginv (Config.xOfRow row ^^^ Config.yOfCol col)

/-- `COEF row, col` (R105). -/
def execCoef (row col : Byte) (s : State) : Result :=
  requireInit s <| .next <|
    match coefCheck s.engine row col with
    | some c => s.finish (.configError c)
    | none => (s.setResult (coef s.engine.rows row.toNat col.toNat)).finish .ok

end Sys2Proof.Machine
end

