-- ==== Sys2Proof/Machine/Encoder.lean ====
section
/-! DEFINITION. The encoder: ENCODE (R110 to R117). -/

namespace Sys2Proof.Machine

/-- Parity block `j` (R111): its recovery buffer is zeroed, then each data row is accumulated into it with the coefficient
of row `k + j`. -/
def encodeRow (e : Engine) (mem : Memory) (j : Nat) : Memory :=
  (List.range e.rows).foldl
    (fun mem i => mulAcc mem (e.addrOf (e.rows + j)) (e.addrOf i) (coef e.rows (e.rows + j) i) e.blockLen)
    (zero mem (e.addrOf (e.rows + j)) e.blockLen)

/-- All parity blocks, `j` from 0 to `m - 1` (R111). -/
def encodeBlocks (e : Engine) (mem : Memory) : Memory := (List.range e.parityRows).foldl (encodeRow e) mem

/-- `ENCODE` (R111): every check is made before the first byte is written (R114). -/
def execEncode (s : State) : Result :=
  requireInit s <|
    match blockCheck s.engine (s.engine.rows + s.engine.parityRows) with
    | some c => .next (s.finish (.configError c))
    | none =>
      withContract s s.engine.recoveryBlocks s.engine.dataBlocks <|
        { s with mem := encodeBlocks s.engine s.mem }.finish .ok

end Sys2Proof.Machine
end

