-- ==== Sys2Proof/Machine/FieldArith.lean ====
section
/-! DEFINITION. The commands of 40_field_arithmetic.md: INIT, GFADD, GFMUL, GFINV. -/

namespace Sys2Proof.Machine

/-- `INIT` (R77), the one command that does not need `INIT_DONE`. The tables it builds are represented by the bit (R18). -/
def execInit (s : State) : Result := .next (s.setInitDone.finish .ok)

/-- `GFADD a, b` (R78). -/
def execGfadd (a b : Byte) (s : State) : Result :=
  requireInit s (.next ((s.setResult (a ^^^ b)).finish .ok))

/-- `GFMUL a, b` (R79). -/
def execGfmul (a b : Byte) (s : State) : Result :=
  requireInit s (.next ((s.setResult (gmul a b)).finish .ok))

/-- `GFINV a` (R80): 0 ends with `DOMAIN_ERROR` and leaves RESULT. -/
def execGfinv (a : Byte) (s : State) : Result :=
  requireInit s (.next (if a = 0 then s.finish .domainError else (s.setResult (ginv a)).finish .ok))

end Sys2Proof.Machine
end

