-- ==== Sys2Proof/Machine/Mac.lean ====
section
/-! DEFINITION. The command of 41_mulacc.md: MULACC. -/

namespace Sys2Proof.Machine

/-- `MULACC scalar` (R95, R96). -/
def execMulacc (scalar : Byte) (s : State) : Result :=
  requireInit s <|
    match mulaccCheck s.engine with
    | some c => .next (s.finish (.configError c))
    | none =>
      withContract s [s.engine.dstRegion] s.engine.srcRegions <|
        { s with
          mem := mulAcc s.mem s.engine.dst.toNat s.engine.src.toNat scalar s.engine.len.toNat }.finish .ok

end Sys2Proof.Machine
end

