-- ==== Sys2Proof/Machine/Solver.lean ====
section
/-! DEFINITION. The decoder: DECODE (R120 to R136), phase by phase. What the phases hold (R21) lives in `Solver` and is gone
when the command ends. -/

namespace Sys2Proof.Machine

/-- What the classification finds wrong with slot `p` (R122): a row beyond the code, or an original row that an earlier
slot carries. `present[r]` of the spec is true at slot `p` when a slot before `p` carries row `r`. -/
def slotError (e : Engine) (p : Nat) : Option DecodeCause :=
  if e.rowOf p ≥ e.rows + e.parityRows then some .rowRange
  else if e.rowOf p < e.rows ∧ ((List.range p).any fun q => e.rowOf q == e.rowOf p) then some .dupOriginal
  else none

/-- The error of the lowest-numbered offending slot, if there is one (R122). -/
def classifyError (e : Engine) : Option DecodeCause := (List.range e.rows).findSome? (slotError e)

/-- The original slots, in ascending order (R120). -/
def Engine.originalSlots (e : Engine) : List Nat := (List.range e.rows).filter fun p => decide (e.rowOf p < e.rows)

/-- `E`: the parity slots, in ascending order (R122). -/
def Engine.paritySlots (e : Engine) : List Nat := (List.range e.rows).filter fun p => decide (e.rows ≤ e.rowOf p)

/-- `Mi`: the original rows that no slot carries, in ascending order (R122). -/
def Engine.missingRows (e : Engine) : List Nat :=
  (List.range e.rows).filter fun r => !((List.range e.rows).any fun p => e.rowOf p == r)

/-- The buffers of the parity slots, which DECODE writes (R36). -/
def Engine.parityBlocks (e : Engine) : List Region := e.paritySlots.map e.block

/-- The buffers of the original slots, which DECODE only reads (R36, R120). -/
def Engine.originalBlocks (e : Engine) : List Region := e.originalSlots.map e.block

/-- The engine's hidden state in DECODE (R21, R125), with the memory it works on. -/
structure Solver where
  mem : Memory
  /-- `A[t][u]`, a row for each parity slot, a column for each missing row. -/
  mat : List (List Byte)
  /-- `used[t]`. -/
  used : List Bool
  /-- `piv[u]`, for the columns done so far. -/
  piv : List Nat
  deriving DecidableEq, Repr

/-- Row `t` of the matrix. -/
def Solver.row (z : Solver) (t : Nat) : List Byte := z.mat.getD t []

/-- `A[t][u]`. -/
def Solver.entry (z : Solver) (t u : Nat) : Byte := (z.row t).getD u 0

/-- The address of the buffer of `E[t]`. -/
def Engine.parityAddr (e : Engine) (t : Nat) : Nat := e.addrOf (e.paritySlots.getD t 0)

/-- The terms of the known rows removed from the buffer of one parity slot (R124, the inner loop). -/
def cancelSlot (e : Engine) (mem : Memory) (slot : Nat) : Memory :=
  e.originalSlots.foldl
    (fun mem p => mulAcc mem (e.addrOf slot) (e.addrOf p) (coef e.rows (e.rowOf slot) (e.rowOf p)) e.blockLen) mem

/-- Cancelling the known rows in every parity slot (R124). -/
def cancelKnown (e : Engine) (mem : Memory) : Memory := e.paritySlots.foldl (cancelSlot e) mem

/-- The matrix of R124: `A[t][u] = coef(k, DESC_ROW[E[t]], Mi[u])`. -/
def initialMatrix (e : Engine) : List (List Byte) :=
  e.paritySlots.map fun p => e.missingRows.map fun r => coef e.rows (e.rowOf p) r

/-- The solver when elimination starts (R125). -/
def initialSolver (e : Engine) (mem : Memory) : Solver where
  mem := cancelKnown e mem
  mat := initialMatrix e
  used := e.paritySlots.map fun _ => false
  piv := []

/-- Row `t` and its buffer multiplied by `g` (R125). -/
def Solver.scaleRow (e : Engine) (z : Solver) (t : Nat) (g : Byte) : Solver :=
  { z with
    mat := z.mat.set t ((z.row t).map fun x => gmul x g)
    mem := scale z.mem (e.parityAddr t) g e.blockLen }

/-- Row `t`, taken `f = A[t2][u]` times, added to row `t2`, and the same to the buffers (R125, R126). -/
def Solver.cancelEntry (e : Engine) (u t : Nat) (z : Solver) (t2 : Nat) : Solver :=
  let f := z.entry t2 u
  { z with
    mat := z.mat.set t2 (List.zipWith (fun x y => x ^^^ gmul f y) (z.row t2) (z.row t))
    mem := mulAcc z.mem (e.parityAddr t2) (e.parityAddr t) f e.blockLen }

/-- The pivot of column `u`: the smallest unused row with a non-zero entry there (R125). -/
def Solver.pivot (z : Solver) (n u : Nat) : Option Nat :=
  (List.range n).find? fun t => !(z.used.getD t true) && z.entry t u != 0

/-- One column of forward elimination (R125); none when no pivot is found. -/
def forwardStep (e : Engine) (n : Nat) (z : Solver) (u : Nat) : Option Solver :=
  match z.pivot n u with
  | none => none
  | some t =>
    let marked := { z with used := z.used.set t true, piv := z.piv ++ [t] }
    let scaled := Solver.scaleRow e marked t (ginv (z.entry t u))
    some <| (List.range n).foldl
      (fun z t2 => if !(z.used.getD t2 true) && z.entry t2 u != 0 then Solver.cancelEntry e u t z t2 else z) scaled

/-- Forward elimination over all `n` columns (R125). -/
def forwardEliminate (e : Engine) (n : Nat) (z : Solver) : Option Solver :=
  (List.range n).foldlM (forwardStep e n) z

/-- One column of back-substitution (R126): column `u` is cleared in the rows of the pivots before it. -/
def backStep (e : Engine) (z : Solver) (u : Nat) : Solver :=
  (List.range u).foldl
    (fun z u2 => if z.entry (z.piv.getD u2 0) u != 0 then Solver.cancelEntry e u (z.piv.getD u 0) z (z.piv.getD u2 0) else z)
    z

/-- Back-substitution, from column `n - 1` down (R126); column 0 has no pivot before it. -/
def backSubstitute (e : Engine) (n : Nat) (z : Solver) : Solver := (List.range n).reverse.foldl (backStep e) z

/-- Cancelling, forward elimination and back-substitution; none when the system is singular (R121). -/
def solve (e : Engine) (mem : Memory) : Option Solver :=
  (forwardEliminate e e.paritySlots.length (initialSolver e mem)).map (backSubstitute e e.paritySlots.length)

/-- `DESC_ROW[E[piv[u]]] <- Mi[u]` for every column `u` (R127). -/
def rewriteRows (e : Engine) (piv : List Nat) : Engine :=
  (List.range piv.length).foldl
    (fun e' u => e'.setRow (e.paritySlots.getD (piv.getD u 0) 0) (BitVec.ofNat 8 (e.missingRows.getD u 0))) e

/-- The end of a DECODE that has work to do: success, or `SINGULAR` with every parity-slot buffer undefined and nothing
else changed (R127, R129). -/
def decodeOutcome (s : State) : State :=
  match solve s.engine s.mem with
  | some z => { s with mem := z.mem, engine := rewriteRows s.engine z.piv }.finish .ok
  | none =>
    (s.engine.paritySlots.foldl (fun s' p => s'.scramble (s.engine.addrOf p) s.engine.blockLen) s).finish
      (.decodeError .singular)

/-- `DECODE` (R121): the checks, the classification (R122), the fast path that reads and writes nothing (R123), then the
solver. -/
def execDecode (s : State) : Result :=
  requireInit s <|
    match blockCheck s.engine s.engine.rows with
    | some c => .next (s.finish (.configError c))
    | none =>
      match classifyError s.engine with
      | some c => .next (s.finish (.decodeError c))
      | none =>
        if s.engine.paritySlots = [] then .next (s.finish .ok)
        else withContract s s.engine.parityBlocks s.engine.originalBlocks (decodeOutcome s)

end Sys2Proof.Machine
end

