-- ==== Sys2Proof/Machine/Step.lean ====
section
/-! DEFINITION. One step of the machine: the oldest of the host's operations that are still to come (R11, R20). -/

namespace Sys2Proof.Machine

/-- One step. With nothing pending nothing happens: the engine never acts on its own (R10). A write of `CMD` is decoded and
run to its end (R11, R14); any other operation is the host's own. -/
def step (s : State) : Host.Outcome State Fault Refusal :=
  match s.pending with
  | [] => .next s
  | op :: rest =>
    match op.commandWord with
    | some w =>
      match decodeWord w with
      | .ok i => exec i { s with pending := rest }
      | .error _ => illegalCommand { s with pending := rest }
    | none => hostOperation op { s with pending := rest }

/-- `s` with the write of this command word as the host's next operation (log entry 3). -/
def State.withFetchWord (s : State) (nbits w : Nat) : State :=
  { s with pending := .regWrite 0 (BitVec.ofNat Config.regWidth (w % 2 ^ nbits)) :: s.pending }

end Sys2Proof.Machine
end

