-- ==== Sys2Proof/Safety.lean ====
section
/-! DEFINITION. What the statements say, in the spec's own terms and apart from the functions that decide it in the
machine: the invariant, when a command is ready to do its work (R164), what a command may leave changed, and sums in the
field. -/

namespace Sys2Proof.Machine

/-- The code and sub-cause pairs a command can end with (R140). -/
def completionTable : List (BitVec 4 × Byte) :=
  [(0, 0), (1, 1), (1, 2), (1, 3), (1, 4), (1, 5), (1, 6), (2, 1), (2, 2), (2, 3), (3, 0), (4, 0), (5, 0)]

/-- `STATUS` holds a pair of R140, and `ANYERR` is set if the latest command ended with an error (R15). -/
abbrev Status.legal (st : Status) : Prop :=
  (st.err, st.errInfo) ∈ completionTable ∧ (st.err ≠ 0 → st.anyErr = true)

/-- The invariant of the machine: memory in canonical form and inside its space (R30), every engine's `STATUS` legal. -/
abbrev State.inv (s : State) : Prop :=
  Memory.wf s.mem ∧ Memory.inSpace s.mem ∧ s.engine.status.legal ∧ ∀ e ∈ s.others, e.status.legal

/-- The address `a` lies in the region (R31). -/
abbrev Region.contains (r : Region) (a : Nat) : Prop := r.base ≤ a ∧ a < r.base + r.len

/-- No address lies in both regions (R38). -/
def Region.apart (r q : Region) : Prop := ∀ a, ¬ (r.contains a ∧ q.contains a)

/-- The region is plain memory that exists (R34, R35). -/
def State.plain (s : State) (r : Region) : Prop := ∀ w ∈ s.platform, w.region.apart r

/-- The sum in the field of `f 0, ..., f (n - 1)` (R71). -/
def xorSum (n : Nat) (f : Nat → Byte) : Byte := (List.range n).foldl (fun acc i => acc ^^^ f i) 0

/-- MULACC may do its work: initialised, in range (R37), over plain memory, its two buffers disjoint or the same (R38). -/
structure MulaccReady (s : State) : Prop where
  initDone : s.engine.status.initDone = true
  srcRange : s.engine.src.toNat + s.engine.len.toNat ≤ 2 ^ 32
  dstRange : s.engine.dst.toNat + s.engine.len.toNat ≤ 2 ^ 32
  srcPlain : s.plain ⟨s.engine.src.toNat, s.engine.len.toNat⟩
  dstPlain : s.plain ⟨s.engine.dst.toNat, s.engine.len.toNat⟩
  overlap : s.engine.dst = s.engine.src ∨
    Region.apart ⟨s.engine.dst.toNat, s.engine.len.toNat⟩ ⟨s.engine.src.toNat, s.engine.len.toNat⟩

/-- The configuration checks that ENCODE and DECODE share have passed, over the first `entries` descriptors (R111, R121). -/
structure BlocksReady (e : Engine) (entries : Nat) : Prop where
  initDone : e.status.initDone = true
  kPos : 1 ≤ e.rows
  mPos : 1 ≤ e.parityRows
  kmRange : e.rows + e.parityRows ≤ 256
  size : 1 ≤ e.blockLen
  addrRange : ∀ n < entries, e.addrOf n + e.blockLen ≤ 2 ^ 32

/-- ENCODE may do its work: checks passed, plain memory, and each recovery buffer disjoint from every other buffer. -/
structure EncodeReady (s : State) : Prop where
  checks : BlocksReady s.engine (s.engine.rows + s.engine.parityRows)
  plain : ∀ n < s.engine.rows + s.engine.parityRows, s.plain (s.engine.block n)
  overlap : ∀ j < s.engine.parityRows, ∀ n < s.engine.rows + s.engine.parityRows, n ≠ s.engine.rows + j →
    (s.engine.block (s.engine.rows + j)).apart (s.engine.block n)

/-- Some address lies in both regions (R38). -/
def Region.overlaps (r q : Region) : Prop := ∃ a, r.contains a ∧ q.contains a

/-- A region the command writes overlaps another region of it (R36, R38). MULACC with `DST = SRC` is the exception R38 makes;
a command that accesses no memory has no regions. -/
def State.commandOverlaps (s : State) : Instr → Prop
  | .init => False
  | .gfadd _ _ => False
  | .gfmul _ _ => False
  | .gfinv _ => False
  | .coef _ _ => False
  | .mulacc _ => s.engine.dst ≠ s.engine.src ∧
      Region.overlaps ⟨s.engine.dst.toNat, s.engine.len.toNat⟩ ⟨s.engine.src.toNat, s.engine.len.toNat⟩
  | .encode => ∃ j n, j < s.engine.parityRows ∧ n < s.engine.rows + s.engine.parityRows ∧ n ≠ s.engine.rows + j ∧
      (s.engine.block (s.engine.rows + j)).overlaps (s.engine.block n)
  | .decode => ∃ p q, p < s.engine.rows ∧ s.engine.rows ≤ s.engine.rowOf p ∧ q < s.engine.rows ∧ q ≠ p ∧
      (s.engine.block p).overlaps (s.engine.block q)

/-- DECODE's row indices name rows of the code, and no original row twice (R122). -/
structure RowsClassified (e : Engine) : Prop where
  rowRange : ∀ p < e.rows, e.rowOf p < e.rows + e.parityRows
  distinctOriginals : ∀ p < e.rows, ∀ q < e.rows, e.rowOf p < e.rows → e.rowOf q = e.rowOf p → q = p

/-- DECODE may do its work: checks and classification passed, plain memory, and each parity slot's buffer disjoint from
every other slot's. -/
structure DecodeReady (s : State) : Prop where
  checks : BlocksReady s.engine s.engine.rows
  classified : RowsClassified s.engine
  plain : ∀ p < s.engine.rows, s.plain (s.engine.block p)
  overlap : ∀ p < s.engine.rows, s.engine.rows ≤ s.engine.rowOf p → ∀ q < s.engine.rows, q ≠ p →
    (s.engine.block p).apart (s.engine.block q)

/-- A valid instance of R132: the `k` slots carry pairwise distinct rows. -/
def Engine.rowsDistinct (e : Engine) : Prop := ∀ p < e.rows, ∀ q < e.rows, e.rowOf q = e.rowOf p → q = p

/-- The slots hold what their row indices say, for the original rows `d 0, ..., d (k - 1)` (R128): an original slot its
row, a parity slot the combination of R113. `d i b` is byte `b` of row `i`. -/
def State.slotsHold (s : State) (d : Nat → Nat → Byte) : Prop :=
  ∀ p < s.engine.rows, ∀ b < s.engine.blockLen,
    Memory.read s.mem (s.engine.addrOf p + b) =
      if s.engine.rowOf p < s.engine.rows then d (s.engine.rowOf p) b
      else xorSum s.engine.rows fun i => gmul (coef s.engine.rows (s.engine.rowOf p) i) (d i b)

/-- The address lies in the buffer of a parity slot: the only bytes DECODE may write (R36). -/
def Engine.inParityBlock (e : Engine) (a : Nat) : Prop :=
  ∃ p < e.rows, e.rows ≤ e.rowOf p ∧ (e.block p).contains a

/-- The address lies in a recovery buffer: the only bytes ENCODE may write (R36). -/
def Engine.inRecoveryBlock (e : Engine) (a : Nat) : Prop :=
  ∃ j < e.parityRows, (e.block (e.rows + j)).contains a

/-- The registers no command writes have their old values (R13, R17: the operand registers and `DESC_ADDR`). -/
structure Engine.operandsKept (e e' : Engine) : Prop where
  k : e'.k = e.k
  m : e'.m = e.m
  blockBytes : e'.blockBytes = e.blockBytes
  src : e'.src = e.src
  dst : e'.dst = e.dst
  len : e'.len = e.len
  descAddr : e'.descAddr = e.descAddr

/-- Everything outside the addressed engine and buffer memory has its old value: the other engines, the platform, the
host's operations to come and what it last read. -/
structure State.surroundingsKept (s t : State) : Prop where
  others : t.others = s.others
  platform : t.platform = s.platform
  pending : t.pending = s.pending
  readData : t.readData = s.readData

/-- Every byte of buffer memory reads as before. -/
def State.memoryKept (s t : State) : Prop := ∀ a, Memory.read t.mem a = Memory.read s.mem a

/-- Two engines alike in everything a command may depend on (R25): not `RESULT`, `ERR`, `ERRINFO` or `ANYERR`. -/
structure Engine.sameInputs (e e' : Engine) : Prop where
  initDone : e'.status.initDone = e.status.initDone
  operands : Engine.operandsKept e e'
  descRow : e'.descRow = e.descRow

/-- `s` with the end of a command that failed: `ERR`, `ERRINFO` written, `ANYERR` set, nothing else touched (R141). -/
def State.withError (s : State) (err : BitVec 4) (info : Byte) : State :=
  { s with engine := { s.engine with
      status := { s.engine.status with err := err, errInfo := info, anyErr := true } } }

/-- `s` with the end of a command that succeeded: `ERR` and `ERRINFO` are 0, `ANYERR` keeps its value (R141). -/
def State.withOk (s : State) : State :=
  { s with engine := { s.engine with status := { s.engine.status with err := 0, errInfo := 0 } } }

end Sys2Proof.Machine
end

