-- ==== Sys2Proof/Certificates/Slice0/Obligations.lean ====
section
/-! DEFINITION. The statements for the provers, from the spec's numbered rules, in the order of the spec's files. -/

open Sys2Proof Sys2Proof.Machine

/-! ### Encoding (30_encoding.md) -/

/-- R50, R51, R52: no bit of an operand is lost. -/
def Obligations.DecodeOfEncodeIsTheInstruction : Prop := ∀ i : Instr, decodeWord (encodeWord i) = .ok i

/-- R50, R51, R54: a legal word is the word of the one command it selects. -/
def Obligations.EncodeOfDecodeIsTheWord : Prop :=
  ∀ (w : Word) (i : Instr), decodeWord w = .ok i → encodeWord i = w

/-- R51: a word selects the command whose row has `(w & mask) == match`, and the rows are mutually exclusive. -/
def Obligations.WordSelectsTheRowItMatches : Prop :=
  (∀ (w : Word) (i : Instr), decodeWord w = .ok i → selectsRow w i = true) ∧
  (∀ w : Word, ∀ i ∈ tableRows, selectsRow w i = true → ∃ j, decodeWord w = .ok j ∧ tableRow j = tableRow i) ∧
  (∀ w : Word, ∀ i ∈ tableRows, ∀ j ∈ tableRows, selectsRow w i = true → selectsRow w j = true → i = j)

/-- R53, R145: an illegal word is reported, before and after INIT, and changes nothing else; every other word is a
command. The queue the operation comes from is the model's own (log entry 3). -/
def Obligations.IllegalWordOnlyReports : Prop :=
  ∀ (s : State) (w : Word) (rest : List HostOp), s.pending = .regWrite 0 w :: rest →
    let opc := w.extractLsb' 0 8
    let a := w.extractLsb' 8 8
    let b := w.extractLsb' 16 8
    let rsv := w.extractLsb' 24 8
    let illegal := opc = 0x00 ∨ 0x09 ≤ opc.toNat ∨ rsv ≠ 0 ∨
      (a ≠ 0 ∧ (opc = 0x01 ∨ opc = 0x07 ∨ opc = 0x08)) ∨
      (b ≠ 0 ∧ (opc = 0x01 ∨ opc = 0x04 ∨ opc = 0x06 ∨ opc = 0x07 ∨ opc = 0x08))
    (illegal → step s = .next (State.withError { s with pending := rest } 5 0)) ∧
    (¬ illegal → ∃ i, decodeWord w = .ok i)

/-- Words written out in 95_test_vectors.md T3 and T4, and one of each other command from R51's bit patterns. -/
def Obligations.WordsOfTheSpecDecode : Prop :=
  decodeWord 0x00000001 = .ok .init ∧ decodeWord 0x00CA5302 = .ok (.gfadd 0x53 0xCA) ∧
  decodeWord 0x00800203 = .ok (.gfmul 0x02 0x80) ∧ decodeWord 0x00008E04 = .ok (.gfinv 0x8E) ∧
  decodeWord 0x00030405 = .ok (.coef 4 3) ∧ decodeWord 0x0000FF06 = .ok (.mulacc 0xFF) ∧
  decodeWord 0x00000007 = .ok .encode ∧ decodeWord 0x00000008 = .ok .decode ∧
  decodeWord 0x00000000 = .error .opcode ∧ decodeWord 0x80000001 = .error .reservedBits ∧
  decodeWord 0x00000107 = .error .operandA ∧ decodeWord 0x00010006 = .error .operandB

/-! ### The host's operations (10_state.md, 20_memory.md, 70_reset_and_hazards.md) -/

/-- R11, R14: the step that takes a legal write of CMD runs that command, on the state without that operation. The queue
is the model's own (log entry 3). -/
def Obligations.StepRunsTheDecodedCommand : Prop :=
  ∀ (s : State) (w : Word) (i : Instr) (rest : List HostOp),
    s.pending = .regWrite 0 w :: rest → decodeWord w = .ok i → step s = exec i { s with pending := rest }

/-- R10: the engine never acts on its own. The idle step is the model's own form (log entry 3). -/
def Obligations.NothingHappensWithoutTheHost : Prop := ∀ s : State, s.pending = [] → step s = .next s

/-- R12, R13, R17, R22: a write that is no command sets at most the one register it names, whose new value is the 32
bits written, their low byte for a DESC_ROW, or the old value where the register is read-only or reserved. The queue is
the model's own (log entry 3). -/
def Obligations.HostWriteSetsOneRegister : Prop :=
  ∀ (s : State) (n : Nat) (v : Word) (rest : List HostOp), s.pending = .regWrite n v :: rest → n ≠ 0 →
    ∃ e : Engine, step s = .next { s with pending := rest, engine := e } ∧
      e.readReg n = (if (3 ≤ n ∧ n ≤ 8) ∨ (0x100 ≤ n ∧ n < 0x200) then v
        else if 0x200 ≤ n ∧ n < 0x300 then v &&& 0xFF else s.engine.readReg n) ∧
      ∀ n', n' ≠ n → e.readReg n' = s.engine.readReg n'

/-- R22: reserved numbers read 0 and ignore writes; STATUS and RESULT ignore writes; neither reports an error. The queue
and `readData` are the model's own (log entries 3, 14). -/
def Obligations.ReservedAndReadOnlyRegisters : Prop :=
  ∀ (s : State) (n : Nat) (v : Word) (rest : List HostOp),
    (((0x009 ≤ n ∧ n ≤ 0x0FF) ∨ 0x300 ≤ n) → s.pending = .regRead n :: rest →
      step s = .next { s with pending := rest, readData := 0 }) ∧
    (((0x009 ≤ n ∧ n ≤ 0x0FF) ∨ 0x300 ≤ n ∨ n = 1 ∨ n = 2) → s.pending = .regWrite n v :: rest →
      step s = .next { s with pending := rest })

/-- R12, R14 to R17: what each register number reads as; STATUS by its fields (R15). The queue and `readData` are the
model's own (log entries 3, 14). -/
def Obligations.HostReadReturnsTheRegister : Prop :=
  ∀ (s : State) (n : Nat) (rest : List HostOp), s.pending = .regRead n :: rest →
    ∃ v : Word, step s = .next { s with pending := rest, readData := v } ∧
      (n = 0x000 → v = 0) ∧
      (n = 0x001 → v.getLsbD 0 = s.engine.status.initDone ∧ v.getLsbD 1 = s.engine.status.anyErr ∧
        v.extractLsb' 2 2 = 0 ∧ v.extractLsb' 4 4 = s.engine.status.err ∧
        v.extractLsb' 8 8 = s.engine.status.errInfo ∧ v.extractLsb' 16 16 = 0) ∧
      (n = 0x002 → v = s.engine.result.setWidth 32) ∧
      (n = 0x003 → v = s.engine.k) ∧ (n = 0x004 → v = s.engine.m) ∧ (n = 0x005 → v = s.engine.blockBytes) ∧
      (n = 0x006 → v = s.engine.src) ∧ (n = 0x007 → v = s.engine.dst) ∧ (n = 0x008 → v = s.engine.len) ∧
      (∀ j : Fin 256, n = 0x100 + j.val → v = s.engine.descAddr[j]) ∧
      (∀ j : Fin 256, n = 0x200 + j.val → v = s.engine.descRow[j].setWidth 32)

/-- R41, R56: a byte the host stores in plain memory is there afterwards, and nothing else has changed. The queue is the
model's own (log entry 3). -/
def Obligations.HostStoreIsVisible : Prop :=
  ∀ (s : State) (a : Word) (v : Byte) (rest : List HostOp),
    s.pending = .memWrite a v :: rest → s.plain ⟨a.toNat, 1⟩ →
    ∃ mem : Memory, step s = .next { s with pending := rest, mem := mem } ∧ Memory.read mem a.toNat = v ∧
      ∀ x, x ≠ a.toNat → Memory.read mem x = Memory.read s.mem x

/-- R24, R160: what reset leaves, for the values the spec gives: also the values at `State.reset`. The descriptor file,
which the spec leaves unspecified, is not spoken of. The descriptor file: log entry 1; the queue: log entry 3; reset
between commands only: log entry 11. -/
def Obligations.ResetLeavesTheStatedValues : Prop :=
  (∀ (s : State) (rest : List HostOp), s.pending = .reset :: rest →
    ∃ t, step s = .next t ∧ t.pending = rest ∧ t.others = s.others ∧ t.mem = s.mem ∧ t.platform = s.platform ∧
      t.readData = s.readData ∧
      t.engine.status = ⟨false, false, 0, 0⟩ ∧ t.engine.result = 0 ∧ t.engine.k = 0 ∧ t.engine.m = 0 ∧
      t.engine.blockBytes = 0 ∧ t.engine.src = 0 ∧ t.engine.dst = 0 ∧ t.engine.len = 0) ∧
  State.reset.engine.status = ⟨false, false, 0, 0⟩ ∧ State.reset.engine.result = 0 ∧ State.reset.engine.k = 0 ∧
  State.reset.engine.m = 0 ∧ State.reset.engine.blockBytes = 0 ∧ State.reset.engine.src = 0 ∧
  State.reset.engine.dst = 0 ∧ State.reset.engine.len = 0

/-- R15, R18: INIT_DONE and ANYERR, once 1, stay 1 in every step that is not a reset and does not turn to another
engine. The queue: log entry 3; turning to another engine: log entry 10. -/
def Obligations.StickyBitsStay : Prop :=
  ∀ (s t : State) (op : HostOp) (rest : List HostOp), s.pending = op :: rest → op ≠ .reset → (∀ n, op ≠ .select n) →
    step s = .next t →
    (s.engine.status.initDone = true → t.engine.status.initDone = true) ∧
    (s.engine.status.anyErr = true → t.engine.status.anyErr = true)

/-! ### Field arithmetic (40_field_arithmetic.md) -/

/-- R73: the laws of `gmul`. -/
def Obligations.GmulFieldLaws : Prop :=
  (∀ a : Byte, gmul a 0 = 0 ∧ gmul 0 a = 0) ∧ (∀ a : Byte, gmul a 1 = a) ∧
  (∀ a b : Byte, gmul a b = gmul b a) ∧
  (∀ a b c : Byte, gmul a (gmul b c) = gmul (gmul a b) c) ∧
  (∀ a b c : Byte, gmul a (b ^^^ c) = gmul a b ^^^ gmul a c) ∧
  (∀ a b : Byte, gmul a b = 0 → a = 0 ∨ b = 0)

/-- R72, R74, R97: every structure of `MUL_IMPL` computes the bit-serial product, and `gmul` is it; so do the carry-less
form and the XOR network; `xtime` is multiplication by 2. -/
def Obligations.MultiplierFormsAgree : Prop :=
  (∀ (impl : MulImpl) (a b : Byte), gmulBy impl a b = gmulSerial a b) ∧ (∀ a b : Byte, gmul a b = gmulSerial a b) ∧
  (∀ a b : Byte, gmul a b = gmulCarryless a b) ∧ (∀ s c : Byte, gmul s c = gmulNetwork s c) ∧
  (∀ a : Byte, gmul a 0x02 = xtime a)

/-- R74: the log/antilog form computes `gmul`, each power of `GEN` is `xtime` of the one before, they are all different,
and there is no log of 0. -/
def Obligations.LogTableFormAgrees : Prop :=
  (∀ a b : Byte, gmul a b = gmulLog a b) ∧ expTable 0 = 1 ∧ (∀ i : Nat, expTable (i + 1) = xtime (expTable i)) ∧
  (∀ i < 255, ∀ j < 255, expTable i = expTable j → i = j) ∧ logTable 0 = none ∧ expTable 255 = 1

/-- R75: for `a` not 0, `ginv a` is the one byte whose product with `a` is 1; its other forms; it is an involution. -/
def Obligations.InverseIsUnique : Prop :=
  ginv 1 = 1 ∧ ∀ a : Byte, a ≠ 0 →
    gmul a (ginv a) = 1 ∧ (∀ b : Byte, gmul a b = 1 → b = ginv a) ∧ ginv a = gpow a 254 ∧
    ginvLog a = some (ginv a) ∧ ginv (ginv a) = a

/-- R77: INIT always completes; a second one writes only ERR and ERRINFO. -/
def Obligations.InitCompletes : Prop :=
  ∀ s : State, exec .init s = .next { s with engine := { s.engine with
    status := { s.engine.status with initDone := true, err := 0, errInfo := 0 } } }

/-- R78, R79: the results of GFADD and GFMUL. -/
def Obligations.AddAndMultiplyComplete : Prop :=
  ∀ (s : State) (a b : Byte), s.engine.status.initDone = true →
    exec (.gfadd a b) s = .next { s with engine := { s.engine with
      result := a ^^^ b, status := { s.engine.status with err := 0, errInfo := 0 } } } ∧
    exec (.gfmul a b) s = .next { s with engine := { s.engine with
      result := gmul a b, status := { s.engine.status with err := 0, errInfo := 0 } } }

/-- R75, R80: GFINV of `a` not 0 answers the one byte whose product with `a` is 1. -/
def Obligations.InverseCommandCompletes : Prop :=
  ∀ (s : State) (a : Byte), s.engine.status.initDone = true → a ≠ 0 →
    ∃ r : Byte, gmul a r = 1 ∧ (∀ b, gmul a b = 1 → b = r) ∧
      exec (.gfinv a) s = .next { s with engine := { s.engine with
        result := r, status := { s.engine.status with err := 0, errInfo := 0 } } }

/-- R148: GFINV of 0 reports DOMAIN_ERROR and does nothing else, and no other command ever reports it. -/
def Obligations.OnlyInverseOfZeroIsADomainError : Prop :=
  (∀ s : State, s.engine.status.initDone = true → exec (.gfinv 0) s = .next (s.withError 4 0)) ∧
  (∀ (i : Instr) (s t : State), exec i s = .next t → t.engine.status.err = 4 →
    i = .gfinv 0 ∧ s.engine.status.initDone = true)

/-- R144: before INIT every other command only reports NOT_INIT. -/
def Obligations.NotInitComesFirst : Prop :=
  ∀ (i : Instr) (s : State), i ≠ .init → s.engine.status.initDone = false → exec i s = .next (s.withError 3 0)

/-! ### Cauchy matrix generator (42_cauchy.md) -/

/-- R101: a parity-row coefficient is defined and is not 0, and FINV is never asked for the inverse of 0. -/
def Obligations.ParityCoefficientIsAnInverse : Prop :=
  ∀ k row col : Nat, col < k → k ≤ row → row < 256 →
    BitVec.ofNat 8 row ^^^ BitVec.ofNat 8 col ≠ 0 ∧
    gmul (BitVec.ofNat 8 row ^^^ BitVec.ofNat 8 col) (coef k row col) = 1 ∧ coef k row col ≠ 0

/-- R104: any `k` distinct rows of the generator matrix are linearly independent, so the `k` by `k` submatrix they form is
invertible. -/
def Obligations.AnyKRowsAreIndependent : Prop :=
  ∀ (k : Nat) (rows : Nat → Nat) (v : Nat → Byte), k ≤ 256 → (∀ p < k, rows p < 256) →
    (∀ p < k, ∀ q < k, rows p = rows q → p = q) →
    (∀ p < k, xorSum k (fun i => gmul (coef k (rows p) i) (v i)) = 0) → ∀ i < k, v i = 0

/-- R100, R105: COEF in range answers the coefficient: the identity above, the inverse of `row ^ col` below. -/
def Obligations.CoefCompletes : Prop :=
  ∀ (s : State) (row col : Byte), s.engine.status.initDone = true →
    1 ≤ s.engine.k.toNat → 1 ≤ s.engine.m.toNat → s.engine.k.toNat + s.engine.m.toNat ≤ 256 →
    row.toNat < s.engine.k.toNat + s.engine.m.toNat → col.toNat < s.engine.k.toNat →
    ∃ r : Byte,
      (row.toNat < s.engine.k.toNat → r = if col = row then 1 else 0) ∧
      (s.engine.k.toNat ≤ row.toNat → gmul (row ^^^ col) r = 1) ∧
      exec (.coef row col) s = .next { s with engine := { s.engine with
        result := r, status := { s.engine.status with err := 0, errInfo := 0 } } }

/-- R105, R146: COEF's errors, the first failing check reported. -/
def Obligations.CoefErrorsInOrder : Prop :=
  ∀ (s : State) (row col : Byte), s.engine.status.initDone = true →
    let k := s.engine.k.toNat
    let m := s.engine.m.toNat
    (k = 0 → exec (.coef row col) s = .next (s.withError 1 1)) ∧
    (1 ≤ k → m = 0 → exec (.coef row col) s = .next (s.withError 1 2)) ∧
    (1 ≤ k → 1 ≤ m → 256 < k + m → exec (.coef row col) s = .next (s.withError 1 3)) ∧
    (1 ≤ k → 1 ≤ m → k + m ≤ 256 → (k + m ≤ row.toNat ∨ k ≤ col.toNat) →
      exec (.coef row col) s = .next (s.withError 1 6))

/-! ### Multiply-accumulate (41_mulacc.md, 20_memory.md) -/

/-- R90, R95: MULACC completes: byte `i` of the destination takes the product, nothing else changes. -/
def Obligations.MulaccCompletes : Prop :=
  ∀ (s : State) (c : Byte), MulaccReady s →
    ∃ mem : Memory, exec (.mulacc c) s = .next (State.withOk { s with mem := mem }) ∧
      (∀ i < s.engine.len.toNat, Memory.read mem (s.engine.dst.toNat + i) =
        Memory.read s.mem (s.engine.dst.toNat + i) ^^^ gmul (Memory.read s.mem (s.engine.src.toNat + i)) c) ∧
      (∀ a, ¬ (s.engine.dst.toNat ≤ a ∧ a < s.engine.dst.toNat + s.engine.len.toNat) →
        Memory.read mem a = Memory.read s.mem a)

/-- R96: MULACC with `DST = SRC`. -/
def Obligations.MulaccOntoItself : Prop :=
  ∀ (s : State) (c : Byte), MulaccReady s → s.engine.dst = s.engine.src →
    ∃ t, exec (.mulacc c) s = .next t ∧
      (∀ i < s.engine.len.toNat,
        let d := Memory.read s.mem (s.engine.dst.toNat + i)
        Memory.read t.mem (s.engine.dst.toNat + i) = d ^^^ gmul d c ∧
        Memory.read t.mem (s.engine.dst.toNat + i) = gmul d (c ^^^ 1)) ∧
      (c = 1 → ∀ i < s.engine.len.toNat, Memory.read t.mem (s.engine.dst.toNat + i) = 0) ∧
      (c = 0 → s.memoryKept t)

/-- R91: scalar 1 is a plain XOR, scalar 0 and length 0 change no byte. -/
def Obligations.MulaccSpecialScalars : Prop :=
  ∀ (s : State) (c : Byte), MulaccReady s →
    ∃ t, exec (.mulacc c) s = .next t ∧
      (c = 1 → ∀ i < s.engine.len.toNat, Memory.read t.mem (s.engine.dst.toNat + i) =
        Memory.read s.mem (s.engine.dst.toNat + i) ^^^ Memory.read s.mem (s.engine.src.toNat + i)) ∧
      (c = 0 → s.memoryKept t) ∧ (s.engine.len = 0 → s.memoryKept t)

/-- R92: two passes from a source that is not the destination are one pass with the sum of the scalars, and the same pass
twice restores memory. -/
def Obligations.MulaccPassesAdd : Prop :=
  ∀ (s : State) (c1 c2 : Byte), MulaccReady s → s.engine.dst ≠ s.engine.src →
    ∃ t u v, exec (.mulacc c1) s = .next t ∧ exec (.mulacc c2) t = .next u ∧ exec (.mulacc (c1 ^^^ c2)) s = .next v ∧
      v.memoryKept u ∧ (c1 = c2 → s.memoryKept u)

/-- R37, R95: a buffer of MULACC that would pass the end of memory is reported, with nothing else done. -/
def Obligations.MulaccRangeError : Prop :=
  ∀ (s : State) (c : Byte), s.engine.status.initDone = true →
    (2 ^ 32 < s.engine.src.toNat + s.engine.len.toNat ∨ 2 ^ 32 < s.engine.dst.toNat + s.engine.len.toNat) →
    exec (.mulacc c) s = .next (s.withError 1 5)

/-- R38: a command whose written region meets another of its regions is given no result (MULACC with `DST = SRC` apart).
Where the test stands among the checks is the model's reading (log entry 5). -/
def Obligations.OverlapIsRefused : Prop :=
  ∀ s : State, s.platform = [] →
    (∀ (c : Byte) (a : Nat), s.engine.status.initDone = true → s.engine.dst ≠ s.engine.src →
      s.engine.src.toNat + s.engine.len.toNat ≤ 2 ^ 32 → s.engine.dst.toNat + s.engine.len.toNat ≤ 2 ^ 32 →
      Region.contains ⟨s.engine.dst.toNat, s.engine.len.toNat⟩ a →
      Region.contains ⟨s.engine.src.toNat, s.engine.len.toNat⟩ a →
      exec (.mulacc c) s = .refused .overlappingRegions) ∧
    (∀ j n a : Nat, BlocksReady s.engine (s.engine.rows + s.engine.parityRows) → j < s.engine.parityRows →
      n < s.engine.rows + s.engine.parityRows → n ≠ s.engine.rows + j →
      (s.engine.block (s.engine.rows + j)).contains a → (s.engine.block n).contains a →
      exec .encode s = .refused .overlappingRegions) ∧
    (∀ p q a : Nat, BlocksReady s.engine s.engine.rows → RowsClassified s.engine → p < s.engine.rows →
      s.engine.rows ≤ s.engine.rowOf p → q < s.engine.rows → q ≠ p →
      (s.engine.block p).contains a → (s.engine.block q).contains a →
      exec .decode s = .refused .overlappingRegions)

/-- R35: a command about to access an address where the platform has no memory is refused (U8). How the platform is held
and the order of the stops are the model's choice (log entry 6). -/
def Obligations.AbsentMemoryStopsACommand : Prop :=
  ∀ (s : State) (w : Window) (a : Nat), w ∈ s.platform → w.kind = .absent → w.region.contains a →
    (∀ c : Byte, s.engine.status.initDone = true →
      s.engine.src.toNat + s.engine.len.toNat ≤ 2 ^ 32 → s.engine.dst.toNat + s.engine.len.toNat ≤ 2 ^ 32 →
      (Region.contains ⟨s.engine.dst.toNat, s.engine.len.toNat⟩ a ∨
        Region.contains ⟨s.engine.src.toNat, s.engine.len.toNat⟩ a) →
      exec (.mulacc c) s = .refused .unbackedMemory) ∧
    (∀ n : Nat, BlocksReady s.engine (s.engine.rows + s.engine.parityRows) →
      n < s.engine.rows + s.engine.parityRows → (s.engine.block n).contains a →
      exec .encode s = .refused .unbackedMemory) ∧
    (∀ p q : Nat, BlocksReady s.engine s.engine.rows → RowsClassified s.engine → p < s.engine.rows →
      s.engine.rows ≤ s.engine.rowOf p → q < s.engine.rows → (s.engine.block q).contains a →
      exec .decode s = .refused .unbackedMemory)

/-! ### Encoder (43_encode.md) -/

/-- R111, R113: ENCODE completes: every parity byte is the combination of the data bytes at its offset, and every byte
outside the recovery buffers is unchanged. -/
def Obligations.EncodeComputesParity : Prop :=
  ∀ s : State, EncodeReady s →
    ∃ mem : Memory, exec .encode s = .next (State.withOk { s with mem := mem }) ∧
      (∀ j < s.engine.parityRows, ∀ b < s.engine.blockLen,
        Memory.read mem (s.engine.addrOf (s.engine.rows + j) + b) =
          xorSum s.engine.rows fun i =>
            gmul (coef s.engine.rows (s.engine.rows + j) i) (Memory.read s.mem (s.engine.addrOf i + b))) ∧
      (∀ a, ¬ s.engine.inRecoveryBlock a → Memory.read mem a = Memory.read s.mem a)

/-- R112: the data buffers are unchanged after the command, and what the recovery buffers held before makes no difference
to any byte of memory after it. -/
def Obligations.EncodeIgnoresOldParity : Prop :=
  ∀ (s : State) (mem' : Memory), EncodeReady s →
    (∀ a, ¬ s.engine.inRecoveryBlock a → Memory.read mem' a = Memory.read s.mem a) →
    ∃ t t', exec .encode s = .next t ∧ exec .encode { s with mem := mem' } = .next t' ∧ t.memoryKept t' ∧
      ∀ i < s.engine.rows, ∀ b < s.engine.blockLen,
        Memory.read t.mem (s.engine.addrOf i + b) = Memory.read s.mem (s.engine.addrOf i + b)

/-- R111, R114, R146: ENCODE's errors, the first failing check reported and nothing else done. -/
def Obligations.EncodeErrorsInOrder : Prop :=
  ∀ s : State, s.engine.status.initDone = true →
    let k := s.engine.k.toNat
    let m := s.engine.m.toNat
    let bb := s.engine.blockBytes.toNat
    (k = 0 → exec .encode s = .next (s.withError 1 1)) ∧
    (1 ≤ k → m = 0 → exec .encode s = .next (s.withError 1 2)) ∧
    (1 ≤ k → 1 ≤ m → 256 < k + m → exec .encode s = .next (s.withError 1 3)) ∧
    (1 ≤ k → 1 ≤ m → k + m ≤ 256 → bb = 0 → exec .encode s = .next (s.withError 1 4)) ∧
    (1 ≤ k → 1 ≤ m → k + m ≤ 256 → 1 ≤ bb →
      (∃ n : Fin 256, n.val < k + m ∧ 2 ^ 32 < s.engine.descAddr[n].toNat + bb) →
      exec .encode s = .next (s.withError 1 5))

/-! ### Decoder (44_decode.md) -/

/-- R121, R122, R146: DECODE's errors before any write, the first failing check reported and nothing else done; among the
slots the lowest offending one counts. -/
def Obligations.DecodeErrorsInOrder : Prop :=
  ∀ s : State, s.engine.status.initDone = true →
    let k := s.engine.k.toNat
    let m := s.engine.m.toNat
    let bb := s.engine.blockBytes.toNat
    let row := s.engine.rowOf
    let offends := fun p => k + m ≤ row p ∨ (row p < k ∧ ∃ q < p, row q = row p)
    (k = 0 → exec .decode s = .next (s.withError 1 1)) ∧
    (1 ≤ k → m = 0 → exec .decode s = .next (s.withError 1 2)) ∧
    (1 ≤ k → 1 ≤ m → 256 < k + m → exec .decode s = .next (s.withError 1 3)) ∧
    (1 ≤ k → 1 ≤ m → k + m ≤ 256 → bb = 0 → exec .decode s = .next (s.withError 1 4)) ∧
    (1 ≤ k → 1 ≤ m → k + m ≤ 256 → 1 ≤ bb →
      (∃ n : Fin 256, n.val < k ∧ 2 ^ 32 < s.engine.descAddr[n].toNat + bb) →
      exec .decode s = .next (s.withError 1 5)) ∧
    (BlocksReady s.engine k → ∀ p < k, (∀ q < p, ¬ offends q) →
      (k + m ≤ row p → exec .decode s = .next (s.withError 2 1)) ∧
      ((row p < k ∧ ∃ q < p, row q = row p) → exec .decode s = .next (s.withError 2 2)))

/-- R123: with the `k` distinct original rows in the slots, in any order, DECODE ends with OK and has written nothing; with
all rows original but one of them twice it reports DUP_ORIGINAL. -/
def Obligations.DecodeFastPath : Prop :=
  ∀ s : State, BlocksReady s.engine s.engine.rows → (∀ p < s.engine.rows, s.engine.rowOf p < s.engine.rows) →
    (s.engine.rowsDistinct → exec .decode s = .next s.withOk) ∧
    (¬ s.engine.rowsDistinct → exec .decode s = .next (s.withError 2 2))

/-- R124, R125, R127, R135 (2): one erasure. The buffer of the one parity slot `e` ends holding the missing row `u`: what,
multiplied by `coef(k, row of e, u)`, is the parity bytes less the terms of the rows present. -/
def Obligations.DecodeOneErasureCompletes : Prop :=
  ∀ (s : State) (e u : Nat), DecodeReady s → e < s.engine.rows → s.engine.rows ≤ s.engine.rowOf e →
    (∀ p < s.engine.rows, p ≠ e → s.engine.rowOf p < s.engine.rows) → u < s.engine.rows →
    (∀ p < s.engine.rows, s.engine.rowOf p ≠ u) →
    ∃ t, exec .decode s = .next t ∧ t.engine.status = { s.engine.status with err := 0, errInfo := 0 } ∧
      t.engine.rowOf e = u ∧ (∀ n, n ≠ e → t.engine.rowOf n = s.engine.rowOf n) ∧
      (∀ b < s.engine.blockLen,
        gmul (coef s.engine.rows (s.engine.rowOf e) u) (Memory.read t.mem (s.engine.addrOf e + b)) =
          Memory.read s.mem (s.engine.addrOf e + b) ^^^
            xorSum s.engine.rows fun p => if p = e then 0 else
              gmul (coef s.engine.rows (s.engine.rowOf e) (s.engine.rowOf p))
                (Memory.read s.mem (s.engine.addrOf p + b))) ∧
      (∀ a, ¬ (s.engine.block e).contains a → Memory.read t.mem a = Memory.read s.mem a)

/-- R128 (1) to (3), (5): whenever DECODE ends with OK, from slots that held what their rows say, the slots hold a
permutation of the original rows, each with its true content; the original slots and all other memory are unchanged. -/
def Obligations.DecodeOkRecoversTheRows : Prop :=
  ∀ (s t : State) (d : Nat → Nat → Byte), DecodeReady s → s.slotsHold d → exec .decode s = .next t →
    t.engine.status.err = 0 →
    (∀ p < s.engine.rows, t.engine.rowOf p < s.engine.rows) ∧
    (∀ p < s.engine.rows, ∀ q < s.engine.rows, t.engine.rowOf p = t.engine.rowOf q → p = q) ∧
    (∀ p < s.engine.rows, ∀ b < s.engine.blockLen,
      Memory.read t.mem (s.engine.addrOf p + b) = d (t.engine.rowOf p) b) ∧
    (∀ p < s.engine.rows, s.engine.rowOf p < s.engine.rows → t.engine.rowOf p = s.engine.rowOf p) ∧
    (∀ a, ¬ s.engine.inParityBlock a → Memory.read t.mem a = Memory.read s.mem a)

/-- R131, R132, R128 (4): on every valid instance DECODE completes with OK, every slot then holds the original row its
DESC_ROW names, and the parity slots, in slot order, have received the missing rows in ascending order. -/
def Obligations.DecodeCompletesOnValidInstances : Prop :=
  ∀ (s : State) (d : Nat → Nat → Byte), DecodeReady s → s.engine.rowsDistinct → s.slotsHold d →
    ∃ t, exec .decode s = .next t ∧ t.engine.status = { s.engine.status with err := 0, errInfo := 0 } ∧
      (∀ p < s.engine.rows, t.engine.rowOf p < s.engine.rows) ∧
      (∀ p < s.engine.rows, ∀ q < s.engine.rows, t.engine.rowOf p = t.engine.rowOf q → p = q) ∧
      (∀ p < s.engine.rows, ∀ b < s.engine.blockLen,
        Memory.read t.mem (s.engine.addrOf p + b) = d (t.engine.rowOf p) b) ∧
      (∀ p q, p < q → q < s.engine.rows → s.engine.rows ≤ s.engine.rowOf p → s.engine.rows ≤ s.engine.rowOf q →
        t.engine.rowOf p < t.engine.rowOf q)

/-- R131: the round trip. After ENCODE, any `k` distinct blocks of the `k + m`, put into the slots in any order with their
rows, are decoded to the original data. -/
def Obligations.DecodeOfEncodeRestoresTheData : Prop :=
  ∀ (s t r : State) (block : Nat → Nat), EncodeReady s → exec .encode s = .next t → r.mem = t.mem →
    r.engine.k = s.engine.k → r.engine.m = s.engine.m → r.engine.blockBytes = s.engine.blockBytes →
    (∀ p < s.engine.rows, block p < s.engine.rows + s.engine.parityRows ∧ r.engine.rowOf p = block p ∧
      r.engine.addrOf p = s.engine.addrOf (block p)) →
    (∀ p < s.engine.rows, ∀ q < s.engine.rows, block p = block q → p = q) → DecodeReady r →
    ∃ u, exec .decode r = .next u ∧ u.engine.status.err = 0 ∧
      ∀ p < s.engine.rows, u.engine.rowOf p < s.engine.rows ∧ ∀ b < s.engine.blockLen,
        Memory.read u.mem (r.engine.addrOf p + b) = Memory.read s.mem (s.engine.addrOf (u.engine.rowOf p) + b)

/-- R134: no error correction. One wrong byte of a slot that shares it with no other slot: DECODE still ends with OK; in an
original slot the byte stays wrong and every recovered row is wrong at that offset, in a parity slot some recovered row is;
the other offsets of the recovered rows are unaffected. -/
def Obligations.DecodeDoesNotCorrectErrors : Prop :=
  ∀ (s : State) (mem' : Memory) (p b : Nat), DecodeReady s → s.engine.rowsDistinct →
    p < s.engine.rows → b < s.engine.blockLen →
    (∀ q < s.engine.rows, q ≠ p → ¬ (s.engine.block q).contains (s.engine.addrOf p + b)) →
    Memory.read mem' (s.engine.addrOf p + b) ≠ Memory.read s.mem (s.engine.addrOf p + b) →
    (∀ a, a ≠ s.engine.addrOf p + b → Memory.read mem' a = Memory.read s.mem a) →
    ∃ t t', exec .decode s = .next t ∧ exec .decode { s with mem := mem' } = .next t' ∧
      t.engine.status.err = 0 ∧ t'.engine = t.engine ∧
      (s.engine.rowOf p < s.engine.rows →
        Memory.read t'.mem (s.engine.addrOf p + b) ≠ Memory.read t.mem (s.engine.addrOf p + b) ∧
        ∀ q < s.engine.rows, s.engine.rows ≤ s.engine.rowOf q →
          Memory.read t'.mem (s.engine.addrOf q + b) ≠ Memory.read t.mem (s.engine.addrOf q + b)) ∧
      (s.engine.rows ≤ s.engine.rowOf p →
        ∃ q < s.engine.rows, s.engine.rows ≤ s.engine.rowOf q ∧
          Memory.read t'.mem (s.engine.addrOf q + b) ≠ Memory.read t.mem (s.engine.addrOf q + b)) ∧
      ∀ q < s.engine.rows, s.engine.rows ≤ s.engine.rowOf q → ∀ b' < s.engine.blockLen, b' ≠ b →
        Memory.read t'.mem (s.engine.addrOf q + b') = Memory.read t.mem (s.engine.addrOf q + b')

/-- R132, R135 (5): two parity slots that carry the same row make the system singular. -/
def Obligations.RepeatedParityRowIsSingular : Prop :=
  ∀ (s : State) (p q : Nat), DecodeReady s → p < s.engine.rows → q < s.engine.rows → p ≠ q →
    s.engine.rows ≤ s.engine.rowOf p → s.engine.rowOf q = s.engine.rowOf p →
    ∃ t, exec .decode s = .next t ∧ t.engine = (s.withError 2 3).engine

/-- R129: after SINGULAR the registers but STATUS, and all memory outside the parity-slot buffers, are unchanged; every
byte of those buffers is a free value of its own, never drawn before. The free values and their counter are the model's
own (log entries 7, 15). -/
def Obligations.SingularLeavesFreeBytes : Prop :=
  ∀ s t : State, exec .decode s = .next t → t.engine.status.err = 2 → t.engine.status.errInfo = 3 →
    t.engine = (s.withError 2 3).engine ∧ s.surroundingsKept t ∧
    (∀ a, ¬ s.engine.inParityBlock a → Memory.read t.mem a = Memory.read s.mem a) ∧
    ∃ draw : Nat → Nat,
      (∀ a, s.engine.inParityBlock a → Memory.read t.mem a = Config.freeByte (draw a) ∧
        s.freeNext ≤ draw a ∧ draw a < t.freeNext) ∧
      (∀ a b, s.engine.inParityBlock a → s.engine.inParityBlock b → draw a = draw b → a = b)

/-- R133: how DECODE ends, and the rows it leaves, depend on INIT_DONE, K, M, BLOCK_BYTES and the first `k` descriptors
alone (and on the platform, which the spec takes to be plain memory), never on buffer contents. The platform: log entry
6. -/
def Obligations.DecodeEndIgnoresContents : Prop :=
  ∀ s s' t : State, s'.engine.status.initDone = s.engine.status.initDone → s'.engine.k = s.engine.k →
    s'.engine.m = s.engine.m → s'.engine.blockBytes = s.engine.blockBytes →
    (∀ p < s.engine.rows, s'.engine.addrOf p = s.engine.addrOf p ∧ s'.engine.rowOf p = s.engine.rowOf p) →
    s'.platform = s.platform → exec .decode s = .next t →
    ∃ t', exec .decode s' = .next t' ∧ t'.engine.status.err = t.engine.status.err ∧
      t'.engine.status.errInfo = t.engine.status.errInfo ∧
      ∀ p < s.engine.rows, t'.engine.rowOf p = t.engine.rowOf p

/-! ### Frames -/

/-- INIT, GFADD, GFMUL, GFINV, COEF: everything but STATUS and RESULT is unchanged; RESULT too after an error and after
INIT; INIT_DONE is written by INIT alone (R16, R30, R36). -/
def Obligations.FrameOfScalarCommands : Prop :=
  ∀ (i : Instr) (s t : State),
    (i = .init ∨ (∃ a b, i = .gfadd a b) ∨ (∃ a b, i = .gfmul a b) ∨ (∃ a, i = .gfinv a) ∨ ∃ r c, i = .coef r c) →
    exec i s = .next t →
    s.engine.operandsKept t.engine ∧ t.engine.descRow = s.engine.descRow ∧ s.surroundingsKept t ∧ t.mem = s.mem ∧
    t.freeNext = s.freeNext ∧ (t.engine.status.err ≠ 0 ∨ i = .init → t.engine.result = s.engine.result) ∧
    (i ≠ .init → t.engine.status.initDone = s.engine.status.initDone)

/-- MULACC: only STATUS and the bytes of the destination buffer may change (R36, R95). -/
def Obligations.FrameOfMulacc : Prop :=
  ∀ (c : Byte) (s t : State), exec (.mulacc c) s = .next t →
    s.engine.operandsKept t.engine ∧ t.engine.descRow = s.engine.descRow ∧ t.engine.result = s.engine.result ∧
    t.engine.status.initDone = s.engine.status.initDone ∧ s.surroundingsKept t ∧ t.freeNext = s.freeNext ∧
    ∀ a, ¬ s.engine.dstRegion.contains a → Memory.read t.mem a = Memory.read s.mem a

/-- ENCODE: only STATUS and the bytes of the recovery buffers may change (R36, R111). -/
def Obligations.FrameOfEncode : Prop :=
  ∀ s t : State, exec .encode s = .next t →
    s.engine.operandsKept t.engine ∧ t.engine.descRow = s.engine.descRow ∧ t.engine.result = s.engine.result ∧
    t.engine.status.initDone = s.engine.status.initDone ∧ s.surroundingsKept t ∧ t.freeNext = s.freeNext ∧
    ∀ a, ¬ s.engine.inRecoveryBlock a → Memory.read t.mem a = Memory.read s.mem a

/-- DECODE: only STATUS, the DESC_ROW of parity slots and the bytes of their buffers may change (R36, R121, R127). -/
def Obligations.FrameOfDecode : Prop :=
  ∀ s t : State, exec .decode s = .next t →
    s.engine.operandsKept t.engine ∧ t.engine.result = s.engine.result ∧
    t.engine.status.initDone = s.engine.status.initDone ∧ s.surroundingsKept t ∧
    (∀ n, ¬ (n < s.engine.rows ∧ s.engine.rows ≤ s.engine.rowOf n) → t.engine.rowOf n = s.engine.rowOf n) ∧
    ∀ a, ¬ s.engine.inParityBlock a → Memory.read t.mem a = Memory.read s.mem a

/-! ### The whole machine (10_state.md, 60_exceptions.md) -/

/-- R140, R141: the code and sub-cause of each way a command can end, and that ending it writes nothing but STATUS. -/
def Obligations.FinishWritesTheTable : Prop :=
  (∀ s : State, s.finish .ok = s.withOk ∧
    s.finish (.configError .kZero) = s.withError 1 1 ∧ s.finish (.configError .mZero) = s.withError 1 2 ∧
    s.finish (.configError .kmRange) = s.withError 1 3 ∧ s.finish (.configError .size) = s.withError 1 4 ∧
    s.finish (.configError .addrRange) = s.withError 1 5 ∧ s.finish (.configError .operandRange) = s.withError 1 6 ∧
    s.finish (.decodeError .rowRange) = s.withError 2 1 ∧ s.finish (.decodeError .dupOriginal) = s.withError 2 2 ∧
    s.finish (.decodeError .singular) = s.withError 2 3 ∧ s.finish .notInit = s.withError 3 0 ∧
    s.finish .domainError = s.withError 4 0 ∧ s.finish .illegalCmd = s.withError 5 0)

/-- The invariant holds after reset. That reset memory lists nothing is the model's choice (log entry 2). -/
def Obligations.ResetMeetsTheInvariant : Prop := State.reset.inv

/-- Every step keeps the invariant: memory canonical and inside its space (R30, R31, R37), every STATUS a pair of R140
with ANYERR set if it is an error (R15). The canonical form is the model's own (log entry 2). -/
def Obligations.EveryStepKeepsTheInvariant : Prop := ∀ s t : State, s.inv → step s = .next t → t.inv

/-- R147: what has changed when a command ends with an error. -/
def Obligations.ErrorsLeaveEverythingElse : Prop :=
  ∀ (i : Instr) (s t : State), exec i s = .next t → t.engine.status.err ≠ 0 →
    (¬ (t.engine.status.err = 2 ∧ t.engine.status.errInfo = 3) →
      t = s.withError t.engine.status.err t.engine.status.errInfo) ∧
    ((t.engine.status.err = 2 ∧ t.engine.status.errInfo = 3) →
      t.engine = (s.withError 2 3).engine ∧ s.surroundingsKept t ∧
      ∀ a, ¬ s.engine.inParityBlock a → Memory.read t.mem a = Memory.read s.mem a)

/-- The table of R156, read as what cannot happen: no command ends with a code its row does not mark. -/
def Obligations.EachCommandEndsAsItsRowSays : Prop :=
  ∀ (i : Instr) (s t : State), exec i s = .next t →
    (t.engine.status.err, t.engine.status.errInfo) ∈ (match i with
      | .init => [(0, 0)]
      | .gfadd _ _ => [(0, 0), (3, 0)]
      | .gfmul _ _ => [(0, 0), (3, 0)]
      | .gfinv _ => [(0, 0), (3, 0), (4, 0)]
      | .coef _ _ => [(0, 0), (1, 1), (1, 2), (1, 3), (1, 6), (3, 0)]
      | .mulacc _ => [(0, 0), (1, 5), (3, 0)]
      | .encode => [(0, 0), (1, 1), (1, 2), (1, 3), (1, 4), (1, 5), (3, 0)]
      | .decode => [(0, 0), (1, 1), (1, 2), (1, 3), (1, 4), (1, 5), (2, 1), (2, 2), (2, 3), (3, 0)] :
      List (BitVec 4 × Byte))

/-- R25: no command depends on RESULT, ERR, ERRINFO or ANYERR. From two states alike in the other registers, in memory, in
the platform (log entry 6) and in the counter of free values (log entry 15) it ends alike; the other engines, the pending
operations and `readData` may differ. That memory is alike after SINGULAR too, where U3 says two runs need not agree, rests
on the model's draws: from the same counter it draws the same free bytes (log entries 7, 15). -/
def Obligations.StatusAndResultAreNotInputs : Prop :=
  ∀ (i : Instr) (s s' t : State), s.engine.sameInputs s'.engine → s'.mem = s.mem → s'.platform = s.platform →
    s'.freeNext = s.freeNext → exec i s = .next t →
    ∃ t', exec i s' = .next t' ∧ t'.mem = t.mem ∧ t'.freeNext = t.freeNext ∧ t.engine.sameInputs t'.engine ∧
      t'.engine.status.err = t.engine.status.err ∧ t'.engine.status.errInfo = t.engine.status.errInfo ∧
      (t'.engine.result = t.engine.result ∨
        (t.engine.result = s.engine.result ∧ t'.engine.result = s'.engine.result))

/-- R27: a command neither reads nor changes another engine instance. How the instances stand in State is the model's own
(log entry 10). That memory is equal after SINGULAR too rests on the same draws from the same counter (log entries 7, 15). -/
def Obligations.EnginesShareNothing : Prop :=
  ∀ (i : Instr) (s t : State) (others : List Engine), exec i s = .next t →
    t.others = s.others ∧ exec i { s with others := others } = .next { t with others := others }

/-- R155: over plain memory every command of every state completes, unless its buffers overlap as R38 forbids. The
refusal: log entry 5; the platform: log entry 6. -/
def Obligations.EveryCommandCompletesOrOverlaps : Prop :=
  ∀ (i : Instr) (s : State), s.platform = [] →
    (∃ t, exec i s = .next t) ∨ (s.commandOverlaps i ∧ exec i s = .refused .overlappingRegions)
end

