-- ==== Sys2Proof/Laws/State.lean ====
section
/-! SUPPORT. What each update of the state leaves in each field, true by unfolding the update once. -/

namespace Sys2Proof.Machine

/-- A register's number, with `REGW` written out for `omega` (R12). -/
theorem Word.toNat_lt (w : Word) : w.toNat < 2 ^ 32 := w.isLt

/-- The size of the address space, with `AW` written out (R30). -/
theorem Config.addressLimit_eq : Config.addressLimit = 2 ^ 32 := rfl

/-- The commands' product is the bit-serial one (R72). -/
theorem gmul_eq_gmulSerial (a b : Byte) : gmul a b = gmulSerial a b := rfl

section finish
variable (s : State) (c : Completion)
@[simp] theorem State.finish_others : (s.finish c).others = s.others := rfl
@[simp] theorem State.finish_mem : (s.finish c).mem = s.mem := rfl
@[simp] theorem State.finish_platform : (s.finish c).platform = s.platform := rfl
@[simp] theorem State.finish_pending : (s.finish c).pending = s.pending := rfl
@[simp] theorem State.finish_readData : (s.finish c).readData = s.readData := rfl
@[simp] theorem State.finish_freeNext : (s.finish c).freeNext = s.freeNext := rfl
@[simp] theorem State.finish_status : (s.finish c).engine.status = s.engine.status.complete c := rfl
@[simp] theorem State.finish_result : (s.finish c).engine.result = s.engine.result := rfl
@[simp] theorem State.finish_k : (s.finish c).engine.k = s.engine.k := rfl
@[simp] theorem State.finish_m : (s.finish c).engine.m = s.engine.m := rfl
@[simp] theorem State.finish_blockBytes : (s.finish c).engine.blockBytes = s.engine.blockBytes := rfl
@[simp] theorem State.finish_src : (s.finish c).engine.src = s.engine.src := rfl
@[simp] theorem State.finish_dst : (s.finish c).engine.dst = s.engine.dst := rfl
@[simp] theorem State.finish_len : (s.finish c).engine.len = s.engine.len := rfl
@[simp] theorem State.finish_descAddr : (s.finish c).engine.descAddr = s.engine.descAddr := rfl
@[simp] theorem State.finish_descRow : (s.finish c).engine.descRow = s.engine.descRow := rfl
end finish

section complete
variable (st : Status) (c : Completion)
@[simp] theorem Status.complete_initDone : (st.complete c).initDone = st.initDone := rfl
@[simp] theorem Status.complete_err : (st.complete c).err = c.code := rfl
@[simp] theorem Status.complete_errInfo : (st.complete c).errInfo = c.info := rfl
@[simp] theorem Status.complete_anyErr : (st.complete c).anyErr = (st.anyErr || c.code != 0) := rfl
end complete

section setResult
variable (s : State) (v : Byte)
@[simp] theorem State.setResult_others : (s.setResult v).others = s.others := rfl
@[simp] theorem State.setResult_mem : (s.setResult v).mem = s.mem := rfl
@[simp] theorem State.setResult_platform : (s.setResult v).platform = s.platform := rfl
@[simp] theorem State.setResult_pending : (s.setResult v).pending = s.pending := rfl
@[simp] theorem State.setResult_readData : (s.setResult v).readData = s.readData := rfl
@[simp] theorem State.setResult_freeNext : (s.setResult v).freeNext = s.freeNext := rfl
@[simp] theorem State.setResult_engine : (s.setResult v).engine = { s.engine with result := v } := rfl
end setResult

section setInitDone
variable (s : State)
@[simp] theorem State.setInitDone_others : s.setInitDone.others = s.others := rfl
@[simp] theorem State.setInitDone_mem : s.setInitDone.mem = s.mem := rfl
@[simp] theorem State.setInitDone_platform : s.setInitDone.platform = s.platform := rfl
@[simp] theorem State.setInitDone_pending : s.setInitDone.pending = s.pending := rfl
@[simp] theorem State.setInitDone_readData : s.setInitDone.readData = s.readData := rfl
@[simp] theorem State.setInitDone_freeNext : s.setInitDone.freeNext = s.freeNext := rfl
@[simp] theorem State.setInitDone_engine :
    s.setInitDone.engine = { s.engine with status := { s.engine.status with initDone := true } } := rfl
end setInitDone

section scramble
variable (s : State) (dst n : Nat)
@[simp] theorem State.scramble_engine : (s.scramble dst n).engine = s.engine := rfl
@[simp] theorem State.scramble_others : (s.scramble dst n).others = s.others := rfl
@[simp] theorem State.scramble_mem : (s.scramble dst n).mem = fillFree s.mem dst s.freeNext n := rfl
@[simp] theorem State.scramble_platform : (s.scramble dst n).platform = s.platform := rfl
@[simp] theorem State.scramble_pending : (s.scramble dst n).pending = s.pending := rfl
@[simp] theorem State.scramble_readData : (s.scramble dst n).readData = s.readData := rfl
@[simp] theorem State.scramble_freeNext : (s.scramble dst n).freeNext = s.freeNext + n := rfl
end scramble

section resetEngine
variable (s : State)
@[simp] theorem State.resetEngine_engine : s.resetEngine.engine = Engine.afterReset s.freeNext := rfl
@[simp] theorem State.resetEngine_others : s.resetEngine.others = s.others := rfl
@[simp] theorem State.resetEngine_mem : s.resetEngine.mem = s.mem := rfl
@[simp] theorem State.resetEngine_platform : s.resetEngine.platform = s.platform := rfl
@[simp] theorem State.resetEngine_pending : s.resetEngine.pending = s.pending := rfl
@[simp] theorem State.resetEngine_readData : s.resetEngine.readData = s.readData := rfl
@[simp] theorem State.resetEngine_freeNext : s.resetEngine.freeNext = s.freeNext + Config.nDesc := rfl
end resetEngine

section setRow
variable (e : Engine) (n : Nat) (row : Byte)
@[simp] theorem Engine.setRow_status : (e.setRow n row).status = e.status := rfl
@[simp] theorem Engine.setRow_result : (e.setRow n row).result = e.result := rfl
@[simp] theorem Engine.setRow_k : (e.setRow n row).k = e.k := rfl
@[simp] theorem Engine.setRow_m : (e.setRow n row).m = e.m := rfl
@[simp] theorem Engine.setRow_blockBytes : (e.setRow n row).blockBytes = e.blockBytes := rfl
@[simp] theorem Engine.setRow_src : (e.setRow n row).src = e.src := rfl
@[simp] theorem Engine.setRow_dst : (e.setRow n row).dst = e.dst := rfl
@[simp] theorem Engine.setRow_len : (e.setRow n row).len = e.len := rfl
@[simp] theorem Engine.setRow_descAddr : (e.setRow n row).descAddr = e.descAddr := rfl
/-- After `DESC_ROW[n] <- row` entry `n` holds the row and every other entry its old one. -/
theorem Engine.setRow_rowOf (hn : n < 256) (p : Nat) :
    (e.setRow n row).rowOf p = if p = n then row.toNat else e.rowOf p := by
  unfold Engine.setRow Engine.rowOf
  by_cases h : n = p
  · subst h; simp [hn]
  · simp [h, Ne.symm h]
/-- After `DESC_ROW[n] <- row` every other entry holds its old row. -/
theorem Engine.setRow_rowOf_ne {p : Nat} (h : p ≠ n) : (e.setRow n row).rowOf p = e.rowOf p := by
  unfold Engine.setRow Engine.rowOf
  simp [Ne.symm h]
end setRow

/-- What `writeReg` never changes: `STATUS` and `RESULT` (R22). -/
@[simp] theorem Engine.writeReg_status (e : Engine) (n : Nat) (v : Word) : (e.writeReg n v).status = e.status := by
  unfold Engine.writeReg; repeat' split
  all_goals rfl

@[simp] theorem Engine.writeReg_result (e : Engine) (n : Nat) (v : Word) : (e.writeReg n v).result = e.result := by
  unfold Engine.writeReg; repeat' split
  all_goals rfl

end Sys2Proof.Machine
end

