-- ==== Sys2Proof/Laws/Memory.lean ====
section
/-! SUPPORT. One byte of buffer memory: a write is read back, leaves every other byte, and keeps the canonical form. -/

namespace Sys2Proof.Machine

@[simp] theorem Memory.read_nil (a : Nat) : Memory.read [] a = Config.unlistedByte := rfl

theorem Memory.read_cons (b a : Nat) (v : Byte) (rest : Memory) :
    Memory.read ((b, v) :: rest) a = if a = b then v else Memory.read rest a := rfl

/-- Taking an address out of the list changes what that address reads as, and no other. -/
theorem Memory.read_erase (mem : Memory) (a x : Nat) :
    Memory.read (mem.filter fun c => c.1 != a) x = if x = a then Config.unlistedByte else Memory.read mem x := by
  induction mem with
  | nil => simp
  | cons c rest ih =>
    obtain ⟨b, v⟩ := c
    by_cases hb : b = a
    · simp only [List.filter_cons, hb, bne_self_eq_false, Bool.false_eq_true, if_false, ih, Memory.read_cons]
      split <;> rfl
    · have hne : ((b, v).1 != a) = true := by simpa using hb
      rw [List.filter_cons, if_pos hne, Memory.read_cons, ih, Memory.read_cons]
      by_cases hx : x = b
      · subst hx; simp [hb]
      · simp [hx]

/-- A cell put into a list that does not list its address is what the address reads as. -/
theorem Memory.read_insertCell (mem : Memory) (a x : Nat) (v : Byte) (h : ∀ c ∈ mem, c.1 ≠ a) :
    Memory.read (Memory.insertCell mem a v) x = if x = a then v else Memory.read mem x := by
  induction mem with
  | nil => simp [Memory.insertCell, Memory.read_cons]
  | cons c rest ih =>
    obtain ⟨b, w⟩ := c
    have hb : b ≠ a := h (b, w) (by simp)
    unfold Memory.insertCell
    split
    · rw [Memory.read_cons]
    · rw [Memory.read_cons, ih fun d hd => h d (by simp [hd]), Memory.read_cons]
      by_cases hx : x = b
      · subst hx; simp [hb]
      · simp [hx]

/-- Read after write: the byte written, and every other byte as before (R31, R34). -/
@[simp] theorem Memory.read_write (mem : Memory) (a x : Nat) (v : Byte) :
    Memory.read (Memory.write mem a v) x = if x = a then v else Memory.read mem x := by
  unfold Memory.write
  dsimp only
  split
  · rename_i hv; rw [Memory.read_erase, hv]
  · rw [Memory.read_insertCell _ _ _ _ (by simp), Memory.read_erase]
    split <;> rfl

theorem Memory.mem_insertCell (mem : Memory) (a : Nat) (v : Byte) (c : Host.Cell) :
    c ∈ Memory.insertCell mem a v ↔ c = (a, v) ∨ c ∈ mem := by
  induction mem with
  | nil => simp [Memory.insertCell]
  | cons d rest ih =>
    obtain ⟨b, w⟩ := d
    unfold Memory.insertCell
    split
    · simp
    · simp only [List.mem_cons, ih]; tauto

theorem Memory.insertCell_pairwise (mem : Memory) (a : Nat) (v : Byte) (h : mem.Pairwise fun c d => c.1 < d.1)
    (hne : ∀ c ∈ mem, c.1 ≠ a) : (Memory.insertCell mem a v).Pairwise fun c d => c.1 < d.1 := by
  induction mem with
  | nil => simp [Memory.insertCell]
  | cons d rest ih =>
    obtain ⟨b, w⟩ := d
    have hb : b ≠ a := hne (b, w) (by simp)
    rw [List.pairwise_cons] at h
    unfold Memory.insertCell
    split
    · rename_i hab
      refine List.pairwise_cons.2 ⟨fun c hc => ?_, List.pairwise_cons.2 h⟩
      rcases List.mem_cons.1 hc with rfl | hc
      · exact hab
      · exact Nat.lt_trans hab (h.1 c hc)
    · rename_i hab
      refine List.pairwise_cons.2 ⟨fun c hc => ?_, ih h.2 fun c hc => hne c (by simp [hc])⟩
      rcases (Memory.mem_insertCell _ _ _ _).1 hc with rfl | hc
      · dsimp only; omega
      · exact h.1 c hc

/-- A write keeps the canonical form of memory. -/
theorem Memory.write_wf (mem : Memory) (a : Nat) (v : Byte) (h : Memory.wf mem) : Memory.wf (Memory.write mem a v) := by
  have herased : Memory.wf (mem.filter fun c => c.1 != a) :=
    ⟨h.1.filter _, fun c hc => h.2 c (List.mem_of_mem_filter hc)⟩
  unfold Memory.write
  dsimp only
  split
  · exact herased
  · rename_i hv
    refine ⟨Memory.insertCell_pairwise _ _ _ herased.1 (by simp), fun c hc => ?_⟩
    rcases (Memory.mem_insertCell _ _ _ _).1 hc with rfl | hc
    · exact hv
    · exact herased.2 c hc

/-- A write inside the address space lists nothing outside it. -/
theorem Memory.write_inSpace (mem : Memory) (a : Nat) (v : Byte) (h : Memory.inSpace mem)
    (ha : a < Config.addressLimit) : Memory.inSpace (Memory.write mem a v) := by
  intro c hc
  unfold Memory.write at hc
  dsimp only at hc
  split at hc
  · exact h c (List.mem_of_mem_filter hc)
  · rcases (Memory.mem_insertCell _ _ _ _).1 hc with rfl | hc
    · exact ha
    · exact h c (List.mem_of_mem_filter hc)

/-- In a list with rising addresses, an address below the first one is not listed. -/
theorem Memory.read_below (mem : Memory) (a : Nat) (h : ∀ c ∈ mem, a < c.1) : Memory.read mem a = Config.unlistedByte := by
  induction mem with
  | nil => rfl
  | cons d rest ih =>
    obtain ⟨b, w⟩ := d
    have : a < b := h (b, w) (by simp)
    rw [Memory.read_cons, if_neg (by omega)]
    exact ih fun c hc => h c (by simp [hc])

/-- Equal memories are equal data: two canonical lists that read alike everywhere are the same list. -/
theorem Memory.eq_of_read_eq : ∀ (mem mem' : Memory), Memory.wf mem → Memory.wf mem' →
    (∀ a, Memory.read mem a = Memory.read mem' a) → mem = mem'
  | [], [], _, _, _ => rfl
  | [], (b, w) :: rest, _, h', heq => by
    have := heq b
    rw [Memory.read_nil, Memory.read_cons, if_pos rfl] at this
    exact absurd this.symm (h'.2 (b, w) (by simp))
  | (b, w) :: rest, [], h, _, heq => by
    have := heq b
    rw [Memory.read_nil, Memory.read_cons, if_pos rfl] at this
    exact absurd this (h.2 (b, w) (by simp))
  | (b, w) :: rest, (b', w') :: rest', h, h', heq => by
    obtain ⟨hp, hv⟩ := h
    obtain ⟨hp', hv'⟩ := h'
    rw [List.pairwise_cons] at hp hp'
    have hbb : b = b' := by
      rcases Nat.lt_trichotomy b b' with hlt | heq' | hlt
      · have h1 := heq b
        rw [Memory.read_cons, if_pos rfl, Memory.read_cons, if_neg (by omega),
          Memory.read_below rest' b fun c hc => Nat.lt_trans hlt (hp'.1 c hc)] at h1
        exact absurd h1 (hv (b, w) (by simp))
      · exact heq'
      · have h1 := heq b'
        rw [Memory.read_cons, if_neg (by omega), Memory.read_below rest b' fun c hc => Nat.lt_trans hlt (hp.1 c hc),
          Memory.read_cons, if_pos rfl] at h1
        exact absurd h1.symm (hv' (b', w') (by simp))
    subst hbb
    have hww : w = w' := by
      have h1 := heq b
      rwa [Memory.read_cons, if_pos rfl, Memory.read_cons, if_pos rfl] at h1
    subst hww
    have hrest : rest = rest' := by
      refine Memory.eq_of_read_eq rest rest' ⟨hp.2, fun c hc => hv c (by simp [hc])⟩
        ⟨hp'.2, fun c hc => hv' c (by simp [hc])⟩ fun a => ?_
      by_cases ha : a = b
      · subst ha; rw [Memory.read_below rest a hp.1, Memory.read_below rest' a hp'.1]
      · have h1 := heq a
        rwa [Memory.read_cons, if_neg ha, Memory.read_cons, if_neg ha] at h1
    rw [hrest]

end Sys2Proof.Machine
end

