-- ==== Sys2Proof/Laws/Buffer.lean ====
section
/-! SUPPORT. What each buffer primitive leaves at every address (R90, R93, R94), that it keeps the form of memory,
and folds of such primitives. -/

namespace Sys2Proof.Machine

/-- MulAcc: byte `i` of the destination takes `gmul(source byte i, c)`, everything else stays (R90), when the two buffers
are the same or have no address in common. -/
theorem mulAcc_read (mem : Memory) (dst src : Nat) (c : Byte) (n : Nat)
    (h : dst = src ∨ dst + n ≤ src ∨ src + n ≤ dst) (x : Nat) :
    Memory.read (mulAcc mem dst src c n) x =
      if dst ≤ x ∧ x < dst + n then
        Memory.read mem x ^^^ gmul (Memory.read mem (src + (x - dst))) c
      else Memory.read mem x := by
  induction n generalizing x with
  | zero => rw [if_neg (by omega)]; rfl
  | succ n ih =>
    have ih := ih (by omega)
    unfold mulAcc
    dsimp only
    rw [Memory.read_write]
    by_cases hx : x = dst + n
    · subst hx
      rw [if_pos rfl, if_pos (by omega), ih, if_neg (by omega), ih, if_neg (by omega), Nat.add_sub_cancel_left]
    · rw [if_neg hx, ih]
      by_cases hin : dst ≤ x ∧ x < dst + n
      · rw [if_pos hin, if_pos (by omega)]
      · rw [if_neg hin, if_neg (by omega)]

/-- Scale: every byte of the buffer is multiplied by `c` (R93). -/
theorem scale_read (mem : Memory) (dst : Nat) (c : Byte) (n x : Nat) :
    Memory.read (scale mem dst c n) x =
      if dst ≤ x ∧ x < dst + n then gmul (Memory.read mem x) c else Memory.read mem x := by
  induction n generalizing x with
  | zero => rw [if_neg (by omega)]; rfl
  | succ n ih =>
    unfold scale
    dsimp only
    rw [Memory.read_write]
    by_cases hx : x = dst + n
    · subst hx
      rw [if_pos rfl, if_pos (by omega), ih, if_neg (by omega)]
    · rw [if_neg hx, ih]
      by_cases hin : dst ≤ x ∧ x < dst + n
      · rw [if_pos hin, if_pos (by omega)]
      · rw [if_neg hin, if_neg (by omega)]

/-- Zero: every byte of the buffer is 0 (R94). -/
theorem zero_read (mem : Memory) (dst n x : Nat) :
    Memory.read (zero mem dst n) x = if dst ≤ x ∧ x < dst + n then 0 else Memory.read mem x := by
  induction n generalizing x with
  | zero => rw [if_neg (by omega)]; rfl
  | succ n ih =>
    unfold zero
    rw [Memory.read_write]
    by_cases hx : x = dst + n
    · subst hx
      rw [if_pos rfl, if_pos (by omega)]
    · rw [if_neg hx, ih]
      by_cases hin : dst ≤ x ∧ x < dst + n
      · rw [if_pos hin, if_pos (by omega)]
      · rw [if_neg hin, if_neg (by omega)]

/-- Filling with free bytes: byte `i` of the buffer is the free byte `draw + i`, everything else stays (U3). -/
theorem fillFree_read (mem : Memory) (dst draw n x : Nat) :
    Memory.read (fillFree mem dst draw n) x =
      if dst ≤ x ∧ x < dst + n then Config.freeByte (draw + (x - dst)) else Memory.read mem x := by
  induction n generalizing x with
  | zero => rw [if_neg (by omega)]; rfl
  | succ n ih =>
    unfold fillFree
    rw [Memory.read_write]
    by_cases hx : x = dst + n
    · subst hx
      rw [if_pos rfl, if_pos (by omega), Nat.add_sub_cancel_left]
    · rw [if_neg hx, ih]
      by_cases hin : dst ≤ x ∧ x < dst + n
      · rw [if_pos hin, if_pos (by omega)]
      · rw [if_neg hin, if_neg (by omega)]

/-- The form of memory that every primitive keeps: canonical, and inside the address space. -/
abbrev Memory.ok (mem : Memory) : Prop := Memory.wf mem ∧ Memory.inSpace mem

theorem Memory.write_ok (mem : Memory) (a : Nat) (v : Byte) (h : Memory.ok mem) (ha : a < Config.addressLimit) :
    Memory.ok (Memory.write mem a v) :=
  ⟨Memory.write_wf _ _ _ h.1, Memory.write_inSpace _ _ _ h.2 ha⟩

theorem mulAcc_ok (mem : Memory) (dst src : Nat) (c : Byte) (n : Nat) (h : Memory.ok mem)
    (hr : dst + n ≤ Config.addressLimit) : Memory.ok (mulAcc mem dst src c n) := by
  induction n with
  | zero => exact h
  | succ n ih => exact Memory.write_ok _ _ _ (ih (by omega)) (by omega)

theorem scale_ok (mem : Memory) (dst : Nat) (c : Byte) (n : Nat) (h : Memory.ok mem)
    (hr : dst + n ≤ Config.addressLimit) : Memory.ok (scale mem dst c n) := by
  induction n with
  | zero => exact h
  | succ n ih => exact Memory.write_ok _ _ _ (ih (by omega)) (by omega)

theorem zero_ok (mem : Memory) (dst n : Nat) (h : Memory.ok mem) (hr : dst + n ≤ Config.addressLimit) :
    Memory.ok (zero mem dst n) := by
  induction n with
  | zero => exact h
  | succ n ih => exact Memory.write_ok _ _ _ (ih (by omega)) (by omega)

theorem fillFree_ok (mem : Memory) (dst draw n : Nat) (h : Memory.ok mem) (hr : dst + n ≤ Config.addressLimit) :
    Memory.ok (fillFree mem dst draw n) := by
  induction n with
  | zero => exact h
  | succ n ih => exact Memory.write_ok _ _ _ (ih (by omega)) (by omega)

/-- MulAcc writes its destination buffer and nothing else, whatever overlaps (R36). -/
theorem mulAcc_outside (mem : Memory) (dst src : Nat) (c : Byte) (n x : Nat) (hx : ¬ (dst ≤ x ∧ x < dst + n)) :
    Memory.read (mulAcc mem dst src c n) x = Memory.read mem x := by
  induction n with
  | zero => rfl
  | succ n ih =>
    unfold mulAcc
    dsimp only
    rw [Memory.read_write, if_neg (by omega), ih (by omega)]

/-- A fold over memory that in every round leaves the byte at `x` leaves it. -/
theorem foldl_read_kept {α : Type} (f : Memory → α → Memory) (x : Nat) (l : List α)
    (h : ∀ mem, ∀ y ∈ l, Memory.read (f mem y) x = Memory.read mem x) (mem : Memory) :
    Memory.read (l.foldl f mem) x = Memory.read mem x := by
  induction l generalizing mem with
  | nil => rfl
  | cons y ys ih =>
    rw [List.foldl_cons, ih (fun m z hz => h m z (List.mem_cons_of_mem _ hz)), h mem y List.mem_cons_self]

/-- A fold over memory that in every round keeps the form of memory keeps it. -/
theorem foldl_ok {α : Type} (f : Memory → α → Memory) (l : List α)
    (h : ∀ mem, Memory.ok mem → ∀ y ∈ l, Memory.ok (f mem y)) (mem : Memory) (hm : Memory.ok mem) :
    Memory.ok (l.foldl f mem) := by
  induction l generalizing mem with
  | nil => exact hm
  | cons y ys ih =>
    exact ih (fun m hm z hz => h m hm z (List.mem_cons_of_mem _ hz)) _ (h mem hm y List.mem_cons_self)

@[simp] theorem xorSum_zero (f : Nat → Byte) : xorSum 0 f = 0 := rfl

@[simp] theorem xorSum_succ (n : Nat) (f : Nat → Byte) : xorSum (n + 1) f = xorSum n f ^^^ f n := by
  simp [xorSum, List.range_succ]

theorem xorSum_congr {n : Nat} {f g : Nat → Byte} (h : ∀ i < n, f i = g i) : xorSum n f = xorSum n g := by
  induction n with
  | zero => rfl
  | succ n ih => rw [xorSum_succ, xorSum_succ, ih fun i hi => h i (by omega), h n (by omega)]

/-- Some MulAcc passes into one buffer, from buffers that the passes do not touch: byte `b` takes the sum of the products,
every byte outside the buffer stays. -/
theorem mulAcc_passes_read (dst len : Nat) (src : Nat → Nat) (c : Nat → Byte) (n : Nat) (mem : Memory)
    (h : ∀ i < n, dst + len ≤ src i ∨ src i + len ≤ dst) (x : Nat) :
    Memory.read ((List.range n).foldl (fun mem i => mulAcc mem dst (src i) (c i) len) mem) x =
      if dst ≤ x ∧ x < dst + len then
        Memory.read mem x ^^^ xorSum n fun i => gmul (Memory.read mem (src i + (x - dst))) (c i)
      else Memory.read mem x := by
  induction n generalizing x with
  | zero => simp
  | succ n ih =>
    have ih := ih fun i hi => h i (by omega)
    have hn := h n (by omega)
    rw [List.range_succ, List.foldl_append, List.foldl_cons, List.foldl_nil,
      mulAcc_read _ _ _ _ _ (.inr hn), ih]
    by_cases hx : dst ≤ x ∧ x < dst + len
    · rw [if_pos hx, if_pos hx, if_pos hx, ih, if_neg (by omega), xorSum_succ, BitVec.xor_assoc]
    · rw [if_neg hx, if_neg hx, if_neg hx]

end Sys2Proof.Machine
end

