-- ==== Sys2Proof/Laws/Ops.lean ====
section
/-! SUPPORT. What the shared operations of a command and of the host can do, said once each. -/

namespace Sys2Proof.Machine

/-- Before `INIT` a command only reports `NOT_INIT` (R144). -/
theorem requireInit_before (s : State) (body : Result) (h : s.engine.status.initDone = false) :
    requireInit s body = .next (s.finish .notInit) := by
  simp [requireInit, h, Config.lazyInit]

/-- After `INIT` a command does its own work (R144). -/
theorem requireInit_after (s : State) (body : Result) (h : s.engine.status.initDone = true) :
    requireInit s body = body := by
  simp [requireInit, h]

/-- What a command that needs `INIT_DONE` can end in. -/
theorem requireInit_cases (s : State) (body : Result) :
    (s.engine.status.initDone = false ∧ requireInit s body = .next (s.finish .notInit)) ∨
      (s.engine.status.initDone = true ∧ requireInit s body = body) := by
  cases h : s.engine.status.initDone
  · exact .inl ⟨rfl, requireInit_before s body h⟩
  · exact .inr ⟨rfl, requireInit_after s body h⟩

/-- If work under a contract ends in a next state, it is the work's own state. -/
theorem withContract_next {s t work : State} {written readOnly : List Region}
    (h : withContract s written readOnly work = .next t) : t = work := by
  unfold withContract at h
  repeat' split at h
  all_goals cases h
  rfl

/-- Work whose contract holds is done. -/
theorem withContract_of_contract (s work : State) (written readOnly : List Region)
    (h : s.contract written readOnly = true) : withContract s written readOnly work = .next work := by
  unfold State.contract at h
  unfold withContract
  simp_all

/-- Whatever its work, a contract on the same surroundings gives the same kind of outcome. -/
theorem withContract_eq (s : State) (work : State) (written readOnly : List Region) :
    withContract s written readOnly work =
      (if s.touches .absent (written ++ readOnly) then .refused .unbackedMemory
       else if s.touches .device (written ++ readOnly) then .refused .deviceMemory
       else if regionsDisjoint written readOnly then .next work
       else .refused .overlappingRegions) := rfl

/-- Every pair a completion writes is a pair of R140. -/
theorem Completion.mem_table (c : Completion) : (c.code, c.info) ∈ completionTable := by
  cases c with
  | configError cause => cases cause <;> decide
  | decodeError cause => cases cause <;> decide
  | ok => decide
  | notInit => decide
  | domainError => decide
  | illegalCmd => decide

/-- After `finish` the status is legal, whatever it was (R140, R141). -/
theorem Status.complete_legal (st : Status) (c : Completion) : (st.complete c).legal := by
  refine ⟨by simpa using Completion.mem_table c, fun h => ?_⟩
  have hc : c.code ≠ 0 := h
  rw [Status.complete_anyErr, Bool.or_eq_true]
  exact .inr (bne_iff_ne.2 hc)

/-- Only the code 0 means success (R140). -/
theorem Completion.code_eq_zero (c : Completion) : c.code = 0 ↔ c = .ok := by
  cases c <;> simp [Completion.code]

/-- A write of register 0 is a command, and no other operation is (R11, R14). -/
theorem HostOp.commandWord_eq_some (op : HostOp) (w : Word) : op.commandWord = some w ↔ op = .regWrite 0 w := by
  cases op with
  | regWrite n v =>
    cases n with
    | zero => simp [HostOp.commandWord]
    | succ n => simp [HostOp.commandWord]
  | regRead n => simp [HostOp.commandWord]
  | memWrite a v => simp [HostOp.commandWord]
  | reset => simp [HostOp.commandWord]
  | select n => simp [HostOp.commandWord]

end Sys2Proof.Machine
end

