-- ==== Sys2Proof/Laws/Operands.lean ====
section
/-! SUPPORT. The checks and the contract, in the spec's own terms. -/

namespace Sys2Proof.Machine

/-- The interval test of the machine says that no address lies in both regions (R38). -/
theorem Region.disjoint_iff (r q : Region) : r.disjoint q = true ↔ r.apart q := by
  unfold Region.disjoint Region.apart Region.contains
  simp only [Bool.or_eq_true, beq_iff_eq, decide_eq_true_eq]
  constructor
  · intro h a; omega
  · intro h
    by_contra hn
    have := h (max r.base q.base)
    omega

theorem Region.not_apart_iff (r q : Region) : ¬ r.apart q ↔ r.overlaps q := by
  unfold Region.apart Region.overlaps
  simp only [not_forall, not_not]

theorem Region.apart_comm (r q : Region) (h : r.apart q) : q.apart r := fun a ha => h a ha.symm

/-- A list of plain regions touches no window of the platform. -/
theorem State.touches_eq_false (s : State) (kind : WindowKind) (regions : List Region)
    (h : ∀ r ∈ regions, s.plain r) : s.touches kind regions = false := by
  unfold State.touches
  rw [List.any_eq_false]
  intro w hw
  simp only [Bool.and_eq_true, List.any_eq_true, not_and, not_exists]
  intro _ r hr
  have hplain := h r hr w hw
  have : r.disjoint w.region = true := (Region.disjoint_iff _ _).2 (Region.apart_comm _ _ hplain)
  simp [this]

/-- With no window in the platform every region is plain. -/
theorem State.plain_of_nil (s : State) (r : Region) (h : s.platform = []) : s.plain r := by
  intro w hw; rw [h] at hw; simp at hw

/-- The disjointness of the written regions from all others (R38). -/
theorem regionsDisjoint_iff (written readOnly : List Region) :
    regionsDisjoint written readOnly = true ↔
      written.Pairwise Region.apart ∧ ∀ w ∈ written, ∀ r ∈ readOnly, w.apart r := by
  induction written with
  | nil => simp [regionsDisjoint]
  | cons w ws ih =>
    simp only [regionsDisjoint, Bool.and_eq_true, List.all_eq_true, Region.disjoint_iff, ih, List.pairwise_cons,
      List.mem_cons, forall_eq_or_imp]
    tauto

/-- The contract holds of plain regions of which the written ones are disjoint from all others. -/
theorem State.contract_of (s : State) (written readOnly : List Region)
    (hplain : ∀ r ∈ written ++ readOnly, s.plain r) (hd : regionsDisjoint written readOnly = true) :
    s.contract written readOnly = true := by
  unfold State.contract
  rw [s.touches_eq_false _ _ hplain, s.touches_eq_false _ _ hplain, hd]
  rfl

/-- Over a platform with no window only an overlap keeps a command from its work (R38). -/
theorem withContract_plain (s work : State) (written readOnly : List Region) (h : s.platform = []) :
    withContract s written readOnly work =
      if regionsDisjoint written readOnly then .next work else .refused .overlappingRegions := by
  have hp : ∀ r ∈ written ++ readOnly, s.plain r := fun r _ => s.plain_of_nil r h
  unfold withContract
  simp [s.touches_eq_false _ _ hp]

/-- The checks on `k` and `m` pass exactly when R105 and R111 say so. -/
theorem kmCheck_eq_none (e : Engine) :
    kmCheck e = none ↔ 1 ≤ e.rows ∧ 1 ≤ e.parityRows ∧ e.rows + e.parityRows ≤ 256 := by
  unfold kmCheck Config.kmMax
  repeat' split
  all_goals simp
  all_goals omega

/-- The checks of ENCODE and DECODE pass exactly when R111 and R121 say so; every positive length is a multiple of the
granule 1 (R33). -/
theorem blockCheck_eq_none (e : Engine) (entries : Nat) :
    blockCheck e entries = none ↔
      1 ≤ e.rows ∧ 1 ≤ e.parityRows ∧ e.rows + e.parityRows ≤ 256 ∧ 1 ≤ e.blockLen ∧
        ∀ n < entries, e.addrOf n + e.blockLen ≤ 2 ^ 32 := by
  unfold blockCheck
  split
  · rename_i c hc
    have : ¬ kmCheck e = none := by rw [hc]; simp
    rw [kmCheck_eq_none] at this
    simp only [reduceCtorEq, false_iff]
    tauto
  · rename_i hk
    rw [kmCheck_eq_none] at hk
    have hg : e.blockLen % Config.granule = 0 := Nat.mod_one _
    rw [hg]
    by_cases h0 : e.blockLen = 0
    · simp only [h0, true_or, if_true, reduceCtorEq, false_iff]; omega
    · by_cases hany : ((List.range entries).any fun n => decide (e.addrOf n + e.blockLen > Config.addressLimit)) = true
      · simp only [h0, ne_eq, not_true_eq_false, or_self, if_false, hany, if_true, reduceCtorEq, false_iff]
        simp only [List.any_eq_true, List.mem_range, decide_eq_true_eq] at hany
        obtain ⟨n, hn, hgt⟩ := hany
        intro ⟨_, _, _, _, hall⟩
        exact absurd (hall n hn) (Nat.not_le.2 hgt)
      · have hall : ∀ n < entries, e.addrOf n + e.blockLen ≤ 2 ^ 32 := by
          intro n hn
          by_contra hgt
          refine hany ?_
          simp only [List.any_eq_true, List.mem_range, decide_eq_true_eq]
          exact ⟨n, hn, Nat.not_le.1 hgt⟩
        refine iff_of_true ?_ ⟨hk.1, hk.2.1, hk.2.2, Nat.one_le_iff_ne_zero.2 h0, hall⟩
        rw [if_neg (by omega), if_neg hany]

/-- The check of MULACC passes exactly when R95 says so. -/
theorem mulaccCheck_eq_none (e : Engine) :
    mulaccCheck e = none ↔
      e.src.toNat + e.len.toNat ≤ 2 ^ 32 ∧ e.dst.toNat + e.len.toNat ≤ 2 ^ 32 := by
  unfold mulaccCheck
  rw [Config.addressLimit_eq]
  split <;> simp <;> omega

/-- The checks of COEF pass exactly when R105 says so. -/
theorem coefCheck_eq_none (e : Engine) (row col : Byte) :
    coefCheck e row col = none ↔
      1 ≤ e.rows ∧ 1 ≤ e.parityRows ∧ e.rows + e.parityRows ≤ 256 ∧
        row.toNat < e.rows + e.parityRows ∧ col.toNat < e.rows := by
  unfold coefCheck
  split
  · rename_i c hc
    have : ¬ kmCheck e = none := by rw [hc]; simp
    rw [kmCheck_eq_none] at this
    simp only [reduceCtorEq, false_iff]
    tauto
  · rename_i hk
    rw [kmCheck_eq_none] at hk
    split <;> simp <;> omega

/-- When the configuration is ready the checks find nothing. -/
theorem BlocksReady.blockCheck {e : Engine} {entries : Nat} (h : BlocksReady e entries) : blockCheck e entries = none :=
  (blockCheck_eq_none e entries).2 ⟨h.kPos, h.mPos, h.kmRange, h.size, h.addrRange⟩

/-- MULACC's regions are disjoint unless its two buffers overlap (R38, R96). -/
theorem mulacc_regionsDisjoint (s : State) (c : Byte) (h : ¬ s.commandOverlaps (.mulacc c)) :
    regionsDisjoint [s.engine.dstRegion] s.engine.srcRegions = true := by
  rw [regionsDisjoint_iff]
  refine ⟨by simp, fun w hw r hr => ?_⟩
  rw [List.mem_singleton] at hw
  subst hw
  unfold Engine.srcRegions at hr
  split at hr
  · simp at hr
  · rename_i hne
    rw [List.mem_singleton] at hr
    subst hr
    exact not_not.1 fun hn => h ⟨hne, (Region.not_apart_iff _ _).1 hn⟩

/-- ENCODE's regions are disjoint unless a recovery buffer overlaps another buffer (R38). -/
theorem encode_regionsDisjoint (s : State) (h : ¬ s.commandOverlaps .encode) :
    regionsDisjoint s.engine.recoveryBlocks s.engine.dataBlocks = true := by
  have key : ∀ j n, j < s.engine.parityRows → n < s.engine.rows + s.engine.parityRows → n ≠ s.engine.rows + j →
      (s.engine.block (s.engine.rows + j)).apart (s.engine.block n) := fun j n hj hn hne =>
    not_not.1 fun ha => h ⟨j, n, hj, hn, hne, (Region.not_apart_iff _ _).1 ha⟩
  rw [regionsDisjoint_iff]
  constructor
  · unfold Engine.recoveryBlocks
    rw [List.pairwise_map]
    refine List.Pairwise.imp_of_mem (R := fun i j => i < j) (fun {i j} hi hj hij => ?_) List.pairwise_lt_range
    rw [List.mem_range] at hi hj
    exact key i _ hi (by omega) (by omega)
  · intro w hw r hr
    simp only [Engine.recoveryBlocks, Engine.dataBlocks, List.mem_map, List.mem_range] at hw hr
    obtain ⟨j, hj, rfl⟩ := hw
    obtain ⟨i, hi, rfl⟩ := hr
    exact key j i hj (by omega) (by omega)

/-- DECODE's regions are disjoint unless a parity slot's buffer overlaps another slot's (R38). -/
theorem decode_regionsDisjoint (s : State) (h : ¬ s.commandOverlaps .decode) :
    regionsDisjoint s.engine.parityBlocks s.engine.originalBlocks = true := by
  have key : ∀ p q, p < s.engine.rows → s.engine.rows ≤ s.engine.rowOf p → q < s.engine.rows → q ≠ p →
      (s.engine.block p).apart (s.engine.block q) := fun p q hp hpar hq hne =>
    not_not.1 fun ha => h ⟨p, q, hp, hpar, hq, hne, (Region.not_apart_iff _ _).1 ha⟩
  rw [regionsDisjoint_iff]
  constructor
  · unfold Engine.parityBlocks Engine.paritySlots
    rw [List.pairwise_map]
    refine List.Pairwise.imp_of_mem (R := fun i j => i < j) (fun {i j} hi hj hij => ?_)
      (List.pairwise_lt_range.filter _)
    simp only [List.mem_filter, List.mem_range, decide_eq_true_eq] at hi hj
    exact key i j hi.1 hi.2 hj.1 (by omega)
  · intro w hw r hr
    simp only [Engine.parityBlocks, Engine.originalBlocks, Engine.paritySlots, Engine.originalSlots,
      List.mem_map, List.mem_filter, List.mem_range, decide_eq_true_eq] at hw hr
    obtain ⟨p, ⟨hp, hpar⟩, rfl⟩ := hw
    obtain ⟨q, ⟨hq, horig⟩, rfl⟩ := hr
    exact key p q hp hpar hq (by rintro rfl; omega)

/-- When MULACC is ready its contract holds. -/
theorem MulaccReady.contract {s : State} (h : MulaccReady s) :
    s.contract [s.engine.dstRegion] s.engine.srcRegions = true := by
  refine s.contract_of _ _ (fun r hr => ?_) (mulacc_regionsDisjoint s 0 fun ho => ?_)
  · simp only [List.mem_append, List.mem_singleton] at hr
    rcases hr with rfl | hr
    · exact h.dstPlain
    · unfold Engine.srcRegions at hr
      split at hr
      · simp at hr
      · rw [List.mem_singleton] at hr; subst hr; exact h.srcPlain
  · exact (Region.not_apart_iff _ _).2 ho.2 (h.overlap.resolve_left ho.1)

/-- When ENCODE is ready its contract holds. -/
theorem EncodeReady.contract {s : State} (h : EncodeReady s) :
    s.contract s.engine.recoveryBlocks s.engine.dataBlocks = true := by
  refine s.contract_of _ _ (fun r hr => ?_) (encode_regionsDisjoint s ?_)
  · simp only [Engine.recoveryBlocks, Engine.dataBlocks, List.mem_append, List.mem_map, List.mem_range] at hr
    rcases hr with ⟨j, hj, rfl⟩ | ⟨i, hi, rfl⟩
    · exact h.plain _ (by omega)
    · exact h.plain _ (by omega)
  · rintro ⟨j, n, hj, hn, hne, ho⟩
    exact (Region.not_apart_iff _ _).2 ho (h.overlap j hj n hn hne)

/-- When DECODE is ready its contract holds. -/
theorem DecodeReady.contract {s : State} (h : DecodeReady s) :
    s.contract s.engine.parityBlocks s.engine.originalBlocks = true := by
  refine s.contract_of _ _ (fun r hr => ?_) (decode_regionsDisjoint s ?_)
  · simp only [Engine.parityBlocks, Engine.originalBlocks, Engine.paritySlots, Engine.originalSlots, List.mem_append,
      List.mem_map, List.mem_filter, List.mem_range] at hr
    rcases hr with ⟨p, ⟨hp, _⟩, rfl⟩ | ⟨p, ⟨hp, _⟩, rfl⟩ <;> exact h.plain p hp
  · rintro ⟨p, q, hp, hpar, hq, hne, ho⟩
    exact (Region.not_apart_iff _ _).2 ho (h.overlap p hp hpar q hq hne)

/-- The classification finds nothing exactly when R122 says so. -/
theorem classifyError_eq_none (e : Engine) : classifyError e = none ↔ RowsClassified e := by
  unfold classifyError
  rw [List.findSome?_eq_none_iff]
  simp only [List.mem_range, slotError]
  constructor
  · intro h
    have hr : ∀ p < e.rows, e.rowOf p < e.rows + e.parityRows := by
      intro p hp
      have := h p hp
      by_contra hge
      rw [if_pos (Nat.not_lt.1 hge)] at this
      simp at this
    refine ⟨hr, ?_⟩
    have key : ∀ p < e.rows, e.rowOf p < e.rows → ∀ q < p, e.rowOf q ≠ e.rowOf p := by
      intro p hp hlt q hq heq
      have := h p hp
      rw [if_neg (by have := hr p hp; omega), if_pos ⟨hlt, by
        simp only [List.any_eq_true, List.mem_range, beq_iff_eq]; exact ⟨q, hq, heq⟩⟩] at this
      simp at this
    intro p hp q hq hlt heq
    rcases Nat.lt_trichotomy q p with hqp | hqp | hqp
    · exact absurd heq (key p hp hlt q hqp)
    · exact hqp
    · exact absurd heq.symm (key q hq (by omega) p hqp)
  · intro h p hp
    rw [if_neg (by have := h.rowRange p hp; omega)]
    split
    · rename_i hdup
      simp only [List.any_eq_true, List.mem_range, beq_iff_eq] at hdup
      obtain ⟨hlt, q, hq, heq⟩ := hdup
      have := h.distinctOriginals p hp q (by omega) hlt heq
      omega
    · rfl

/-- The checks of ENCODE and DECODE, passed, make the configuration ready. -/
theorem BlocksReady.of_check {e : Engine} {entries : Nat} (h : e.status.initDone = true)
    (hc : Machine.blockCheck e entries = none) : BlocksReady e entries :=
  have hc := (blockCheck_eq_none e entries).1 hc
  ⟨h, hc.1, hc.2.1, hc.2.2.1, hc.2.2.2.1, hc.2.2.2.2⟩

/-- Over plain memory, the machine's own checks make MULACC ready. -/
theorem MulaccReady.of_checks {s : State} (hp : s.platform = []) (h : s.engine.status.initDone = true)
    (hc : mulaccCheck s.engine = none) (hd : regionsDisjoint [s.engine.dstRegion] s.engine.srcRegions = true) :
    MulaccReady s where
  initDone := h
  srcRange := ((mulaccCheck_eq_none _).1 hc).1
  dstRange := ((mulaccCheck_eq_none _).1 hc).2
  srcPlain := s.plain_of_nil _ hp
  dstPlain := s.plain_of_nil _ hp
  overlap := by
    by_cases heq : s.engine.dst = s.engine.src
    · exact .inl heq
    · refine .inr (((regionsDisjoint_iff _ _).1 hd).2 s.engine.dstRegion (by simp) _ ?_)
      simp [Engine.srcRegions, heq]

/-- Over plain memory, the machine's own checks make ENCODE ready. -/
theorem EncodeReady.of_checks {s : State} (hp : s.platform = []) (h : s.engine.status.initDone = true)
    (hc : Machine.blockCheck s.engine (s.engine.rows + s.engine.parityRows) = none)
    (hd : regionsDisjoint s.engine.recoveryBlocks s.engine.dataBlocks = true) : EncodeReady s where
  checks := .of_check h hc
  plain _ _ := s.plain_of_nil _ hp
  overlap j hj n hn hne := by
    obtain ⟨hpair, hcross⟩ := (regionsDisjoint_iff _ _).1 hd
    have hmem : ∀ i < s.engine.parityRows, s.engine.block (s.engine.rows + i) ∈ s.engine.recoveryBlocks := fun i hi =>
      List.mem_map.2 ⟨i, List.mem_range.2 hi, rfl⟩
    by_cases hk : n < s.engine.rows
    · exact hcross _ (hmem j hj) _ (List.mem_map.2 ⟨n, List.mem_range.2 hk, rfl⟩)
    · obtain ⟨i, rfl⟩ : ∃ i, n = s.engine.rows + i := ⟨n - s.engine.rows, by omega⟩
      unfold Engine.recoveryBlocks at hpair
      rw [List.pairwise_map, List.pairwise_iff_getElem] at hpair
      rcases Nat.lt_or_ge j i with hji | hij
      · have := hpair j i (by simpa using hj) (by simp; omega) hji
        simpa using this
      · have := hpair i j (by simp; omega) (by simpa using hj) (by omega)
        exact Region.apart_comm _ _ (by simpa using this)

/-- Over plain memory, the machine's own checks make DECODE ready. -/
theorem DecodeReady.of_checks {s : State} (hp : s.platform = []) (h : s.engine.status.initDone = true)
    (hc : Machine.blockCheck s.engine s.engine.rows = none) (hcl : classifyError s.engine = none)
    (hd : regionsDisjoint s.engine.parityBlocks s.engine.originalBlocks = true) : DecodeReady s where
  checks := .of_check h hc
  classified := (classifyError_eq_none _).1 hcl
  plain _ _ := s.plain_of_nil _ hp
  overlap p hpk hpar q hq hne := by
    obtain ⟨hpair, hcross⟩ := (regionsDisjoint_iff _ _).1 hd
    have hmem : ∀ r, r < s.engine.rows → s.engine.rows ≤ s.engine.rowOf r → r ∈ s.engine.paritySlots := fun r hr hge => by
      simp [Engine.paritySlots, hr, hge]
    by_cases hk : s.engine.rowOf q < s.engine.rows
    · exact hcross _ (List.mem_map_of_mem (hmem p hpk hpar)) _
        (List.mem_map_of_mem (by simp [Engine.originalSlots, hq, hk]))
    · have hsorted : s.engine.paritySlots.Pairwise (· < ·) := List.pairwise_lt_range.filter _
      unfold Engine.parityBlocks at hpair
      rw [List.pairwise_map] at hpair
      have key : ∀ a ∈ s.engine.paritySlots, ∀ b ∈ s.engine.paritySlots, a < b →
          (s.engine.block a).apart (s.engine.block b) := by
        intro a ha b hb hab
        obtain ⟨i, hi, rfl⟩ := List.getElem_of_mem ha
        obtain ⟨j, hj, rfl⟩ := List.getElem_of_mem hb
        rcases Nat.lt_trichotomy i j with hij | hij | hij
        · exact List.pairwise_iff_getElem.1 hpair i j hi hj hij
        · subst hij; omega
        · have := List.pairwise_iff_getElem.1 hsorted j i hj hi hij; omega
      rcases Nat.lt_or_ge p q with hpq | hqp
      · exact key p (hmem p hpk hpar) q (hmem q hq (by omega)) hpq
      · exact Region.apart_comm _ _ (key q (hmem q hq (by omega)) p (hmem p hpk hpar) (by omega))

end Sys2Proof.Machine
end

