-- ==== Sys2Proof/Laws/Encoder.lean ====
section
/-! SUPPORT. What the passes of ENCODE leave at every address. -/

namespace Sys2Proof.Machine

/-- One parity block of ENCODE (R111): byte `b` of its buffer is the sum of the products, every other byte stays. -/
theorem encodeRow_read (e : Engine) (mem : Memory) (j x : Nat)
    (h : ∀ i < e.rows, e.addrOf (e.rows + j) + e.blockLen ≤ e.addrOf i ∨
      e.addrOf i + e.blockLen ≤ e.addrOf (e.rows + j)) :
    Memory.read (encodeRow e mem j) x =
      if (e.block (e.rows + j)).contains x then
        xorSum e.rows fun i =>
          gmul (Memory.read mem (e.addrOf i + (x - e.addrOf (e.rows + j)))) (coef e.rows (e.rows + j) i)
      else Memory.read mem x := by
  unfold encodeRow
  rw [mulAcc_passes_read (e.addrOf (e.rows + j)) e.blockLen e.addrOf _ e.rows _ h, zero_read]
  by_cases hx : (e.block (e.rows + j)).contains x
  · have hx' : e.addrOf (e.rows + j) ≤ x ∧ x < e.addrOf (e.rows + j) + e.blockLen := hx
    rw [if_pos hx', if_pos hx', if_pos hx]
    refine BitVec.zero_xor.trans (xorSum_congr fun i hi => ?_)
    rw [zero_read, if_neg]
    have := h i hi
    omega
  · have hx' : ¬ (e.addrOf (e.rows + j) ≤ x ∧ x < e.addrOf (e.rows + j) + e.blockLen) := hx
    rw [if_neg hx', if_neg hx', if_neg hx]

/-- ENCODE's passes write the recovery buffers and nothing else (R36), whatever overlaps. -/
theorem encodeBlocks_outside (e : Engine) (mem : Memory) (x : Nat) (hx : ¬ e.inRecoveryBlock x) :
    Memory.read (encodeBlocks e mem) x = Memory.read mem x := by
  refine foldl_read_kept _ x _ (fun m j hj => ?_) mem
  rw [List.mem_range] at hj
  have hne : ¬ (e.addrOf (e.rows + j) ≤ x ∧ x < e.addrOf (e.rows + j) + e.blockLen) := fun hc => hx ⟨j, hj, hc⟩
  unfold encodeRow
  rw [foldl_read_kept _ x _ fun m i _ => mulAcc_outside m _ _ _ _ _ hne, zero_read, if_neg hne]

/-- ENCODE's passes keep the form of memory, its buffers lying in the address space (R37). -/
theorem encodeBlocks_ok (e : Engine) (mem : Memory) (h : Memory.ok mem)
    (hr : ∀ j < e.parityRows, e.addrOf (e.rows + j) + e.blockLen ≤ 2 ^ 32) : Memory.ok (encodeBlocks e mem) := by
  refine foldl_ok _ _ (fun m hm j hj => ?_) mem h
  rw [List.mem_range] at hj
  exact foldl_ok _ _ (fun m hm i _ => mulAcc_ok _ _ _ _ _ hm (hr j hj)) _ (zero_ok _ _ _ hm (hr j hj))

end Sys2Proof.Machine
end

