-- ==== Sys2Proof/Laws/Solver.lean ====
section
/-! SUPPORT. What the phases of DECODE can do: which bytes they may write, that they keep the form of memory, that the
matrix, the pivots and the outcome never depend on memory (R133), and what the row rewrite leaves (R127). -/

namespace Sys2Proof.Machine

/-- A slot is a parity slot exactly when it is below `k` and carries a row at or above `k` (R120). -/
theorem Engine.mem_paritySlots (e : Engine) (p : Nat) : p ∈ e.paritySlots ↔ p < e.rows ∧ e.rows ≤ e.rowOf p := by
  simp [Engine.paritySlots]

theorem Engine.mem_originalSlots (e : Engine) (p : Nat) : p ∈ e.originalSlots ↔ p < e.rows ∧ e.rowOf p < e.rows := by
  simp [Engine.originalSlots]

theorem Engine.mem_missingRows (e : Engine) (r : Nat) :
    r ∈ e.missingRows ↔ r < e.rows ∧ ∀ p < e.rows, e.rowOf p ≠ r := by
  simp [Engine.missingRows]

/-- `E[t]` is a parity slot. -/
theorem Engine.paritySlot_getD (e : Engine) (t : Nat) (ht : t < e.paritySlots.length) :
    e.paritySlots.getD t 0 ∈ e.paritySlots := by
  rw [List.getD_eq_getElem _ _ ht]
  exact List.getElem_mem ht

/-- Outside the parity-slot buffers lies outside the buffer of `E[t]`. -/
theorem Engine.outside_parityAddr (e : Engine) (t x : Nat) (ht : t < e.paritySlots.length) (hx : ¬ e.inParityBlock x) :
    ¬ (e.parityAddr t ≤ x ∧ x < e.parityAddr t + e.blockLen) := fun hc =>
  have hm := (e.mem_paritySlots _).1 (e.paritySlot_getD t ht)
  hx ⟨_, hm.1, hm.2, hc⟩

/-- Cancelling writes parity-slot buffers only (R124, R36). -/
theorem cancelKnown_outside (e : Engine) (mem : Memory) (x : Nat) (hx : ¬ e.inParityBlock x) :
    Memory.read (cancelKnown e mem) x = Memory.read mem x := by
  refine foldl_read_kept _ x _ (fun m slot hslot => ?_) mem
  have hm := (e.mem_paritySlots slot).1 hslot
  exact foldl_read_kept _ x _ (fun m p _ => mulAcc_outside m _ _ _ _ _ fun hc => hx ⟨slot, hm.1, hm.2, hc⟩) m

theorem cancelKnown_ok (e : Engine) (mem : Memory) (h : Memory.ok mem)
    (hr : ∀ p < e.rows, e.addrOf p + e.blockLen ≤ 2 ^ 32) : Memory.ok (cancelKnown e mem) := by
  refine foldl_ok _ _ (fun m hm slot hslot => ?_) mem h
  have hs := (e.mem_paritySlots slot).1 hslot
  exact foldl_ok _ _ (fun m hm p _ => mulAcc_ok _ _ _ _ _ hm (hr slot hs.1)) m hm

/-- What a solver's memory keeps from the start of DECODE: the bytes outside the parity-slot buffers, and the form. -/
structure Solver.keeps (e : Engine) (mem : Memory) (z : Solver) : Prop where
  outside : ∀ x, ¬ e.inParityBlock x → Memory.read z.mem x = Memory.read mem x
  ok : Memory.ok mem → (∀ p < e.rows, e.addrOf p + e.blockLen ≤ 2 ^ 32) → Memory.ok z.mem

theorem Engine.parityAddr_range (e : Engine) (t : Nat) (ht : t < e.paritySlots.length)
    (hr : ∀ p < e.rows, e.addrOf p + e.blockLen ≤ 2 ^ 32) : e.parityAddr t + e.blockLen ≤ 2 ^ 32 :=
  hr _ ((e.mem_paritySlots _).1 (e.paritySlot_getD t ht)).1

theorem Solver.scaleRow_keeps {e : Engine} {mem : Memory} {z : Solver} (h : Solver.keeps e mem z) (t : Nat) (g : Byte)
    (ht : t < e.paritySlots.length) : Solver.keeps e mem (Solver.scaleRow e z t g) where
  outside x hx := by
    have := scale_read z.mem (e.parityAddr t) g e.blockLen x
    rw [if_neg (e.outside_parityAddr t x ht hx)] at this
    exact this.trans (h.outside x hx)
  ok hm hr := scale_ok _ _ _ _ (h.ok hm hr) (e.parityAddr_range t ht hr)

theorem Solver.cancelEntry_keeps {e : Engine} {mem : Memory} {z : Solver} (h : Solver.keeps e mem z) (u t t2 : Nat)
    (ht2 : t2 < e.paritySlots.length) : Solver.keeps e mem (Solver.cancelEntry e u t z t2) where
  outside x hx := (mulAcc_outside z.mem _ _ _ _ x (e.outside_parityAddr t2 x ht2 hx)).trans (h.outside x hx)
  ok hm hr := mulAcc_ok _ _ _ _ _ (h.ok hm hr) (e.parityAddr_range t2 ht2 hr)

/-- A fold of solver rounds, each keeping a property, keeps it. -/
theorem foldl_keeps {α β : Type} (P : β → Prop) (f : β → α → β) (l : List α)
    (h : ∀ z, P z → ∀ y ∈ l, P (f z y)) (z : β) (hz : P z) : P (l.foldl f z) := by
  induction l generalizing z with
  | nil => exact hz
  | cons y ys ih => exact ih (fun z hz w hw => h z hz w (List.mem_cons_of_mem _ hw)) _ (h z hz y List.mem_cons_self)

/-- The pivot found is an unused row with a non-zero entry, the first one (R125). -/
theorem Solver.pivot_eq_some {z : Solver} {n u t : Nat} (h : z.pivot n u = some t) :
    t < n ∧ z.used.getD t true = false ∧ z.entry t u ≠ 0 := by
  have hp := List.find?_some h
  have hm := List.mem_of_find?_eq_some h
  simp only [Bool.and_eq_true, Bool.not_eq_true', bne_iff_ne] at hp
  exact ⟨List.mem_range.1 hm, hp.1, hp.2⟩

theorem forwardStep_keeps {e : Engine} {mem : Memory} {z z' : Solver} {u : Nat} (h : Solver.keeps e mem z)
    (hz : forwardStep e e.paritySlots.length z u = some z') : Solver.keeps e mem z' := by
  unfold forwardStep at hz
  split at hz
  · cases hz
  · rename_i t ht
    have htn := (Solver.pivot_eq_some ht).1
    simp only [Option.some.injEq] at hz
    subst hz
    have hmarked : Solver.keeps e mem { z with used := z.used.set t true, piv := z.piv ++ [t] } := ⟨h.1, h.2⟩
    refine foldl_keeps (Solver.keeps e mem) _ _ (fun w hw t2 ht2 => ?_) _ (Solver.scaleRow_keeps hmarked t _ htn)
    split
    · exact Solver.cancelEntry_keeps hw _ _ _ (List.mem_range.1 ht2)
    · exact hw

/-- The pivots of a solver are rows of its matrix. -/
def Solver.pivotsBelow (n : Nat) (z : Solver) : Prop := ∀ t ∈ z.piv, t < n

theorem Solver.cancelEntry_piv (e : Engine) (u t : Nat) (z : Solver) (t2 : Nat) :
    (Solver.cancelEntry e u t z t2).piv = z.piv := rfl

/-- One column of forward elimination adds one pivot to the map and, when it fails, says there is none to be had (R125). -/
theorem forwardStep_piv {e : Engine} {n : Nat} {z z' : Solver} {u : Nat} (hz : forwardStep e n z u = some z') :
    ∃ t, z.pivot n u = some t ∧ z'.piv = z.piv ++ [t] := by
  unfold forwardStep at hz
  split at hz
  · cases hz
  · rename_i t ht
    simp only [Option.some.injEq] at hz
    subst hz
    refine ⟨t, ht, foldl_keeps (fun w : Solver => w.piv = z.piv ++ [t]) _ _ (fun w hw t2 _ => ?_) _ rfl⟩
    split
    · exact hw
    · exact hw

/-- Forward elimination, when it succeeds, keeps what lies outside and has found a pivot for each of its columns. -/
theorem forwardFold_keeps {e : Engine} {mem : Memory} (l : List Nat) {z z' : Solver} (h : Solver.keeps e mem z)
    (hp : Solver.pivotsBelow e.paritySlots.length z)
    (hz : l.foldlM (forwardStep e e.paritySlots.length) z = some z') :
    Solver.keeps e mem z' ∧ Solver.pivotsBelow e.paritySlots.length z' ∧ z'.piv.length = z.piv.length + l.length := by
  induction l generalizing z with
  | nil =>
    simp only [List.foldlM_nil, Option.pure_def, Option.some.injEq] at hz
    subst hz
    exact ⟨h, hp, rfl⟩
  | cons u us ih =>
    rw [List.foldlM_cons, Option.bind_eq_bind, Option.bind_eq_some_iff] at hz
    obtain ⟨w, hw, hz⟩ := hz
    obtain ⟨t, ht, hpiv⟩ := forwardStep_piv hw
    have hb : Solver.pivotsBelow e.paritySlots.length w := by
      intro r hr
      rw [hpiv, List.mem_append, List.mem_singleton] at hr
      rcases hr with hr | rfl
      · exact hp r hr
      · exact (Solver.pivot_eq_some ht).1
    obtain ⟨h1, h2, h3⟩ := ih (forwardStep_keeps h hw) hb hz
    refine ⟨h1, h2, ?_⟩
    rw [h3, hpiv]
    simp only [List.length_append, List.length_cons, List.length_nil]
    omega

theorem backSubstitute_keeps {e : Engine} {mem : Memory} {z : Solver} (n : Nat) (h : Solver.keeps e mem z)
    (hp : Solver.pivotsBelow e.paritySlots.length z) (hl : n ≤ z.piv.length) :
    Solver.keeps e mem (backSubstitute e n z) ∧ (backSubstitute e n z).piv = z.piv := by
  refine foldl_keeps (fun w => Solver.keeps e mem w ∧ w.piv = z.piv) _ _ (fun w hw u hu => ?_) z ⟨h, rfl⟩
  rw [List.mem_reverse, List.mem_range] at hu
  refine foldl_keeps (fun w => Solver.keeps e mem w ∧ w.piv = z.piv) _ _ (fun w hw u2 hu2 => ?_) w hw
  rw [List.mem_range] at hu2
  split
  · refine ⟨Solver.cancelEntry_keeps hw.1 _ _ _ ?_, hw.2⟩
    rw [hw.2, List.getD_eq_getElem _ _ (by omega)]
    exact hp _ (List.getElem_mem _)
  · exact hw

/-- Everything a successful solution leaves outside its own buffers, and its pivot map (R36, R125). -/
theorem solve_keeps {e : Engine} {mem : Memory} {z : Solver} (h : solve e mem = some z) :
    Solver.keeps e mem z ∧ Solver.pivotsBelow e.paritySlots.length z ∧ z.piv.length = e.paritySlots.length := by
  unfold solve at h
  rw [Option.map_eq_some_iff] at h
  obtain ⟨w, hw, rfl⟩ := h
  obtain ⟨h1, h2, h3⟩ := forwardFold_keeps (mem := mem) (z := initialSolver e mem) _
    ⟨cancelKnown_outside e mem, cancelKnown_ok e mem⟩ (fun t ht => absurd ht (by simp [initialSolver])) hw
  have hlen : w.piv.length = e.paritySlots.length := by simpa [initialSolver] using h3
  obtain ⟨h4, h5⟩ := backSubstitute_keeps e.paritySlots.length h1 h2 (Nat.le_of_eq hlen.symm)
  exact ⟨h4, by rw [Solver.pivotsBelow, h5]; exact h2, by rw [h5]; exact hlen⟩

/-- Two solvers alike in all but memory. -/
def Solver.sameMatrix (z z' : Solver) : Prop := z'.mat = z.mat ∧ z'.used = z.used ∧ z'.piv = z.piv

theorem Solver.sameMatrix.entry {z z' : Solver} (h : z.sameMatrix z') (t u : Nat) : z'.entry t u = z.entry t u := by
  unfold Solver.entry Solver.row; rw [h.1]

theorem Solver.sameMatrix.cancelEntry {z z' : Solver} (h : z.sameMatrix z') (e : Engine) (u t t2 : Nat) :
    (Solver.cancelEntry e u t z t2).sameMatrix (Solver.cancelEntry e u t z' t2) := by
  refine ⟨?_, h.2.1, h.2.2⟩
  simp only [Solver.cancelEntry, h.entry, Solver.row, h.1]

/-- A fold of rounds that treat like solvers alike treats them alike. -/
theorem foldl_sameMatrix (f : Solver → Nat → Solver)
    (h : ∀ z z' : Solver, z.sameMatrix z' → ∀ y, (f z y).sameMatrix (f z' y)) (l : List Nat) {z z' : Solver}
    (hz : z.sameMatrix z') : (l.foldl f z).sameMatrix (l.foldl f z') := by
  induction l generalizing z z' with
  | nil => exact hz
  | cons y ys ih => exact ih (h z z' hz y)

theorem forwardStep_sameMatrix (e : Engine) (n u : Nat) {z z' : Solver} (h : z.sameMatrix z') :
    (forwardStep e n z u = none ∧ forwardStep e n z' u = none) ∨
      ∃ w w', forwardStep e n z u = some w ∧ forwardStep e n z' u = some w' ∧ w.sameMatrix w' := by
  have hp : z'.pivot n u = z.pivot n u := by
    unfold Solver.pivot; rw [h.2.1]; simp only [h.entry]
  unfold forwardStep
  rw [hp]
  cases hpv : z.pivot n u with
  | none => exact .inl ⟨rfl, rfl⟩
  | some t =>
    refine .inr ⟨_, _, rfl, rfl, foldl_sameMatrix _ (fun w w' hw t2 => ?_) _ ?_⟩
    · rw [hw.2.1, hw.entry]
      split
      · exact hw.cancelEntry e u t t2
      · exact hw
    · refine ⟨?_, ?_, ?_⟩
      · simp only [Solver.scaleRow, Solver.row, h.1, h.entry]
      · simp only [Solver.scaleRow, h.2.1]
      · simp only [Solver.scaleRow, h.2.2]

theorem forwardFold_sameMatrix (e : Engine) (n : Nat) (l : List Nat) {z z' : Solver} (h : z.sameMatrix z') :
    (l.foldlM (forwardStep e n) z = none ∧ l.foldlM (forwardStep e n) z' = none) ∨
      ∃ w w', l.foldlM (forwardStep e n) z = some w ∧ l.foldlM (forwardStep e n) z' = some w' ∧ w.sameMatrix w' := by
  induction l generalizing z z' with
  | nil => exact .inr ⟨z, z', rfl, rfl, h⟩
  | cons u us ih =>
    rw [List.foldlM_cons, List.foldlM_cons]
    rcases forwardStep_sameMatrix e n u h with ⟨h1, h2⟩ | ⟨w, w', h1, h2, hw⟩
    · exact .inl ⟨by rw [h1]; rfl, by rw [h2]; rfl⟩
    · rw [h1, h2]
      exact ih hw

/-- The elimination never depends on memory: it fails for all memories or for none, and its pivots are the same (R133). -/
theorem solve_sameMatrix (e : Engine) (mem mem' : Memory) :
    (solve e mem = none ∧ solve e mem' = none) ∨
      ∃ z z', solve e mem = some z ∧ solve e mem' = some z' ∧ z.sameMatrix z' := by
  unfold solve
  rcases forwardFold_sameMatrix e e.paritySlots.length (List.range e.paritySlots.length)
      (z := initialSolver e mem) (z' := initialSolver e mem') ⟨rfl, rfl, rfl⟩ with ⟨h1, h2⟩ | ⟨w, w', h1, h2, hw⟩
  · exact .inl ⟨by unfold forwardEliminate; rw [h1]; rfl, by unfold forwardEliminate; rw [h2]; rfl⟩
  · refine .inr ⟨_, _, by unfold forwardEliminate; rw [h1]; rfl, by unfold forwardEliminate; rw [h2]; rfl, ?_⟩
    refine foldl_sameMatrix _ (fun v v' hv u => ?_) _ hw
    refine foldl_sameMatrix _ (fun v v' hv u2 => ?_) _ hv
    rw [hv.entry, hv.2.2]
    split
    · exact hv.cancelEntry e u _ _
    · exact hv

/-- Two engines alike in all but the DESC_ROW of parity slots. -/
def Engine.rewritten (e e' : Engine) : Prop :=
  { e' with descRow := e.descRow } = e ∧ ∀ n, n ∉ e.paritySlots → e'.rowOf n = e.rowOf n

/-- The row rewrite changes DESC_ROW entries of parity slots and nothing else (R127). -/
theorem rewriteRows_keeps (e : Engine) (piv : List Nat) (hp : ∀ t ∈ piv, t < e.paritySlots.length) :
    e.rewritten (rewriteRows e piv) := by
  unfold rewriteRows
  refine foldl_keeps e.rewritten _ _ ?_ e ⟨rfl, fun _ _ => rfl⟩
  intro w hw u hu
  refine ⟨hw.1, fun n hn => ?_⟩
  rw [← hw.2 n hn]
  rw [List.mem_range] at hu
  have hne : e.paritySlots.getD (piv.getD u 0) 0 ≠ n := by
    rintro rfl
    refine hn (e.paritySlot_getD _ ?_)
    rw [List.getD_eq_getElem _ _ hu]
    exact hp _ (List.getElem_mem hu)
  exact Engine.setRow_rowOf_ne w _ _ hne.symm

end Sys2Proof.Machine
end

