-- ==== Sys2Proof/Laws/Commands.lean ====
section
/-! SUPPORT. Which state the buffer commands answer when they are ready, and when DECODE takes its fast path. -/

namespace Sys2Proof.Machine

theorem exec_mulacc_ready {s : State} (h : MulaccReady s) (c : Byte) :
    exec (.mulacc c) s = .next ({ s with
      mem := mulAcc s.mem s.engine.dst.toNat s.engine.src.toNat c s.engine.len.toNat }.finish .ok) := by
  show execMulacc c s = _
  unfold execMulacc
  rw [requireInit_after _ _ h.initDone, (mulaccCheck_eq_none _).2 ⟨h.srcRange, h.dstRange⟩]
  exact withContract_of_contract _ _ _ _ h.contract

theorem exec_encode_ready {s : State} (h : EncodeReady s) :
    exec .encode s = .next ({ s with mem := encodeBlocks s.engine s.mem }.finish .ok) := by
  show execEncode s = _
  unfold execEncode
  rw [requireInit_after _ _ h.checks.initDone, h.checks.blockCheck]
  exact withContract_of_contract _ _ _ _ h.contract

/-- DECODE with parity slots runs the solver. -/
theorem exec_decode_ready {s : State} (h : DecodeReady s) (hne : s.engine.paritySlots ≠ []) :
    exec .decode s = .next (decodeOutcome s) := by
  show execDecode s = _
  unfold execDecode
  rw [requireInit_after _ _ h.checks.initDone, h.checks.blockCheck, (classifyError_eq_none _).2 h.classified]
  dsimp only
  rw [if_neg hne]
  exact withContract_of_contract _ _ _ _ h.contract

/-- DECODE without parity slots reads and writes nothing (R123), so its buffers need not even be apart. -/
theorem exec_decode_no_parity {s : State} (h : BlocksReady s.engine s.engine.rows) (hc : RowsClassified s.engine)
    (hnil : s.engine.paritySlots = []) : exec .decode s = .next (s.finish .ok) := by
  show execDecode s = _
  unfold execDecode
  rw [requireInit_after _ _ h.initDone, h.blockCheck, (classifyError_eq_none _).2 hc]
  dsimp only
  rw [if_pos hnil]

end Sys2Proof.Machine
end

