-- ==== Sys2Proof/Laws/PerInstr.lean ====
section
/-! SUPPORT. Statements made of each instruction as syntax, one lemma for each constructor. -/

namespace Sys2Proof.Laws

/-- The word of an instruction is one its row of R51 selects: `(w & mask) == match`. -/
def TableWord.Statement (i : Instr) : Prop := selectsRow (encodeWord i) i = true

theorem TableWord.init : TableWord.Statement .init := by unfold TableWord.Statement; decide

theorem packWord_two_operands (opc a b : Byte) : packWord opc a b &&& 0xFF0000FF = opc.setWidth 32 := by
  unfold packWord
  ext i hi
  have : i < 32 := hi
  simp only [BitVec.getElem_and, BitVec.getElem_or, BitVec.getElem_setWidth, BitVec.getElem_shiftLeft]
  interval_cases i <;> simp [Config.regWidth]

theorem packWord_one_operand (opc a : Byte) : packWord opc a 0 &&& 0xFFFF00FF = opc.setWidth 32 := by
  unfold packWord
  ext i hi
  have : i < 32 := hi
  simp only [BitVec.getElem_and, BitVec.getElem_or, BitVec.getElem_setWidth, BitVec.getElem_shiftLeft]
  interval_cases i <;> simp [Config.regWidth]

theorem TableWord.gfadd (a b : Byte) : TableWord.Statement (.gfadd a b) :=
  beq_iff_eq.2 (packWord_two_operands 0x02 a b)

theorem TableWord.gfmul (a b : Byte) : TableWord.Statement (.gfmul a b) :=
  beq_iff_eq.2 (packWord_two_operands 0x03 a b)

theorem TableWord.gfinv (a : Byte) : TableWord.Statement (.gfinv a) :=
  beq_iff_eq.2 (packWord_one_operand 0x04 a)

theorem TableWord.coef (row col : Byte) : TableWord.Statement (.coef row col) :=
  beq_iff_eq.2 (packWord_two_operands 0x05 row col)

theorem TableWord.mulacc (scalar : Byte) : TableWord.Statement (.mulacc scalar) :=
  beq_iff_eq.2 (packWord_one_operand 0x06 scalar)

theorem TableWord.encode : TableWord.Statement .encode := by unfold TableWord.Statement; decide

theorem TableWord.decode : TableWord.Statement .decode := by unfold TableWord.Statement; decide

/-- Every instruction is well formed: its operands are bytes by their type (R52). -/
theorem wellFormed_all (i : Instr) : i.wellFormed = true := by
  cases i <;> simp [Instr.wellFormed, Instr.fields, Fields.legal, Fields.opcodeKnown, Fields.reservedClear,
    Fields.operandAClear, Fields.operandBClear]

end Sys2Proof.Laws
end

