-- ==== Sys2Proof/Tests/Slice0.lean ====
section
/-! SUPPORT. The model's own tests: expected results from 95_test_vectors.md, words written out from R51, terms that each
check of WellFormed refuses, and for each statement with hypotheses a state and operands that meet them all. -/

namespace Sys2Proof.Tests

open Sys2Proof.Machine

/-! ### States for the tests -/

/-- An initialised engine with these operands and descriptors. -/
def engineOf (k m bb : Word) (addrs : List Word) (rows : List Byte) : Engine where
  status := ⟨true, false, 0, 0⟩
  result := 0x77
  k := k
  m := m
  blockBytes := bb
  src := 0
  dst := 0
  len := 0
  descAddr := Vector.ofFn fun n => addrs.getD n 0
  descRow := Vector.ofFn fun n => rows.getD n 0

/-- A machine with one engine, over plain memory, with nothing pending. -/
def machineOf (e : Engine) (mem : Memory) : State := ⟨e, [], mem, [], [], 0, 0⟩

/-- The registers of T4: `K = 4`, `M = 2`. -/
def coefState : State := machineOf (engineOf 4 2 0 [] []) []

/-- T5: `src` at 0x100, `dst` at 0x200. -/
def macState (src dst len : Word) : State :=
  machineOf { engineOf 0 0 0 [] [] with src := src, dst := dst, len := len }
    [(0x100, 0x10), (0x101, 0x20), (0x102, 0x40), (0x103, 0x80), (0x200, 0x01), (0x201, 0x02), (0x202, 0x03), (0x203, 0x04)]

/-- Byte 0 of the example of R117, recovery buffers holding 0xEE. -/
def encodeState : State :=
  machineOf (engineOf 4 2 1 [0x10, 0x11, 0x12, 0x13, 0x14, 0x15] [])
    [(0x10, 0x01), (0x11, 0x11), (0x12, 0xFF), (0x14, 0xEE), (0x15, 0xEE)]

/-- Byte 4 of the example of R136: rows 0, 5, 2, 4 in the slots. -/
def decodeState : State :=
  machineOf (engineOf 4 2 1 [0x20, 0x21, 0x22, 0x23] [0, 5, 2, 4])
    [(0x20, 0x05), (0x21, 0x1E), (0x22, 0xA5), (0x23, 0x1F)]

/-- `k = 2`, `m = 1`, slot 0 carries row 0, slot 1 the parity row. -/
def oneErasure : State := machineOf (engineOf 2 1 1 [0x10, 0x12] [0, 2]) [(0x10, 0xAB), (0x12, 0x01)]

/-- `k = 2`, `m = 1`, both slots carry the parity row (R135 (5)). -/
def repeatedParity : State := machineOf (engineOf 2 1 1 [0x10, 0x12] [2, 2]) [(0x10, 0xAB), (0x12, 0xAB)]

/-- `k = 2`, `m = 1`, both rows original. -/
def fastPath (rows : List Byte) : State := machineOf (engineOf 2 1 1 [0x10, 0x12] rows) [(0x10, 0xAB), (0x12, 0xCD)]

/-- `k = 1`, `m = 1`, block 0 at 0x10, block 1 at 0x11. -/
def pairState : State := machineOf (engineOf 1 1 1 [0x10, 0x11] []) [(0x10, 0xAB)]

/-- `s` with this operation of the host to come. -/
def withOp (s : State) (op : HostOp) : State := { s with pending := [op] }

/-- What a command's next state satisfies, as a test. -/
def nextHas (r : Result) (P : State → Bool) : Bool :=
  match r with
  | .next t => P t
  | .fault _ => false
  | .refused _ => false

theorem exists_next {r : Result} {P : State → Bool} (h : nextHas r P = true) : ∃ t, r = .next t ∧ P t = true := by
  cases r with
  | next t => exact ⟨t, rfl, h⟩
  | fault f => exact absurd h Bool.false_ne_true
  | refused f => exact absurd h Bool.false_ne_true

/-! ### WellFormed: each check refuses a term -/

theorem test_opcode_zero_refused : Fields.legal ⟨0x00, 0, 0, 0⟩ = false := by decide
theorem test_opcode_nine_refused : Fields.legal ⟨0x09, 0, 0, 0⟩ = false := by decide
theorem test_reserved_bits_refused : Fields.legal ⟨0x02, 0, 0, 1⟩ = false := by decide
theorem test_operand_a_refused : Fields.legal ⟨0x07, 1, 0, 0⟩ = false := by decide
theorem test_operand_b_refused : Fields.legal ⟨0x06, 0, 1, 0⟩ = false := by decide

/-! ### Decoding: words written out from R51, T3 and T4 -/

theorem test_decode_init : decodeWord 0b00000000_00000000_00000000_00000001 = .ok .init := by decide
theorem test_decode_gfadd : decodeWord 0b00000000_11001010_01010011_00000010 = .ok (.gfadd 0x53 0xCA) := by decide
theorem test_decode_gfmul : decodeWord 0b00000000_10000000_00000010_00000011 = .ok (.gfmul 0x02 0x80) := by decide
theorem test_decode_gfinv : decodeWord 0b00000000_00000000_10001110_00000100 = .ok (.gfinv 0x8E) := by decide
theorem test_decode_coef : decodeWord 0b00000000_00000011_00000100_00000101 = .ok (.coef 4 3) := by decide
theorem test_decode_mulacc : decodeWord 0b00000000_00000000_11111111_00000110 = .ok (.mulacc 0xFF) := by decide
theorem test_decode_encode : decodeWord 0b00000000_00000000_00000000_00000111 = .ok .encode := by decide
theorem test_decode_decode : decodeWord 0b00000000_00000000_00000000_00001000 = .ok .decode := by decide
theorem test_decode_illegal :
    decodeWord 0x00000000 = .error .opcode ∧ decodeWord 0x000000FF = .error .opcode ∧
    decodeWord 0x01000002 = .error .reservedBits ∧ decodeWord 0x00000101 = .error .operandA ∧
    decodeWord 0x00010004 = .error .operandB := by decide
theorem test_table_word : decodeTableWord 32 0x00CA5303 = some (.gfmul 0x53 0xCA) := by decide
theorem test_first_step_after_reset :
    nextHas (step (State.reset.withFetchWord 32 0x00000001)) (fun t => t.engine.status == ⟨true, false, 0, 0⟩) = true := by
  decide

/-! ### One step of each command -/

/-- T3 row 1, and P5: INIT leaves ANYERR. -/
theorem test_init : nextHas (exec .init State.reset) (fun t => t.engine.status.toWord == 0x00000001) = true := by decide

/-- T3 row 3. -/
theorem test_gfadd : nextHas (exec (.gfadd 0x53 0xCA) coefState) (fun t => t.engine.result == 0x99) = true := by
  decide +kernel

/-- T3 rows 6, 7, 9. -/
theorem test_gfmul :
    nextHas (exec (.gfmul 0x53 0xCA) coefState) (fun t => t.engine.result == 0x8F) = true ∧
    nextHas (exec (.gfmul 0x02 0x80) coefState) (fun t => t.engine.result == 0x1D) = true ∧
    nextHas (exec (.gfmul 0xFF 0xFF) coefState) (fun t => t.engine.result == 0xE2) = true := by decide +kernel

/-- R79's example in the structures of `MUL_IMPL` the commands do not use. -/
theorem test_multiplier_structures :
    gmulBy .fullTable 0x53 0xCA = 0x8F ∧ gmulBy .logPair 0x53 0xCA = 0x8F ∧ gmulBy .logPair 0x53 0x00 = 0x00 := by
  decide +kernel

/-- T3 rows 18, 20. -/
theorem test_gfinv :
    nextHas (exec (.gfinv 0x02) coefState) (fun t => t.engine.result == 0x8E) = true ∧
    nextHas (exec (.gfinv 0x53) coefState) (fun t => t.engine.result == 0x8C) = true := by decide +kernel

/-- T3 row 24. -/
theorem test_gfinv_zero :
    nextHas (exec (.gfinv 0) coefState) (fun t => t.engine.result == 0x77 && t.engine.status.toWord == 0x00000043) = true := by
  decide +kernel

/-- T4: `COEF 4, 0`, `COEF 5, 2`, `COEF 2, 2`, `COEF 2, 3`. -/
theorem test_coef :
    nextHas (exec (.coef 4 0) coefState) (fun t => t.engine.result == 0x47) = true ∧
    nextHas (exec (.coef 5 2) coefState) (fun t => t.engine.result == 0xBA) = true ∧
    nextHas (exec (.coef 2 2) coefState) (fun t => t.engine.result == 0x01) = true ∧
    nextHas (exec (.coef 2 3) coefState) (fun t => t.engine.result == 0x00) = true := by decide +kernel

/-- T4: `COEF 6, 0` and `COEF 4, 4` end with `OPERAND_RANGE`. -/
theorem test_coef_range :
    nextHas (exec (.coef 6 0) coefState) (fun t => t.engine.status.toWord == 0x00000613) = true ∧
    nextHas (exec (.coef 4 4) coefState) (fun t => t.engine.status.toWord == 0x00000613) = true := by decide +kernel

/-- T5 row 1. -/
theorem test_mulacc :
    nextHas (exec (.mulacc 0x02) (macState 0x100 0x200 4))
      (fun t => t.mem == [(0x100, 0x10), (0x101, 0x20), (0x102, 0x40), (0x103, 0x80),
        (0x200, 0x21), (0x201, 0x42), (0x202, 0x83), (0x203, 0x19)]) = true := by decide +kernel

/-- T5 rows 9 and 10: a buffer added onto itself is zero (and no longer listed), and a buffer past the end is refused. -/
theorem test_mulacc_edges :
    nextHas (exec (.mulacc 0x01) (macState 0x200 0x200 4)) (fun t => t.mem == (macState 0 0 0).mem.take 4) = true ∧
    nextHas (exec (.mulacc 0x02) (macState 0xFFFFFFFC 0x200 5)) (fun t => t.engine.status.toWord == 0x00000513) = true := by
  decide +kernel

/-- R117, byte 0 of rows 4 and 5. -/
theorem test_encode :
    nextHas (exec .encode encodeState) (fun t => Memory.read t.mem 0x14 == 0xE6 && Memory.read t.mem 0x15 == 0x13) = true := by
  decide +kernel

/-- R136, byte 4: rows 1 and 3 come back, and DESC_ROW names them. -/
theorem test_decode :
    nextHas (exec .decode decodeState) (fun t => Memory.read t.mem 0x21 == 0x55 && Memory.read t.mem 0x23 == 0xFF &&
      t.engine.rowOf 1 == 1 && t.engine.rowOf 3 == 3 && t.engine.status.toWord == 0x00000001) = true := by
  decide +kernel

/-- T7 row 12: `ROW_RANGE` of slot 1 comes before the duplicate of slot 3. -/
theorem test_decode_row_range :
    nextHas (exec .decode (machineOf (engineOf 4 2 1 [] [0, 6, 2, 2]) []))
      (fun t => t.engine.status.toWord == 0x00000123) = true := by decide +kernel

/-! ### The statements' hypotheses can be met -/

theorem witness_EncodeOfDecodeIsTheWord : decodeWord 0x00CA5302 = .ok (.gfadd 0x53 0xCA) := by decide

theorem witness_WordSelectsTheRowItMatches :
    decodeWord 0x00CA5302 = .ok (.gfadd 0x53 0xCA) ∧ Instr.gfadd 0 0 ∈ tableRows ∧
    selectsRow 0x00CA5302 (.gfadd 0 0) = true := by decide

theorem witness_IllegalWordOnlyReports :
    (withOp coefState (.regWrite 0 0x09)).pending = [.regWrite 0 0x09] ∧
    (0x00000000#32).extractLsb' 0 8 = 0x00#8 ∧ 0x09 ≤ ((0x00000009#32).extractLsb' 0 8).toNat ∧
    0x09 ≤ ((0x000000FF#32).extractLsb' 0 8).toNat ∧
    (0x01000002#32).extractLsb' 24 8 ≠ 0#8 ∧
    ((0x00000107#32).extractLsb' 8 8 ≠ 0#8 ∧ (0x00000107#32).extractLsb' 0 8 = 0x07#8) ∧
    ((0x00010008#32).extractLsb' 16 8 ≠ 0#8 ∧ (0x00010008#32).extractLsb' 0 8 = 0x08#8) ∧
    (decodeWord 0x00000008 = .ok .decode) := by decide

theorem witness_StepRunsTheDecodedCommand :
    (withOp State.reset (.regWrite 0 0x01)).pending = [.regWrite 0 0x01] ∧ decodeWord 0x01 = .ok .init := by decide

theorem witness_NothingHappensWithoutTheHost : State.reset.pending = [] := rfl

theorem witness_HostWriteSetsOneRegister :
    (withOp coefState (.regWrite 8 5)).pending = [.regWrite 8 5] ∧ (8 : Nat) ≠ 0 ∧
    (withOp coefState (.regWrite 0x1FF 5)).pending = [.regWrite 0x1FF 5] ∧
    (withOp coefState (.regWrite 0x2FF 0x1FF)).pending = [.regWrite 0x2FF 0x1FF] ∧
    (withOp coefState (.regWrite 9 5)).pending = [.regWrite 9 5] := ⟨rfl, by decide, rfl, rfl, rfl⟩

theorem witness_ReservedAndReadOnlyRegisters :
    (withOp coefState (.regRead 0x009)).pending = [.regRead 0x009] ∧
    (withOp coefState (.regWrite 0x0FF 5)).pending = [.regWrite 0x0FF 5] ∧
    (withOp coefState (.regWrite 0x300 5)).pending = [.regWrite 0x300 5] ∧
    (withOp coefState (.regWrite 1 5)).pending = [.regWrite 1 5] ∧
    (withOp coefState (.regWrite 2 5)).pending = [.regWrite 2 5] := ⟨rfl, rfl, rfl, rfl, rfl⟩

theorem witness_HostReadReturnsTheRegister :
    (withOp coefState (.regRead 1)).pending = [.regRead 1] ∧
    (withOp coefState (.regRead (0x100 + (255 : Fin 256).val))).pending = [.regRead 0x1FF] ∧
    (withOp coefState (.regRead (0x200 + (0 : Fin 256).val))).pending = [.regRead 0x200] := ⟨rfl, rfl, rfl⟩

theorem witness_HostStoreIsVisible :
    (withOp coefState (.memWrite 0xFFFFFFFF 1)).pending = [.memWrite 0xFFFFFFFF 1] ∧
    (withOp coefState (.memWrite 0xFFFFFFFF 1)).plain ⟨(0xFFFFFFFF : Word).toNat, 1⟩ :=
  ⟨rfl, State.plain_of_nil _ _ rfl⟩

theorem witness_ResetLeavesTheStatedValues : (withOp coefState .reset).pending = [.reset] := rfl

theorem witness_StickyBitsStay :
    ∃ t, (withOp coefState (.regWrite 0 0x04)).pending = [.regWrite 0 0x04] ∧
      step (withOp coefState (.regWrite 0 0x04)) = .next t ∧ (t.engine.status.anyErr && t.engine.status.initDone) = true := by
  obtain ⟨t, h, hp⟩ := exists_next (r := step (withOp coefState (.regWrite 0 0x04)))
    (P := fun t => t.engine.status.anyErr && t.engine.status.initDone) (by decide +kernel)
  exact ⟨t, rfl, h, hp⟩

theorem witness_InverseIsUnique : (1 : Byte) ≠ 0 ∧ gmul 0x53 0x8C = 1 := by decide +kernel

theorem witness_AddAndMultiplyComplete : coefState.engine.status.initDone = true := rfl

theorem witness_InverseCommandCompletes : coefState.engine.status.initDone = true ∧ (0x53 : Byte) ≠ 0 := by decide

theorem witness_OnlyInverseOfZeroIsADomainError :
    ∃ t, exec (.gfinv 0) coefState = .next t ∧ (t.engine.status.err == 4) = true := exists_next (by decide +kernel)

theorem witness_NotInitComesFirst : Instr.decode ≠ .init ∧ State.reset.engine.status.initDone = false := by decide

theorem witness_ParityCoefficientIsAnInverse : 0 < 1 ∧ 1 ≤ 255 ∧ 255 < 256 := by decide

theorem witness_AnyKRowsAreIndependent :
    2 ≤ 256 ∧ (∀ p < 2, (fun p => [255, 1].getD p 0) p < 256) ∧
    (∀ p < 2, ∀ q < 2, [255, 1].getD p 0 = [255, 1].getD q 0 → p = q) ∧
    (∀ p < 2, xorSum 2 (fun i => gmul (coef 2 ([255, 1].getD p 0) i) 0) = 0) := by decide +kernel

theorem witness_CoefCompletes :
    let s := machineOf (engineOf 1 255 0 [] []) []
    s.engine.status.initDone = true ∧ 1 ≤ s.engine.k.toNat ∧ 1 ≤ s.engine.m.toNat ∧
    s.engine.k.toNat + s.engine.m.toNat ≤ 256 ∧ (255 : Byte).toNat < s.engine.k.toNat + s.engine.m.toNat ∧
    (0 : Byte).toNat < s.engine.k.toNat ∧ s.engine.k.toNat ≤ (255 : Byte).toNat := by decide

theorem witness_CoefErrorsInOrder :
    (engineOf 0 0 0 [] []).k.toNat = 0 ∧
    (1 ≤ (engineOf 1 0 0 [] []).k.toNat ∧ (engineOf 1 0 0 [] []).m.toNat = 0) ∧
    (256 < (engineOf 200 57 0 [] []).k.toNat + (engineOf 200 57 0 [] []).m.toNat) ∧
    (coefState.engine.k.toNat + coefState.engine.m.toNat ≤ 256 ∧
      coefState.engine.k.toNat + coefState.engine.m.toNat ≤ (6 : Byte).toNat) ∧
    coefState.engine.k.toNat ≤ (4 : Byte).toNat ∧ coefState.engine.status.initDone = true := by decide

theorem macState_ready : MulaccReady (macState 0x100 0x200 4) :=
  .of_checks rfl rfl (by decide) (by decide)

/-- The boundary of R37: a source that ends at `2^32` exactly, and `LEN = 0` at the last address. -/
theorem witness_MulaccCompletes :
    MulaccReady (macState 0x100 0x200 4) ∧ MulaccReady (macState 0xFFFFFFFC 0x200 4) ∧
    MulaccReady (macState 0xFFFFFFFF 0xFFFFFFFF 0) :=
  ⟨macState_ready, .of_checks rfl rfl (by decide) (by decide), .of_checks rfl rfl (by decide) (by decide)⟩

theorem witness_MulaccOntoItself :
    MulaccReady (macState 0x200 0x200 4) ∧ (macState 0x200 0x200 4).engine.dst = (macState 0x200 0x200 4).engine.src :=
  ⟨.of_checks rfl rfl (by decide) (by decide), rfl⟩

theorem witness_MulaccSpecialScalars :
    MulaccReady (macState 0x100 0x200 4) ∧ MulaccReady (macState 0x100 0x200 0) ∧ (macState 0x100 0x200 0).engine.len = 0 :=
  ⟨macState_ready, .of_checks rfl rfl (by decide) (by decide), rfl⟩

theorem witness_MulaccPassesAdd :
    MulaccReady (macState 0x100 0x200 4) ∧ (macState 0x100 0x200 4).engine.dst ≠ (macState 0x100 0x200 4).engine.src :=
  ⟨macState_ready, by decide⟩

theorem witness_MulaccRangeError :
    (macState 0xFFFFFFFC 0x200 5).engine.status.initDone = true ∧
    2 ^ 32 < (macState 0xFFFFFFFC 0x200 5).engine.src.toNat + (macState 0xFFFFFFFC 0x200 5).engine.len.toNat ∧
    2 ^ 32 < (macState 0x100 0xFFFFFFFF 2).engine.dst.toNat + (macState 0x100 0xFFFFFFFF 2).engine.len.toNat := by decide

theorem witness_OverlapIsRefused :
    ((macState 0x100 0x103 4).platform = [] ∧ (macState 0x100 0x103 4).engine.dst ≠ (macState 0x100 0x103 4).engine.src ∧
      Region.contains ⟨0x103, 4⟩ 0x103 ∧ Region.contains ⟨0x100, 4⟩ 0x103) ∧
    (BlocksReady (engineOf 1 1 2 [0x10, 0x11] []) 2 ∧ ((engineOf 1 1 2 [0x10, 0x11] []).block 1).contains 0x11 ∧
      ((engineOf 1 1 2 [0x10, 0x11] []).block 0).contains 0x11) ∧
    (BlocksReady (engineOf 2 1 1 [0x10, 0x10] [0, 2]) 2 ∧ RowsClassified (engineOf 2 1 1 [0x10, 0x10] [0, 2]) ∧
      ((engineOf 2 1 1 [0x10, 0x10] [0, 2]).block 1).contains 0x10 ∧
      ((engineOf 2 1 1 [0x10, 0x10] [0, 2]).block 0).contains 0x10) := by
  refine ⟨⟨rfl, by decide, by decide, by decide⟩, ⟨.of_check rfl (by decide +kernel), by decide +kernel, by decide +kernel⟩,
    .of_check rfl (by decide +kernel), (classifyError_eq_none _).1 (by decide +kernel), by decide +kernel, by decide +kernel⟩

theorem witness_AbsentMemoryStopsACommand :
    let w : Window := ⟨⟨0x203, 1⟩, .absent⟩
    w ∈ ({ macState 0x100 0x200 4 with platform := [w] } : State).platform ∧ w.region.contains 0x203 ∧
    Region.contains ⟨0x200, 4⟩ 0x203 ∧
    (BlocksReady (engineOf 1 1 1 [0x10, 0x203] []) 2 ∧ ((engineOf 1 1 1 [0x10, 0x203] []).block 1).contains 0x203) ∧
    (BlocksReady (engineOf 1 1 1 [0x203] [1]) 1 ∧ RowsClassified (engineOf 1 1 1 [0x203] [1]) ∧
      1 ≤ (engineOf 1 1 1 [0x203] [1]).rowOf 0 ∧ ((engineOf 1 1 1 [0x203] [1]).block 0).contains 0x203) := by
  refine ⟨by simp, by decide, by decide, ⟨.of_check rfl (by decide +kernel), by decide +kernel⟩,
    .of_check rfl (by decide +kernel), (classifyError_eq_none _).1 (by decide +kernel), by decide +kernel, by decide +kernel⟩

theorem encodeState_ready : EncodeReady encodeState :=
  .of_checks rfl rfl (by decide +kernel) (by decide +kernel)

theorem witness_EncodeComputesParity : EncodeReady encodeState := encodeState_ready

theorem pairState_ready : EncodeReady pairState := .of_checks rfl rfl (by decide +kernel) (by decide +kernel)

theorem pairState_recovery (a : Nat) : pairState.engine.inRecoveryBlock a ↔ a = 0x11 := by
  have h1 : pairState.engine.parityRows = 1 := by decide
  have h2 : pairState.engine.block (pairState.engine.rows + 0) = ⟨0x11, 1⟩ := by decide +kernel
  unfold Engine.inRecoveryBlock
  rw [h1]
  constructor
  · rintro ⟨j, hj, hc⟩
    obtain rfl : j = 0 := by omega
    rw [h2] at hc
    simp only [Region.contains] at hc
    omega
  · rintro rfl
    exact ⟨0, by decide, by rw [h2]; decide⟩

/-- Memories that differ in the recovery buffer alone. -/
theorem witness_EncodeIgnoresOldParity :
    EncodeReady pairState ∧
    ∀ a, ¬ pairState.engine.inRecoveryBlock a →
      Memory.read (Memory.write pairState.mem 0x11 0xEE) a = Memory.read pairState.mem a := by
  refine ⟨pairState_ready, fun a ha => ?_⟩
  rw [pairState_recovery] at ha
  rw [Memory.read_write, if_neg ha]

/-- The last clause at the boundary: the first recovery buffer ends one byte past `2^32`. -/
theorem witness_EncodeErrorsInOrder :
    (engineOf 0 0 0 [] []).k.toNat = 0 ∧ (engineOf 1 0 0 [] []).m.toNat = 0 ∧
    256 < (engineOf 255 2 0 [] []).k.toNat + (engineOf 255 2 0 [] []).m.toNat ∧
    (engineOf 255 1 0 [] []).k.toNat + (engineOf 255 1 0 [] []).m.toNat ≤ 256 ∧
    (engineOf 255 1 0 [] []).blockBytes.toNat = 0 ∧
    (∃ n : Fin 256, n.val < 2 ∧ 2 ^ 32 < (engineOf 1 1 16 [0x1000, 0xFFFFFFF1] []).descAddr[n].toNat + 16) := by
  refine ⟨by decide, by decide, by decide, by decide, by decide, 1, by decide, by decide +kernel⟩

theorem witness_DecodeErrorsInOrder :
    (∃ n : Fin 256, n.val < 1 ∧ 2 ^ 32 < (engineOf 1 1 16 [0xFFFFFFF1] []).descAddr[n].toNat + 16) ∧
    (BlocksReady (engineOf 2 1 1 [] [0, 3]) 2 ∧ 2 + 1 ≤ (engineOf 2 1 1 [] [0, 3]).rowOf 1 ∧
      (engineOf 2 1 1 [] [0, 3]).rowOf 0 < 2) ∧
    (BlocksReady (engineOf 2 1 1 [] [1, 1]) 2 ∧ (engineOf 2 1 1 [] [1, 1]).rowOf 1 < 2 ∧
      (engineOf 2 1 1 [] [1, 1]).rowOf 0 = (engineOf 2 1 1 [] [1, 1]).rowOf 1) := by
  refine ⟨⟨0, by decide, by decide +kernel⟩, ⟨.of_check rfl (by decide +kernel), by decide +kernel, by decide +kernel⟩,
    .of_check rfl (by decide +kernel), by decide +kernel, by decide +kernel⟩

theorem witness_DecodeFastPath :
    (BlocksReady (fastPath [1, 0]).engine 2 ∧ (∀ p < 2, (fastPath [1, 0]).engine.rowOf p < 2) ∧
      ∀ p < 2, ∀ q < 2, (fastPath [1, 0]).engine.rowOf q = (fastPath [1, 0]).engine.rowOf p → q = p) ∧
    (BlocksReady (fastPath [0, 0]).engine 2 ∧ (∀ p < 2, (fastPath [0, 0]).engine.rowOf p < 2) ∧
      ¬ ∀ p < 2, ∀ q < 2, (fastPath [0, 0]).engine.rowOf q = (fastPath [0, 0]).engine.rowOf p → q = p) := by
  refine ⟨⟨.of_check rfl (by decide +kernel), by decide +kernel⟩, .of_check rfl (by decide +kernel), by decide +kernel⟩

theorem oneErasure_ready : DecodeReady oneErasure :=
  .of_checks rfl rfl (by decide +kernel) (by decide +kernel) (by decide +kernel)

theorem witness_DecodeOneErasureCompletes :
    DecodeReady oneErasure ∧ 1 < oneErasure.engine.rows ∧ oneErasure.engine.rows ≤ oneErasure.engine.rowOf 1 ∧
    (∀ p < oneErasure.engine.rows, p ≠ 1 → oneErasure.engine.rowOf p < oneErasure.engine.rows) ∧
    1 < oneErasure.engine.rows ∧ ∀ p < oneErasure.engine.rows, oneErasure.engine.rowOf p ≠ 1 :=
  ⟨oneErasure_ready, by decide +kernel, by decide +kernel, by decide +kernel, by decide +kernel, by decide +kernel⟩

/-- Row 0 is `AB`; row 1 is what the parity byte `01` makes it: `ginv(3)` times it is `01 ^ gmul(8E, AB)`. -/
def oneErasureRows (i _b : Nat) : Byte := if i = 0 then 0xAB else gmul 0x03 (0x01 ^^^ gmul 0x8E 0xAB)

theorem oneErasure_holds : oneErasure.slotsHold oneErasureRows := by
  intro p hp b hb
  have hk : oneErasure.engine.rows = 2 := by decide
  have hbb : oneErasure.engine.blockLen = 1 := by decide
  rw [hk] at hp
  rw [hbb] at hb
  obtain rfl : b = 0 := by omega
  revert p
  decide +kernel

theorem witness_DecodeOkRecoversTheRows :
    ∃ t, DecodeReady oneErasure ∧ oneErasure.slotsHold oneErasureRows ∧ exec .decode oneErasure = .next t ∧
      (t.engine.status.err == 0) = true := by
  obtain ⟨t, h, hp⟩ := exists_next (r := exec .decode oneErasure) (P := fun t => t.engine.status.err == 0)
    (by decide +kernel)
  exact ⟨t, oneErasure_ready, oneErasure_holds, h, hp⟩

theorem witness_DecodeCompletesOnValidInstances :
    DecodeReady oneErasure ∧ oneErasure.engine.rowsDistinct ∧ oneErasure.slotsHold oneErasureRows :=
  ⟨oneErasure_ready, by unfold Engine.rowsDistinct; decide +kernel, oneErasure_holds⟩

/-- After ENCODE, the one slot takes the parity block: the only block erased is the data block. -/
theorem witness_DecodeOfEncodeRestoresTheData :
    ∃ t r : State, EncodeReady pairState ∧ exec .encode pairState = .next t ∧ r.mem = t.mem ∧
      r.engine.k = pairState.engine.k ∧ r.engine.m = pairState.engine.m ∧
      r.engine.blockBytes = pairState.engine.blockBytes ∧
      (∀ p < pairState.engine.rows, 1 < pairState.engine.rows + pairState.engine.parityRows ∧
        r.engine.rowOf p = 1 ∧ r.engine.addrOf p = pairState.engine.addrOf 1) ∧
      (∀ p < pairState.engine.rows, ∀ q < pairState.engine.rows, (1 : Nat) = 1 → p = q) ∧ DecodeReady r := by
  refine ⟨_, machineOf (engineOf 1 1 1 [0x11] [1]) (encodeBlocks pairState.engine pairState.mem), pairState_ready,
    exec_encode_ready pairState_ready,
    (State.finish_mem { pairState with mem := encodeBlocks pairState.engine pairState.mem } .ok).symm,
    by decide, by decide, by decide, by decide +kernel, by decide +kernel, ?_⟩
  exact .of_checks rfl rfl (by decide +kernel) (by decide +kernel) (by decide +kernel)

/-- A wrong byte in the original slot, then one in the parity slot. -/
theorem witness_DecodeDoesNotCorrectErrors :
    DecodeReady oneErasure ∧ oneErasure.engine.rowsDistinct ∧ oneErasure.engine.rows = 2 ∧
    oneErasure.engine.blockLen = 1 ∧ oneErasure.engine.rowOf 0 < 2 ∧ 2 ≤ oneErasure.engine.rowOf 1 ∧
    (∀ p < 2, ∀ q < 2, q ≠ p → ¬ (oneErasure.engine.block q).contains (oneErasure.engine.addrOf p + 0)) ∧
    (∀ p < 2, Memory.read (Memory.write oneErasure.mem (oneErasure.engine.addrOf p + 0) 0x55) (oneErasure.engine.addrOf p + 0) ≠
      Memory.read oneErasure.mem (oneErasure.engine.addrOf p + 0)) ∧
    ∀ p < 2, ∀ a, a ≠ oneErasure.engine.addrOf p + 0 →
      Memory.read (Memory.write oneErasure.mem (oneErasure.engine.addrOf p + 0) 0x55) a = Memory.read oneErasure.mem a := by
  refine ⟨oneErasure_ready, by unfold Engine.rowsDistinct; decide +kernel, by decide, by decide, by decide +kernel,
    by decide +kernel, by decide +kernel, by decide +kernel, fun p _ a ha => ?_⟩
  rw [Memory.read_write, if_neg ha]

theorem repeatedParity_ready : DecodeReady repeatedParity :=
  .of_checks rfl rfl (by decide +kernel) (by decide +kernel) (by decide +kernel)

theorem witness_RepeatedParityRowIsSingular :
    DecodeReady repeatedParity ∧ 0 < repeatedParity.engine.rows ∧ 1 < repeatedParity.engine.rows ∧ (0 : Nat) ≠ 1 ∧
    repeatedParity.engine.rows ≤ repeatedParity.engine.rowOf 0 ∧
    repeatedParity.engine.rowOf 1 = repeatedParity.engine.rowOf 0 :=
  ⟨repeatedParity_ready, by decide, by decide, by decide, by decide +kernel, by decide +kernel⟩

/-- Also the witness of the second clause of `ErrorsLeaveEverythingElse`. -/
theorem witness_SingularLeavesFreeBytes :
    ∃ t, exec .decode repeatedParity = .next t ∧
      (t.engine.status.err == 2 && t.engine.status.errInfo == 3) = true := exists_next (by decide +kernel)

theorem witness_DecodeEndIgnoresContents :
    ∃ t, ({ oneErasure with mem := [] } : State).engine = oneErasure.engine ∧
      ({ oneErasure with mem := [] } : State).platform = oneErasure.platform ∧ exec .decode oneErasure = .next t ∧
      (t.engine.status.err == 0) = true := by
  obtain ⟨t, h, hp⟩ := exists_next (r := exec .decode oneErasure) (P := fun t => t.engine.status.err == 0)
    (by decide +kernel)
  exact ⟨t, rfl, rfl, h, hp⟩

/-- A command of each kind answers a next state: the hypothesis of the frames and of the whole-machine statements. -/
theorem witness_Frames :
    (∃ t, exec .init coefState = .next t ∧ (t.engine.status.err == 0) = true) ∧
    (∃ t, exec (.coef 6 0) coefState = .next t ∧ (t.engine.status.err != 0) = true) ∧
    (∃ t, exec (.mulacc 2) (macState 0x100 0x200 4) = .next t ∧ (t.engine.status.err == 0) = true) ∧
    (∃ t, exec .encode pairState = .next t ∧ (t.engine.status.err == 0) = true) ∧
    (∃ t, exec .decode oneErasure = .next t ∧ (t.engine.status.err == 0) = true) :=
  ⟨exists_next (by decide +kernel), exists_next (by decide +kernel), exists_next (by decide +kernel),
    exists_next (by decide +kernel), exists_next (by decide +kernel)⟩

theorem witness_EveryStepKeepsTheInvariant :
    ∃ t, (State.reset.withFetchWord 32 0x03).inv ∧ step (State.reset.withFetchWord 32 0x03) = .next t ∧
      (t.engine.status.err == 3) = true := by
  obtain ⟨t, h, hp⟩ := exists_next (r := step (State.reset.withFetchWord 32 0x03)) (P := fun t => t.engine.status.err == 3)
    (by decide +kernel)
  exact ⟨t, ⟨⟨List.Pairwise.nil, fun _ h => absurd h (by simp [State.reset, State.withFetchWord])⟩,
    fun _ h => absurd h (by simp [State.reset, State.withFetchWord]),
    ⟨by decide, by decide⟩, fun _ h => absurd h (by simp [State.reset, State.withFetchWord, Config.nEngines])⟩, h, hp⟩

theorem witness_ErrorsLeaveEverythingElse :
    ∃ t, exec (.gfinv 0) coefState = .next t ∧
      (t.engine.status.err != 0 && !(t.engine.status.err == 2 && t.engine.status.errInfo == 3)) = true :=
  exists_next (by decide +kernel)

theorem witness_StatusAndResultAreNotInputs :
    ∃ t, coefState.engine.sameInputs { coefState.engine with result := 0x11, status := ⟨true, true, 5, 0⟩ } ∧
      exec (.coef 4 0) coefState = .next t ∧ (t.engine.status.err == 0) = true := by
  obtain ⟨t, h, hp⟩ := exists_next (r := exec (.coef 4 0) coefState) (P := fun t => t.engine.status.err == 0)
    (by decide +kernel)
  exact ⟨t, ⟨rfl, ⟨rfl, rfl, rfl, rfl, rfl, rfl, rfl⟩, rfl⟩, h, hp⟩

theorem witness_EveryCommandCompletesOrOverlaps :
    coefState.platform = [] ∧ (macState 0x100 0x102 4).platform = [] ∧
    (macState 0x100 0x102 4).commandOverlaps (.mulacc 1) ∧
    (match exec (.mulacc 1) (macState 0x100 0x102 4) with
      | .refused r => r == .overlappingRegions
      | _ => false) = true :=
  ⟨rfl, rfl, ⟨by decide, 0x102, by decide, by decide⟩, by decide +kernel⟩

end Sys2Proof.Tests
end

section
/-! The register file as the host sees it (R12 to R17, R22): what each number reads as, and what a write of one number does
to a read of any. -/

namespace Sys2Proof.Machine

/-- What register `n` reads as after a write of `v`: operand registers and `DESC_ADDR` keep it whole (R13, R17), `DESC_ROW`
keeps its low byte (R17), the others ignore it (R22). -/
def Engine.written (e : Engine) (n : Nat) (v : Word) : Word :=
  if (3 ≤ n ∧ n ≤ 8) ∨ (0x100 ≤ n ∧ n < 0x200) then v
  else if 0x200 ≤ n ∧ n < 0x300 then v &&& 0xFF else e.readReg n

set_option Elab.async false in
/-- Read after write among the nine numbered registers. The option keeps this proof in its place: until the kernel has
caught up with the tests above, each of their proofs holds a thread, and declarations elaborated beside them would need more
threads than the joined text has memory for. -/
theorem Engine.readReg_writeReg_numbered (e : Engine) (v : Word) {n n' : Nat} (hn : n ≤ 8) (hn' : n' ≤ 8) :
    (e.writeReg n v).readReg n' = if n' = n then e.written n v else e.readReg n' := by
  interval_cases n <;> interval_cases n' <;> simp [Engine.readReg, Engine.writeReg, Engine.written]

/-- Beyond the nine numbered registers there is the descriptor file (R17), and nothing else (R22). -/
theorem Engine.readReg_of_ge (e : Engine) {n : Nat} (hn : 9 ≤ n) :
    e.readReg n = if 0x100 ≤ n ∧ n < 0x200 then e.descAddr[n - 0x100]?.getD 0
      else if 0x200 ≤ n ∧ n < 0x300 then (e.descRow[n - 0x200]?.getD 0).setWidth 32 else 0 := by
  unfold Engine.readReg
  split
  case h_9 => rfl
  all_goals omega

theorem Engine.writeReg_of_ge (e : Engine) {n : Nat} (v : Word) (hn : 9 ≤ n) :
    e.writeReg n v = if 0x100 ≤ n ∧ n < 0x200 then { e with descAddr := e.descAddr.setIfInBounds (n - 0x100) v }
      else if 0x200 ≤ n ∧ n < 0x300 then { e with descRow := e.descRow.setIfInBounds (n - 0x200) (v.setWidth 8) }
      else e := by
  unfold Engine.writeReg
  split
  case h_7 => rfl
  all_goals omega

/-- A write of a numbered register leaves the descriptor file. -/
theorem Engine.writeReg_desc (e : Engine) (v : Word) {n : Nat} (hn : n ≤ 8) :
    (e.writeReg n v).descAddr = e.descAddr ∧ (e.writeReg n v).descRow = e.descRow := by
  interval_cases n <;> exact ⟨rfl, rfl⟩

/-- No numbered register reads from the descriptor file. -/
theorem Engine.readReg_withDesc (e : Engine) (addr : Vector Word Config.nDesc) (row : Vector Byte Config.nDesc) {n : Nat}
    (hn : n ≤ 8) : Engine.readReg { e with descAddr := addr, descRow := row } n = e.readReg n := by
  interval_cases n <;> rfl

/-- The low byte of a word, zero-extended. -/
theorem Word.setWidth_setWidth_byte (v : BitVec 32) : (v.setWidth 8).setWidth 32 = v &&& 0xFF := by
  ext i hi
  interval_cases i <;> simp

theorem Engine.readReg_setAddr (e : Engine) (v : Word) {n : Nat} (hn : 0x100 ≤ n ∧ n < 0x200) (n' : Nat) :
    Engine.readReg { e with descAddr := e.descAddr.setIfInBounds (n - 0x100) v } n' =
      if n' = n then v else e.readReg n' := by
  rcases Nat.lt_or_ge 8 n' with h9 | h8
  · rw [Engine.readReg_of_ge _ h9, Engine.readReg_of_ge _ h9, Vector.getElem?_setIfInBounds]
    by_cases heq : n' = n
    · subst heq
      have : n' - 0x100 < Config.nDesc := by simp only [Config.nDesc]; omega
      simp [hn, this]
    · rw [if_neg heq]
      split
      · rw [if_neg (by omega)]
      · rfl
  · rw [if_neg (by omega)]
    exact e.readReg_withDesc _ _ h8

theorem Engine.readReg_setRow (e : Engine) (v : Word) {n : Nat} (hn : 0x200 ≤ n ∧ n < 0x300) (n' : Nat) :
    Engine.readReg { e with descRow := e.descRow.setIfInBounds (n - 0x200) (v.setWidth 8) } n' =
      if n' = n then v &&& 0xFF else e.readReg n' := by
  rcases Nat.lt_or_ge 8 n' with h9 | h8
  · rw [Engine.readReg_of_ge _ h9, Engine.readReg_of_ge _ h9, Vector.getElem?_setIfInBounds]
    by_cases heq : n' = n
    · subst heq
      have : n' - 0x200 < Config.nDesc := by simp only [Config.nDesc]; omega
      have : ¬ n' < 0x200 := by omega
      rw [if_neg (by omega), if_pos hn]
      simp [*, Word.setWidth_setWidth_byte]
    · rw [if_neg heq]
      split
      · rfl
      split
      · rw [if_neg (by omega)]
      · rfl
  · rw [if_neg (by omega)]
    exact e.readReg_withDesc _ _ h8

/-- Read after write, over the whole register file. -/
theorem Engine.readReg_writeReg (e : Engine) (n n' : Nat) (v : Word) :
    (e.writeReg n v).readReg n' = if n' = n then e.written n v else e.readReg n' := by
  rcases Nat.lt_or_ge 8 n with h9 | h8
  · rw [Engine.writeReg_of_ge e v h9]
    by_cases haddr : 0x100 ≤ n ∧ n < 0x200
    · rw [if_pos haddr, e.readReg_setAddr v haddr]
      simp [Engine.written, haddr]
    rw [if_neg haddr]
    by_cases hrow : 0x200 ≤ n ∧ n < 0x300
    · have hnot : ¬ ((3 ≤ n ∧ n ≤ 8) ∨ (0x100 ≤ n ∧ n < 0x200)) := by omega
      rw [if_pos hrow, e.readReg_setRow v hrow, Engine.written, if_neg hnot, if_pos hrow]
    · have hnot : ¬ ((3 ≤ n ∧ n ≤ 8) ∨ (0x100 ≤ n ∧ n < 0x200)) := by omega
      rw [if_neg hrow, Engine.written, if_neg hnot, if_neg hrow]
      split
      · next heq => rw [heq]
      · rfl
  rcases Nat.lt_or_ge 8 n' with h9' | h8'
  · obtain ⟨haddr, hrow⟩ := e.writeReg_desc v h8
    rw [if_neg (by omega), Engine.readReg_of_ge _ h9', Engine.readReg_of_ge _ h9', haddr, hrow]
  · exact e.readReg_writeReg_numbered v h8 h8'

theorem Engine.readReg_descAddr (e : Engine) (j : Fin 256) : e.readReg (0x100 + j.val) = e.descAddr[j] := by
  rw [Engine.readReg_of_ge _ (by omega), if_pos (by omega)]
  simp

theorem Engine.readReg_descRow (e : Engine) (j : Fin 256) :
    e.readReg (0x200 + j.val) = e.descRow[j].setWidth 32 := by
  rw [Engine.readReg_of_ge _ (by omega), if_neg (by omega), if_pos (by omega)]
  simp

/-- Reserved numbers read 0 (R22). -/
theorem Engine.readReg_reserved (e : Engine) {n : Nat} (hn : (0x009 ≤ n ∧ n ≤ 0x0FF) ∨ 0x300 ≤ n) : e.readReg n = 0 := by
  rw [Engine.readReg_of_ge _ (by omega), if_neg (by omega), if_neg (by omega)]

/-- Reserved numbers, STATUS and RESULT ignore writes (R22). -/
theorem Engine.writeReg_ignored (e : Engine) (v : Word) {n : Nat}
    (hn : (0x009 ≤ n ∧ n ≤ 0x0FF) ∨ 0x300 ≤ n ∨ n = 1 ∨ n = 2) : e.writeReg n v = e := by
  rcases Nat.lt_or_ge 8 n with h9 | h8
  · rw [Engine.writeReg_of_ge e v h9, if_neg (by omega), if_neg (by omega)]
  · obtain rfl | rfl : n = 1 ∨ n = 2 := by omega
    · rfl
    · rfl

theorem Status.toWord_fields (st : Status) :
    let w := st.toWord
    w.getLsbD 0 = st.initDone ∧ w.getLsbD 1 = st.anyErr ∧ w.extractLsb' 2 2 = 0 ∧ w.extractLsb' 4 4 = st.err ∧
      w.extractLsb' 8 8 = st.errInfo ∧ w.extractLsb' 16 16 = 0 := by
  have bit (i : Nat) : st.toWord.getLsbD i =
      (0#16 ++ st.errInfo ++ st.err ++ 0#2 ++ BitVec.ofBool st.anyErr ++ BitVec.ofBool st.initDone).getLsbD i := rfl
  simp only [BitVec.getLsbD_append] at bit
  refine ⟨by rw [bit]; simp, by rw [bit]; simp, ?_, ?_, ?_, ?_⟩
  all_goals
    ext i hi
    rw [BitVec.getElem_extractLsb', bit]
    simp (disch := omega) only [if_pos, if_neg]
  · simp
  · rw [← BitVec.getLsbD_eq_getElem]
    congr 1
    omega
  · rw [← BitVec.getLsbD_eq_getElem]
    congr 1
    omega
  · simp

end Sys2Proof.Machine
end
section
/-! The ways a command can end, said once for all eight, and what each of them leaves unchanged. -/

namespace Sys2Proof.Machine

/-! ### The ways a command can end -/

/-- The state of a DECODE that ends with `SINGULAR`, before `finish`: every parity-slot buffer is undefined (R129, U3). -/
def State.scrambleParity (s : State) : State :=
  s.engine.paritySlots.foldl (fun w p => w.scramble (s.engine.addrOf p) s.engine.blockLen) s

/-- The commands that access buffer memory (R36). -/
def usesMemory : Instr → Bool
  | .mulacc _ | .encode | .decode => true
  | _ => false

/-- How command `i` can end in `t` from `s`, when it answers a next state at all. -/
inductive CommandEnds (s : State) : Instr → State → Prop
  /-- INIT (R77). -/
  | init : CommandEnds s .init (s.setInitDone.finish .ok)
  /-- An error found before the command's work: nothing but STATUS is written (R141, R147). -/
  | reports {i : Instr} {c : Completion} (hi : i ≠ .init) (hc : c ≠ .ok) : CommandEnds s i (s.finish c)
  /-- GFADD, GFMUL, GFINV, COEF with a value for RESULT (R78 to R80, R105). -/
  | answers {i : Instr} {v : Byte} (hi : i ≠ .init) (hu : usesMemory i = false) :
      CommandEnds s i ((s.setResult v).finish .ok)
  /-- MULACC (R95). -/
  | mulacc {c : Byte} (hc : mulaccCheck s.engine = none) :
      CommandEnds s (.mulacc c)
        ({ s with mem := mulAcc s.mem s.engine.dst.toNat s.engine.src.toNat c s.engine.len.toNat }.finish .ok)
  /-- ENCODE (R111). -/
  | encode (hc : blockCheck s.engine (s.engine.rows + s.engine.parityRows) = none) :
      CommandEnds s .encode ({ s with mem := encodeBlocks s.engine s.mem }.finish .ok)
  /-- DECODE without parity slots (R123). -/
  | fastPath : CommandEnds s .decode (s.finish .ok)
  /-- DECODE with a solution (R127). -/
  | solved {z : Solver} (hc : blockCheck s.engine s.engine.rows = none) (hz : solve s.engine s.mem = some z) :
      CommandEnds s .decode ({ s with mem := z.mem, engine := rewriteRows s.engine z.piv }.finish .ok)
  /-- DECODE without one (R129). -/
  | singular (hc : blockCheck s.engine s.engine.rows = none) (hz : solve s.engine s.mem = none) :
      CommandEnds s .decode (s.scrambleParity.finish (.decodeError .singular))

/-! ### SINGULAR's undefined buffers -/

/-- Making the parity-slot buffers undefined touches nothing but memory and the counter of free values. -/
theorem State.scrambleParity_eq (s : State) :
    s.scrambleParity = { s with mem := s.scrambleParity.mem, freeNext := s.scrambleParity.freeNext } := by
  refine foldl_keeps (fun w : State => w = { s with mem := w.mem, freeNext := w.freeNext }) _ _ (fun w hw p _ => ?_) s rfl
  rw [hw]
  rfl

@[simp] theorem State.scrambleParity_engine (s : State) : s.scrambleParity.engine = s.engine := by
  rw [s.scrambleParity_eq]

@[simp] theorem State.scrambleParity_platform (s : State) : s.scrambleParity.platform = s.platform := by
  rw [s.scrambleParity_eq]

theorem State.scrambleParity_outside (s : State) (a : Nat) (ha : ¬ s.engine.inParityBlock a) :
    Memory.read s.scrambleParity.mem a = Memory.read s.mem a := by
  refine foldl_keeps (fun w : State => Memory.read w.mem a = Memory.read s.mem a) _ _ (fun w hw p hp => ?_) s rfl
  have hslot := (s.engine.mem_paritySlots p).1 hp
  have hout : ¬ (s.engine.addrOf p ≤ a ∧ a < s.engine.addrOf p + s.engine.blockLen) :=
    fun hc => ha ⟨p, hslot.1, hslot.2, hc⟩
  rw [State.scramble_mem, fillFree_read, if_neg hout, hw]

theorem State.scrambleParity_ok (s : State) (h : Memory.ok s.mem)
    (hr : ∀ p < s.engine.rows, s.engine.addrOf p + s.engine.blockLen ≤ 2 ^ 32) : Memory.ok s.scrambleParity.mem :=
  foldl_keeps (fun w : State => Memory.ok w.mem) _ _
    (fun _ hw p hp => fillFree_ok _ _ _ _ hw (hr p ((s.engine.mem_paritySlots p).1 hp).1)) s h

/-- Memory and the counter of free values, with the free bytes of every parity-slot buffer drawn. -/
def Engine.drawParity (e : Engine) (d : Memory × Nat) : Memory × Nat :=
  e.paritySlots.foldl (fun d p => (fillFree d.1 (e.addrOf p) d.2 e.blockLen, d.2 + e.blockLen)) d

/-- The bytes drawn depend on memory, the counter and the slots alone. -/
theorem State.scrambleParity_draws (s : State) :
    (s.scrambleParity.mem, s.scrambleParity.freeNext) = s.engine.drawParity (s.mem, s.freeNext) :=
  (List.foldl_hom (fun w : State => (w.mem, w.freeNext)) fun _ _ => rfl).symm

/-! ### The row rewrite -/

/-- The row rewrite writes no register but `DESC_ROW` (R127). -/
theorem rewriteRows_eq (e : Engine) (piv : List Nat) :
    rewriteRows e piv = { e with descRow := (rewriteRows e piv).descRow } := by
  refine foldl_keeps (fun w : Engine => w = { e with descRow := w.descRow }) _ _ (fun w hw u _ => ?_) e rfl
  rw [hw]
  rfl

theorem rewriteRows_result (e : Engine) (piv : List Nat) : (rewriteRows e piv).result = e.result := by
  rw [rewriteRows_eq]

theorem rewriteRows_descRow (e : Engine) (piv : List Nat) :
    (rewriteRows e piv).descRow = (List.range piv.length).foldl
      (fun rows u => rows.setIfInBounds (e.paritySlots.getD (piv.getD u 0) 0) (BitVec.ofNat 8 (e.missingRows.getD u 0)))
      e.descRow :=
  (List.foldl_hom Engine.descRow fun _ _ => rfl).symm

/-! ### Each command ends in one of these ways -/

theorem CommandEnds.of_requireInit {i : Instr} {s t : State} {body : Result} (hi : i ≠ .init)
    (h : requireInit s body = .next t) (hb : body = .next t → CommandEnds s i t) : CommandEnds s i t := by
  rcases requireInit_cases s body with ⟨-, hr⟩ | ⟨-, hr⟩
  · obtain rfl : s.finish .notInit = t := by simpa [hr] using h
    exact .reports hi (by simp)
  · exact hb (hr ▸ h)

/-- The two ways the solver can end (R127, R129). -/
theorem CommandEnds.of_decodeOutcome {s : State} (hc : blockCheck s.engine s.engine.rows = none) :
    CommandEnds s .decode (decodeOutcome s) := by
  unfold decodeOutcome
  split
  · next hz => exact .solved hc hz
  · next hz => exact .singular hc hz

theorem execCoef_ends {row col : Byte} {s t : State} (h : execCoef row col s = .next t) :
    CommandEnds s (.coef row col) t := by
  refine .of_requireInit (by simp) h fun h => ?_
  obtain rfl := Host.Outcome.next.inj h
  split
  · exact .reports (by simp) (by simp)
  · exact .answers (by simp) rfl

theorem execGfinv_ends {a : Byte} {s t : State} (h : execGfinv a s = .next t) : CommandEnds s (.gfinv a) t := by
  refine .of_requireInit (by simp) h fun h => ?_
  obtain rfl := Host.Outcome.next.inj h
  split
  · exact .reports (by simp) (by simp)
  · exact .answers (by simp) rfl

theorem execMulacc_ends {c : Byte} {s t : State} (h : execMulacc c s = .next t) : CommandEnds s (.mulacc c) t := by
  refine .of_requireInit (by simp) h fun h => ?_
  split at h
  · obtain rfl := Host.Outcome.next.inj h
    exact .reports (by simp) (by simp)
  · next hc =>
    rw [withContract_next h]
    exact .mulacc hc

theorem execEncode_ends {s t : State} (h : execEncode s = .next t) : CommandEnds s .encode t := by
  refine .of_requireInit (by simp) h fun h => ?_
  split at h
  · obtain rfl := Host.Outcome.next.inj h
    exact .reports (by simp) (by simp)
  · next hc =>
    rw [withContract_next h]
    exact .encode hc

theorem execDecode_ends {s t : State} (h : execDecode s = .next t) : CommandEnds s .decode t := by
  refine .of_requireInit (by simp) h fun h => ?_
  split at h
  · obtain rfl := Host.Outcome.next.inj h
    exact .reports (by simp) (by simp)
  next hc =>
  split at h
  · obtain rfl := Host.Outcome.next.inj h
    exact .reports (by simp) (by simp)
  split at h
  · obtain rfl := Host.Outcome.next.inj h
    exact .fastPath
  · rw [withContract_next h]
    exact .of_decodeOutcome hc

/-- A command that answers a next state ends in one of the ways of `CommandEnds`. -/
theorem exec_ends {i : Instr} {s t : State} (h : exec i s = .next t) : CommandEnds s i t := by
  cases i with
  | init => exact Host.Outcome.next.inj h ▸ .init
  | gfadd a b =>
    exact .of_requireInit (by simp) h fun h => Host.Outcome.next.inj h ▸ .answers (by simp) rfl
  | gfmul a b =>
    exact .of_requireInit (by simp) h fun h => Host.Outcome.next.inj h ▸ .answers (by simp) rfl
  | gfinv a => exact execGfinv_ends h
  | coef row col => exact execCoef_ends h
  | mulacc c => exact execMulacc_ends h
  | encode => exact execEncode_ends h
  | decode => exact execDecode_ends h

/-! ### What each end leaves -/

/-- The addresses a command may write (R36). -/
def State.mayWrite (s : State) (a : Nat) : Instr → Prop
  | .mulacc _ => s.engine.dstRegion.contains a
  | .encode => s.engine.inRecoveryBlock a
  | .decode => s.engine.inParityBlock a
  | _ => False

section
variable {i : Instr} {s t : State} (h : CommandEnds s i t)
include h

/-- No command writes an operand register or a `DESC_ADDR` (R13, R17). -/
theorem CommandEnds.operandsKept : s.engine.operandsKept t.engine := by
  cases h with
  | solved hc hz =>
    rw [rewriteRows_eq]
    exact ⟨rfl, rfl, rfl, rfl, rfl, rfl, rfl⟩
  | singular hc hz =>
    rw [s.scrambleParity_eq]
    exact ⟨rfl, rfl, rfl, rfl, rfl, rfl, rfl⟩
  | _ => exact ⟨rfl, rfl, rfl, rfl, rfl, rfl, rfl⟩

/-- No command touches what lies outside its engine and buffer memory (R27). -/
theorem CommandEnds.surroundingsKept : s.surroundingsKept t := by
  cases h with
  | singular hc hz =>
    rw [s.scrambleParity_eq]
    exact ⟨rfl, rfl, rfl, rfl⟩
  | _ => exact ⟨rfl, rfl, rfl, rfl⟩

/-- Every command ends by completing STATUS (R141), and only INIT sets `INIT_DONE` (R77). -/
theorem CommandEnds.status_eq : ∃ c : Completion, t.engine.status =
    Status.complete { s.engine.status with initDone := s.engine.status.initDone || decide (i = .init) } c := by
  have other (hi : i ≠ .init) (c : Completion) (ht : t.engine.status = s.engine.status.complete c) :
      ∃ c : Completion, t.engine.status =
        Status.complete { s.engine.status with initDone := s.engine.status.initDone || decide (i = .init) } c :=
    ⟨c, by simpa [hi] using ht⟩
  cases h with
  | init => exact ⟨.ok, by simp⟩
  | reports hi hc => exact other hi _ rfl
  | answers hi hu => exact other hi .ok rfl
  | mulacc hc => exact other (by simp) .ok rfl
  | encode hc => exact other (by simp) .ok rfl
  | fastPath => exact other (by simp) .ok rfl
  | solved hc hz => exact other (by simp) .ok (by rw [rewriteRows_eq]; rfl)
  | singular hc hz => exact other (by simp) (.decodeError .singular) (by simp)

theorem CommandEnds.status_legal : t.engine.status.legal := by
  obtain ⟨c, hc⟩ := h.status_eq
  rw [hc]
  exact Status.complete_legal _ _

theorem CommandEnds.initDone_eq : t.engine.status.initDone = (s.engine.status.initDone || decide (i = .init)) := by
  obtain ⟨c, hc⟩ := h.status_eq
  rw [hc]
  rfl

/-- `ANYERR` is sticky and set by an error (R15, R141). -/
theorem CommandEnds.anyErr_eq : t.engine.status.anyErr = (s.engine.status.anyErr || t.engine.status.err != 0) := by
  obtain ⟨c, hc⟩ := h.status_eq
  rw [hc]
  rfl

theorem CommandEnds.initDone_kept (hi : i ≠ .init) : t.engine.status.initDone = s.engine.status.initDone := by
  simp [h.initDone_eq, hi]

/-- RESULT is written only by a success of GFADD, GFMUL, GFINV or COEF (R16). -/
theorem CommandEnds.result_kept (hi : i = .init ∨ usesMemory i = true ∨ t.engine.status.err ≠ 0) :
    t.engine.result = s.engine.result := by
  cases h with
  | answers hne hu =>
    rcases hi with hi | hi | hi
    · exact absurd hi hne
    · exact absurd hi (by simp [hu])
    · exact absurd rfl hi
  | solved hc hz => exact rewriteRows_result _ _
  | singular hc hz => simp
  | _ => rfl

/-- Only DECODE writes `DESC_ROW` (R127). -/
theorem CommandEnds.descRow_kept (hi : i ≠ .decode) : t.engine.descRow = s.engine.descRow := by
  cases h with
  | fastPath | solved | singular => exact absurd rfl hi
  | _ => rfl

/-- DECODE writes the `DESC_ROW` of parity slots only (R127). -/
theorem CommandEnds.rowOf_kept (n : Nat) (hn : n ∉ s.engine.paritySlots) :
    t.engine.rowOf n = s.engine.rowOf n := by
  cases h with
  | solved hc hz =>
    obtain ⟨-, hpiv, -⟩ := solve_keeps hz
    exact (rewriteRows_keeps s.engine _ hpiv).2 n hn
  | singular hc hz =>
    show s.scrambleParity.engine.rowOf n = s.engine.rowOf n
    rw [s.scrambleParity_engine]
  | _ => rfl

/-- Only DECODE draws free values (U3). -/
theorem CommandEnds.freeNext_kept (hi : i ≠ .decode) : t.freeNext = s.freeNext := by
  cases h with
  | fastPath | solved | singular => exact absurd rfl hi
  | _ => rfl

/-- A command without buffers leaves memory (R36). -/
theorem CommandEnds.mem_kept (hi : usesMemory i = false) : t.mem = s.mem := by
  cases h with
  | mulacc | encode | fastPath | solved | singular => cases hi
  | _ => rfl

/-- A command writes no byte outside its footprint (R36). -/
theorem CommandEnds.read_outside (a : Nat) (ha : ¬ s.mayWrite a i) : Memory.read t.mem a = Memory.read s.mem a := by
  cases h with
  | mulacc hc => exact mulAcc_outside _ _ _ _ _ _ ha
  | encode hc => exact encodeBlocks_outside _ _ _ ha
  | solved hc hz => exact (solve_keeps hz).1.outside a ha
  | singular hc hz => exact s.scrambleParity_outside a ha
  | _ => rfl

/-- Every command keeps memory canonical and inside its space, since its checks came first (R37). -/
theorem CommandEnds.mem_ok (hm : Memory.ok s.mem) : Memory.ok t.mem := by
  cases h with
  | mulacc hc =>
    obtain ⟨-, hdst⟩ := (mulaccCheck_eq_none _).1 hc
    exact mulAcc_ok _ _ _ _ _ hm hdst
  | encode hc =>
    obtain ⟨-, -, -, -, hr⟩ := (blockCheck_eq_none _ _).1 hc
    exact encodeBlocks_ok _ _ hm fun j hj => hr _ (by omega)
  | solved hc hz =>
    obtain ⟨-, -, -, -, hr⟩ := (blockCheck_eq_none _ _).1 hc
    exact (solve_keeps hz).1.ok hm hr
  | singular hc hz =>
    obtain ⟨-, -, -, -, hr⟩ := (blockCheck_eq_none _ _).1 hc
    exact s.scrambleParity_ok hm hr
  | _ => exact hm

end

/-- Every command keeps the invariant. -/
theorem CommandEnds.inv {i : Instr} {s t : State} (h : CommandEnds s i t) (hs : s.inv) : t.inv := by
  obtain ⟨hwf, hspace, -, hothers⟩ := hs
  obtain ⟨hwf', hspace'⟩ := h.mem_ok ⟨hwf, hspace⟩
  exact ⟨hwf', hspace', h.status_legal, h.surroundingsKept.others ▸ hothers⟩

/-! ### The frames of the commands -/

/-- Settles O47: none of the five uses memory, and RESULT is written by a success alone. -/
theorem frameOfScalarCommands : Obligations.FrameOfScalarCommands := by
  intro i s t hi h
  have hu : usesMemory i = false ∧ i ≠ .decode := by
    rcases hi with rfl | ⟨a, b, rfl⟩ | ⟨a, b, rfl⟩ | ⟨a, rfl⟩ | ⟨r, c, rfl⟩ <;> exact ⟨rfl, by simp⟩
  obtain ⟨hmem, hdec⟩ := hu
  have he := exec_ends h
  exact ⟨he.operandsKept, he.descRow_kept hdec, he.surroundingsKept, he.mem_kept hmem, he.freeNext_kept hdec,
    fun hr => he.result_kept (hr.elim (.inr ∘ .inr) .inl), he.initDone_kept⟩

/-- Settles O48: MULACC's footprint is its destination. -/
theorem frameOfMulacc : Obligations.FrameOfMulacc := by
  intro c s t h
  have he := exec_ends h
  exact ⟨he.operandsKept, he.descRow_kept (by simp), he.result_kept (.inr (.inl rfl)), he.initDone_kept (by simp),
    he.surroundingsKept, he.freeNext_kept (by simp), he.read_outside⟩

/-- Settles O49: ENCODE's footprint is its recovery buffers. -/
theorem frameOfEncode : Obligations.FrameOfEncode := by
  intro s t h
  have he := exec_ends h
  exact ⟨he.operandsKept, he.descRow_kept (by simp), he.result_kept (.inr (.inl rfl)), he.initDone_kept (by simp),
    he.surroundingsKept, he.freeNext_kept (by simp), he.read_outside⟩

/-- Settles O50: DECODE writes the rows and the buffers of parity slots. -/
theorem frameOfDecode : Obligations.FrameOfDecode := by
  intro s t h
  have he := exec_ends h
  exact ⟨he.operandsKept, he.result_kept (.inr (.inl rfl)), he.initDone_kept (by simp), he.surroundingsKept,
    fun n hn => he.rowOf_kept n (mt (s.engine.mem_paritySlots n).1 hn), he.read_outside⟩

end Sys2Proof.Machine
end

section
/-! One step of the machine, by the kind of the operation it takes off; the invariant. -/

namespace Sys2Proof.Machine

/-! ### The operations of the host -/

theorem step_idle {s : State} (hp : s.pending = []) : step s = .next s := by
  unfold step
  rw [hp]

theorem step_command {s : State} {w : Word} {i : Instr} {rest : List HostOp} (hp : s.pending = .regWrite 0 w :: rest)
    (hw : decodeWord w = .ok i) : step s = exec i { s with pending := rest } := by
  unfold step
  rw [hp]
  simp [HostOp.commandWord, hw]

theorem step_illegal {s : State} {w : Word} {x : IllegalWord} {rest : List HostOp}
    (hp : s.pending = .regWrite 0 w :: rest) (hw : decodeWord w = .error x) :
    step s = .next (State.finish { s with pending := rest } .illegalCmd) := by
  unfold step
  rw [hp]
  simp [HostOp.commandWord, hw, illegalCommand]

theorem step_hostOperation {s : State} {op : HostOp} {rest : List HostOp} (hp : s.pending = op :: rest)
    (hop : op.commandWord = none) : step s = hostOperation op { s with pending := rest } := by
  unfold step
  rw [hp]
  simp [hop]

/-- A write of a register other than `CMD` is no command (R14). -/
theorem HostOp.commandWord_regWrite {n : Nat} (v : Word) (hn : n ≠ 0) : (HostOp.regWrite n v).commandWord = none := by
  rw [Option.eq_none_iff_forall_ne_some]
  intro w h
  exact hn (HostOp.regWrite.inj ((HostOp.commandWord_eq_some _ _).1 h)).1

theorem step_regWrite {s : State} {n : Nat} {v : Word} {rest : List HostOp} (hp : s.pending = .regWrite n v :: rest)
    (hn : n ≠ 0) : step s = .next { s with pending := rest, engine := s.engine.writeReg n v } :=
  step_hostOperation hp (HostOp.commandWord_regWrite v hn)

theorem step_regRead {s : State} {n : Nat} {rest : List HostOp} (hp : s.pending = .regRead n :: rest) :
    step s = .next { s with pending := rest, readData := s.engine.readReg n } :=
  step_hostOperation hp rfl

theorem step_reset {s : State} {rest : List HostOp} (hp : s.pending = .reset :: rest) :
    step s = .next (State.resetEngine { s with pending := rest }) :=
  step_hostOperation hp rfl

/-- A host store that answers a next state has stored the byte. -/
theorem State.hostStore_next {s t : State} {a : Word} {v : Byte} (h : s.hostStore a v = .next t) :
    t = { s with mem := Memory.write s.mem a.toNat v } := by
  unfold State.hostStore at h
  repeat' split at h
  all_goals cases h
  rfl

/-- Turning to another engine, when it answers a next state, exchanges the two (R27). -/
theorem State.selectEngine_next {s t : State} {n : Nat} (h : s.selectEngine n = .next t) :
    ∃ e ∈ s.others, t = { s with engine := e, others := s.others.set n s.engine } := by
  unfold State.selectEngine at h
  split at h
  · next e he => exact ⟨e, List.mem_of_getElem? he, (Host.Outcome.next.inj h).symm⟩
  · cases h

/-- What a step that takes an operation off and answers a next state has done. -/
theorem step_next {s t : State} {op : HostOp} {rest : List HostOp} (hp : s.pending = op :: rest)
    (h : step s = .next t) :
    (∃ i, CommandEnds { s with pending := rest } i t) ∨ t = State.finish { s with pending := rest } .illegalCmd ∨
      hostOperation op { s with pending := rest } = .next t := by
  cases hop : op.commandWord with
  | none => exact .inr (.inr (step_hostOperation hp hop ▸ h))
  | some w =>
    obtain rfl := (HostOp.commandWord_eq_some _ _).1 hop
    cases hw : decodeWord w with
    | ok i => exact .inl ⟨i, exec_ends (step_command hp hw ▸ h)⟩
    | error x => exact .inr (.inl (Host.Outcome.next.inj (step_illegal hp hw ▸ h)).symm)

/-! ### The invariant -/

/-- STATUS after reset holds the pair of a success (R24, R140). -/
theorem Engine.afterReset_status_legal (draw : Nat) : (Engine.afterReset draw).status.legal :=
  ⟨by simp [Engine.afterReset, completionTable], fun h => absurd rfl h⟩

/-- A host operation that is no command keeps the invariant. -/
theorem hostOperation_inv {op : HostOp} {s t : State} (hs : s.inv) (h : hostOperation op s = .next t) : t.inv := by
  obtain ⟨hwf, hspace, hst, hothers⟩ := hs
  cases op with
  | regWrite n v =>
    obtain rfl := Host.Outcome.next.inj h
    exact ⟨hwf, hspace, (s.engine.writeReg_status n v).symm ▸ hst, hothers⟩
  | regRead n =>
    obtain rfl := Host.Outcome.next.inj h
    exact ⟨hwf, hspace, hst, hothers⟩
  | memWrite a v =>
    obtain rfl := State.hostStore_next h
    obtain ⟨hwf', hspace'⟩ := Memory.write_ok s.mem a.toNat v ⟨hwf, hspace⟩ (Word.toNat_lt a)
    exact ⟨hwf', hspace', hst, hothers⟩
  | reset =>
    obtain rfl := Host.Outcome.next.inj h
    exact ⟨hwf, hspace, Engine.afterReset_status_legal _, hothers⟩
  | select n =>
    obtain ⟨e, he, rfl⟩ := State.selectEngine_next h
    refine ⟨hwf, hspace, hothers e he, fun e' he' => ?_⟩
    rcases List.mem_or_eq_of_mem_set he' with hmem | rfl
    · exact hothers e' hmem
    · exact hst

/-- Settles O53, by the kind of the operation the step takes off. -/
theorem everyStepKeepsTheInvariant : Obligations.EveryStepKeepsTheInvariant := by
  intro s t hs h
  cases hp : s.pending with
  | nil => exact Host.Outcome.next.inj (step_idle hp ▸ h) ▸ hs
  | cons op rest =>
    have hs' : State.inv { s with pending := rest } := hs
    obtain ⟨hwf, hspace, -, hothers⟩ := hs
    rcases step_next hp h with ⟨i, he⟩ | rfl | hop
    · exact he.inv hs'
    · exact ⟨hwf, hspace, Status.complete_legal _ _, hothers⟩
    · exact hostOperation_inv hs' hop

/-- Settles O52: reset memory lists nothing, and every engine has its reset STATUS. -/
theorem resetMeetsTheInvariant : Obligations.ResetMeetsTheInvariant := by
  refine ⟨⟨List.Pairwise.nil, by simp [State.reset]⟩, by simp [State.reset], Engine.afterReset_status_legal 0, ?_⟩
  intro e he
  obtain ⟨j, -, rfl⟩ := List.mem_map.1 he
  exact Engine.afterReset_status_legal _

/-! ### Single steps -/

/-- Settles O6. -/
theorem stepRunsTheDecodedCommand : Obligations.StepRunsTheDecodedCommand := fun _ _ _ _ => step_command

/-- Settles O7. -/
theorem nothingHappensWithoutTheHost : Obligations.NothingHappensWithoutTheHost := fun _ => step_idle

/-- Settles O12: the reset values stand in `Engine.afterReset`. -/
theorem resetLeavesTheStatedValues : Obligations.ResetLeavesTheStatedValues := by
  refine ⟨fun s rest hp => ⟨_, step_reset hp, ?_⟩, rfl, rfl, rfl, rfl, rfl, rfl, rfl, rfl⟩
  exact ⟨rfl, rfl, rfl, rfl, rfl, rfl, rfl, rfl, rfl, rfl, rfl, rfl, rfl⟩

/-- A host operation other than reset and the turn to another engine leaves STATUS (R22). -/
theorem hostOperation_status {op : HostOp} {s t : State} (hr : op ≠ .reset) (hsel : ∀ n, op ≠ .select n)
    (h : hostOperation op s = .next t) : t.engine.status = s.engine.status := by
  cases op with
  | regWrite n v =>
    obtain rfl := Host.Outcome.next.inj h
    exact s.engine.writeReg_status n v
  | regRead n =>
    obtain rfl := Host.Outcome.next.inj h
    rfl
  | memWrite a v => rw [State.hostStore_next h]
  | reset => exact absurd rfl hr
  | select n => exact absurd rfl (hsel n)

/-- Settles O13: a command only sets the two bits, and no other operation writes STATUS. -/
theorem stickyBitsStay : Obligations.StickyBitsStay := by
  intro s t op rest hp hr hsel h
  rcases step_next hp h with ⟨i, he⟩ | rfl | hop
  · rw [he.initDone_eq, he.anyErr_eq]
    exact ⟨fun hi => by simp [hi], fun ha => by simp [ha]⟩
  · exact ⟨id, fun ha => by simp [ha]⟩
  · rw [hostOperation_status hr hsel hop]
    exact ⟨id, id⟩

end Sys2Proof.Machine
end

section
/-! The statements about the host's register accesses. -/

namespace Sys2Proof.Machine

/-- Settles O8: the step is `writeReg`, and every register then reads as `readReg_writeReg` says. -/
theorem hostWriteSetsOneRegister : Obligations.HostWriteSetsOneRegister := by
  intro s n v rest hp hn
  refine ⟨s.engine.writeReg n v, step_regWrite hp hn, ?_, fun n' hne => ?_⟩
  · rw [Engine.readReg_writeReg, if_pos rfl, Engine.written]
  · rw [Engine.readReg_writeReg, if_neg hne]

/-- Settles O9. -/
theorem reservedAndReadOnlyRegisters : Obligations.ReservedAndReadOnlyRegisters := by
  refine fun s n v rest => ⟨fun hn hp => ?_, fun hn hp => ?_⟩
  · rw [step_regRead hp, s.engine.readReg_reserved hn]
  · rw [step_regWrite hp (by omega), s.engine.writeReg_ignored v hn]

/-- Settles O10: the value is `readReg n`. -/
theorem hostReadReturnsTheRegister : Obligations.HostReadReturnsTheRegister := by
  intro s n rest hp
  refine ⟨s.engine.readReg n, step_regRead hp, ?_, ?_, ?_, ?_, ?_, ?_, ?_, ?_, ?_, fun j => ?_, fun j => ?_⟩
  all_goals rintro rfl
  · rfl
  · exact s.engine.status.toWord_fields
  · rfl
  · rfl
  · rfl
  · rfl
  · rfl
  · rfl
  · rfl
  · exact s.engine.readReg_descAddr j
  · exact s.engine.readReg_descRow j

end Sys2Proof.Machine
end

section
/-! Two runs of one command from states that differ in what a command may not depend on (R25, R27). -/

namespace Sys2Proof.Machine

/-! ### States alike in the inputs of a command -/

/-- Two states alike in everything a command may depend on (R25, R27), the platform and the counter of free values among
it (log entries 6, 15). -/
structure State.sameInputs (s s' : State) : Prop where
  engine : s.engine.sameInputs s'.engine
  mem : s'.mem = s.mem
  platform : s'.platform = s.platform
  freeNext : s'.freeNext = s.freeNext

/-- The ends `t` and `t'` of two runs from `s` and `s'` are alike: the same inputs for the next command, the same code and
sub-cause, and RESULT the same or untouched in both. -/
structure State.endsAlike (s s' t t' : State) : Prop where
  inputs : t.sameInputs t'
  err : t'.engine.status.err = t.engine.status.err
  errInfo : t'.engine.status.errInfo = t.engine.status.errInfo
  result : t'.engine.result = t.engine.result ∨
    (t.engine.result = s.engine.result ∧ t'.engine.result = s'.engine.result)

section
variable {e e' : Engine} (h : e.sameInputs e')
include h

theorem Engine.sameInputs.eq_with : e' = { e with status := e'.status, result := e'.result } := by
  obtain ⟨-, ⟨hk, hm, hbb, hsrc, hdst, hlen, haddr⟩, hrow⟩ := h
  cases e'
  simp_all

/-- A function of an engine that reads neither STATUS nor RESULT answers alike. -/
theorem Engine.sameInputs.congr {α : Type} (f : Engine → α)
    (hf : ∀ (e : Engine) (st : Status) (r : Byte), f { e with status := st, result := r } = f e) : f e' = f e := by
  rw [h.eq_with, hf]

/-- STATUS, but for `INIT_DONE`, and RESULT are no inputs (R25). -/
theorem Engine.sameInputs.withOutputs {st st' : Status} (hst : st'.initDone = st.initDone) (r r' : Byte) :
    Engine.sameInputs { e with status := st, result := r } { e' with status := st', result := r' } :=
  have ho := h.operands
  ⟨hst, ⟨ho.k, ho.m, ho.blockBytes, ho.src, ho.dst, ho.len, ho.descAddr⟩, h.descRow⟩

/-- The row rewrite keeps two engines alike. -/
theorem Engine.sameInputs.rewriteRows (piv : List Nat) : (rewriteRows e piv).sameInputs (rewriteRows e' piv) := by
  have hrow : (Machine.rewriteRows e' piv).descRow = (Machine.rewriteRows e piv).descRow := by
    refine h.congr (fun e => (Machine.rewriteRows e piv).descRow) fun e st r => ?_
    rw [rewriteRows_descRow, rewriteRows_descRow]
    rfl
  rw [rewriteRows_eq e, rewriteRows_eq e', hrow]
  have ho := h.operands
  exact ⟨h.initDone, ⟨ho.k, ho.m, ho.blockBytes, ho.src, ho.dst, ho.len, ho.descAddr⟩, rfl⟩

end

/-! ### Outcomes that follow each other -/

/-- Where `r` answers a next state, `r'` answers one too, and the two are related by `Q`. -/
def Result.follows (Q : State → State → Prop) (r r' : Result) : Prop :=
  ∀ t, r = .next t → ∃ t', r' = .next t' ∧ Q t t'

theorem Result.follows_next {Q : State → State → Prop} {t t' : State} (h : Q t t') :
    Result.follows Q (.next t) (.next t') := by
  intro u hu
  obtain rfl := Host.Outcome.next.inj hu
  exact ⟨t', rfl, h⟩

theorem Result.follows_refused {Q : State → State → Prop} (x : Refusal) (r' : Result) :
    Result.follows Q (.refused x) r' := by
  intro t ht
  cases ht

/-- Completing two runs alike ends them alike, if RESULT already is. -/
theorem State.endsAlike_finish {s s' u u' : State} (hu : u.sameInputs u') (c : Completion)
    (hr : u'.engine.result = u.engine.result ∨
      (u.engine.result = s.engine.result ∧ u'.engine.result = s'.engine.result)) :
    s.endsAlike s' (u.finish c) (u'.finish c) where
  inputs := ⟨hu.engine.withOutputs (st := u.engine.status.complete c) (st' := u'.engine.status.complete c)
    hu.engine.initDone _ _, hu.mem, hu.platform, hu.freeNext⟩
  err := rfl
  errInfo := rfl
  result := hr

section
variable {s s' : State} (h : s.sameInputs s')
include h

theorem State.sameInputs.reports (c : Completion) : s.endsAlike s' (s.finish c) (s'.finish c) :=
  State.endsAlike_finish h c (.inr ⟨rfl, rfl⟩)

theorem State.sameInputs.answers (v : Byte) :
    s.endsAlike s' ((s.setResult v).finish .ok) ((s'.setResult v).finish .ok) :=
  State.endsAlike_finish (u := s.setResult v) (u' := s'.setResult v)
    ⟨h.engine.withOutputs h.engine.initDone v v, h.mem, h.platform, h.freeNext⟩ .ok (.inl rfl)

theorem State.sameInputs.stores (mem : Memory) :
    s.endsAlike s' ({ s with mem := mem }.finish .ok) ({ s' with mem := mem }.finish .ok) :=
  State.endsAlike_finish (u := { s with mem := mem }) (u' := { s' with mem := mem })
    ⟨h.engine, rfl, h.platform, h.freeNext⟩ .ok (.inr ⟨rfl, rfl⟩)

/-- SINGULAR draws the same free bytes from the same counter (log entries 7, 15). -/
theorem State.sameInputs.scrambleParity : s.scrambleParity.sameInputs s'.scrambleParity := by
  have hdraw : (s'.scrambleParity.mem, s'.scrambleParity.freeNext) = (s.scrambleParity.mem, s.scrambleParity.freeNext) := by
    rw [State.scrambleParity_draws, State.scrambleParity_draws, h.mem, h.freeNext]
    exact h.engine.congr (Engine.drawParity · (s.mem, s.freeNext)) fun _ _ _ => rfl
  obtain ⟨hmem, hfree⟩ := Prod.mk.inj hdraw
  exact ⟨by simpa using h.engine, hmem, by simpa using h.platform, hfree⟩

theorem requireInit_follows {body body' : Result} (hb : Result.follows (s.endsAlike s') body body') :
    Result.follows (s.endsAlike s') (requireInit s body) (requireInit s' body') := by
  have hinit := h.engine.initDone
  rcases requireInit_cases s body with ⟨hi, hr⟩ | ⟨hi, hr⟩
  · rw [hr, requireInit_before s' body' (hinit.trans hi)]
    exact Result.follows_next (h.reports .notInit)
  · rwa [hr, requireInit_after s' body' (hinit.trans hi)]

theorem withContract_follows {w w' : State} (hw : s.endsAlike s' w w') (written readOnly : List Region) :
    Result.follows (s.endsAlike s') (withContract s written readOnly w) (withContract s' written readOnly w') := by
  have htouch (kind : WindowKind) (regions : List Region) : s'.touches kind regions = s.touches kind regions := by
    unfold State.touches
    rw [h.platform]
  simp only [withContract_eq, htouch]
  split_ifs
  · exact Result.follows_refused _ _
  · exact Result.follows_refused _ _
  · exact Result.follows_next hw
  · exact Result.follows_refused _ _

/-! ### The commands -/

theorem execGfinv_follows (a : Byte) : Result.follows (s.endsAlike s') (execGfinv a s) (execGfinv a s') := by
  refine requireInit_follows h (Result.follows_next ?_)
  split
  · exact h.reports _
  · exact h.answers _

theorem execCoef_follows (row col : Byte) :
    Result.follows (s.endsAlike s') (execCoef row col s) (execCoef row col s') := by
  refine requireInit_follows h (Result.follows_next ?_)
  rw [h.engine.congr (coefCheck · row col) fun _ _ _ => rfl, h.engine.congr Engine.rows fun _ _ _ => rfl]
  cases coefCheck s.engine row col with
  | some c => exact h.reports _
  | none => exact h.answers _

theorem execMulacc_follows (c : Byte) : Result.follows (s.endsAlike s') (execMulacc c s) (execMulacc c s') := by
  refine requireInit_follows h ?_
  rw [h.engine.congr mulaccCheck fun _ _ _ => rfl, h.engine.congr Engine.dstRegion fun _ _ _ => rfl,
    h.engine.congr Engine.srcRegions fun _ _ _ => rfl, h.mem, h.engine.operands.dst, h.engine.operands.src,
    h.engine.operands.len]
  cases mulaccCheck s.engine with
  | some c => exact Result.follows_next (h.reports _)
  | none => exact withContract_follows h (h.stores _) _ _

theorem execEncode_follows : Result.follows (s.endsAlike s') (execEncode s) (execEncode s') := by
  refine requireInit_follows h ?_
  rw [h.engine.congr (fun e => blockCheck e (e.rows + e.parityRows)) fun _ _ _ => rfl,
    h.engine.congr Engine.recoveryBlocks fun _ _ _ => rfl, h.engine.congr Engine.dataBlocks fun _ _ _ => rfl, h.mem,
    h.engine.congr (encodeBlocks · s.mem) fun _ _ _ => rfl]
  cases blockCheck s.engine (s.engine.rows + s.engine.parityRows) with
  | some c => exact Result.follows_next (h.reports _)
  | none => exact withContract_follows h (h.stores _) _ _

theorem decodeOutcome_endsAlike : s.endsAlike s' (decodeOutcome s) (decodeOutcome s') := by
  unfold decodeOutcome
  rw [h.mem, h.engine.congr (solve · s.mem) fun _ _ _ => rfl]
  cases solve s.engine s.mem with
  | some z =>
    refine State.endsAlike_finish (u := { s with mem := z.mem, engine := rewriteRows s.engine z.piv })
      (u' := { s' with mem := z.mem, engine := rewriteRows s'.engine z.piv })
      ⟨h.engine.rewriteRows z.piv, rfl, h.platform, h.freeNext⟩ .ok (.inr ?_)
    exact ⟨rewriteRows_result s.engine z.piv, rewriteRows_result s'.engine z.piv⟩
  | none => exact State.endsAlike_finish h.scrambleParity (.decodeError .singular) (.inr ⟨by simp, by simp⟩)

theorem execDecode_follows : Result.follows (s.endsAlike s') (execDecode s) (execDecode s') := by
  refine requireInit_follows h ?_
  rw [h.engine.congr (fun e => blockCheck e e.rows) fun _ _ _ => rfl, h.engine.congr classifyError fun _ _ _ => rfl,
    h.engine.congr Engine.paritySlots fun _ _ _ => rfl, h.engine.congr Engine.parityBlocks fun _ _ _ => rfl,
    h.engine.congr Engine.originalBlocks fun _ _ _ => rfl]
  cases blockCheck s.engine s.engine.rows with
  | some c => exact Result.follows_next (h.reports _)
  | none =>
    cases classifyError s.engine with
    | some c => exact Result.follows_next (h.reports _)
    | none =>
      dsimp only
      split_ifs
      · exact Result.follows_next (h.reports _)
      · exact withContract_follows h (decodeOutcome_endsAlike h) _ _

/-- From states with the same inputs a command that answers a next state answers it in both, and the two are alike. -/
theorem exec_follows (i : Instr) : Result.follows (s.endsAlike s') (exec i s) (exec i s') := by
  cases i with
  | init =>
    exact Result.follows_next (State.endsAlike_finish (u := s.setInitDone) (u' := s'.setInitDone)
      ⟨h.engine.withOutputs (st := s.setInitDone.engine.status) (st' := s'.setInitDone.engine.status) rfl _ _,
        h.mem, h.platform, h.freeNext⟩ .ok (.inr ⟨rfl, rfl⟩))
  | gfadd a b => exact requireInit_follows h (Result.follows_next (h.answers _))
  | gfmul a b => exact requireInit_follows h (Result.follows_next (h.answers _))
  | gfinv a => exact execGfinv_follows h a
  | coef row col => exact execCoef_follows h row col
  | mulacc c => exact execMulacc_follows h c
  | encode => exact execEncode_follows h
  | decode => exact execDecode_follows h

end

/-! ### The statements -/

/-- Settles O56. -/
theorem statusAndResultAreNotInputs : Obligations.StatusAndResultAreNotInputs := by
  intro i s s' t hengine hmem hplat hfree h
  obtain ⟨t', h', hinputs, herr, hinfo, hresult⟩ := exec_follows ⟨hengine, hmem, hplat, hfree⟩ i t h
  exact ⟨t', h', hinputs.mem, hinputs.freeNext, hinputs.engine, herr, hinfo, hresult⟩

/-- Two runs that end alike, from states alike in `ANYERR` and RESULT too, end with equal engines. -/
theorem State.endsAlike.engine_eq {i : Instr} {s s' t t' : State} (ha : s.endsAlike s' t t') (he : CommandEnds s i t)
    (he' : CommandEnds s' i t') (hany : s'.engine.status.anyErr = s.engine.status.anyErr)
    (hres : s'.engine.result = s.engine.result) : t'.engine = t.engine := by
  obtain ⟨hinputs, herr, hinfo, hresult⟩ := ha
  have hres' : t'.engine.result = t.engine.result :=
    hresult.elim id fun hkept => by rw [hkept.1, hkept.2, hres]
  have hstatus : t'.engine.status = t.engine.status := by
    have hany' : t'.engine.status.anyErr = t.engine.status.anyErr := by
      rw [he'.anyErr_eq, he.anyErr_eq, hany, herr]
    have hinit := hinputs.engine.initDone
    generalize t'.engine.status = st' at *
    generalize t.engine.status = st at *
    cases st
    cases st'
    simp_all
  rw [hinputs.engine.eq_with, hstatus, hres']

/-- Settles O57: with another list of other engines the run ends alike, and in that list. -/
theorem enginesShareNothing : Obligations.EnginesShareNothing := by
  intro i s t others h
  have he := exec_ends h
  refine ⟨he.surroundingsKept.others, ?_⟩
  have hsame : s.sameInputs { s with others := others } :=
    ⟨⟨rfl, ⟨rfl, rfl, rfl, rfl, rfl, rfl, rfl⟩, rfl⟩, rfl, rfl, rfl⟩
  obtain ⟨t', h', ha⟩ := exec_follows hsame i t h
  have he' := exec_ends h'
  have hengine := ha.engine_eq he he' rfl rfl
  obtain ⟨-, hplat, hpend, hread⟩ := he.surroundingsKept
  obtain ⟨hothers', hplat', hpend', hread'⟩ := he'.surroundingsKept
  obtain ⟨-, hmem, -, hfree⟩ := ha.inputs
  rw [h']
  cases t
  cases t'
  simp_all

end Sys2Proof.Machine
end

section
/-! What stands between a command whose checks have passed and its work (R34, R35, R38): absent memory, overlapping regions,
and nothing else. The host's store and MULACC's range check (R41, R37). -/

namespace Sys2Proof.Machine

/-! ### The stops of a contract -/

/-- A region with an address in a window touches the window's kind. -/
theorem State.touches_of_contains {s : State} {regions : List Region} {r : Region} {w : Window} {a : Nat}
    (hw : w ∈ s.platform) (hwa : w.region.contains a) (hr : r ∈ regions) (hra : r.contains a) :
    s.touches w.kind regions = true := by
  have hmeet : ¬ r.disjoint w.region = true := fun hd => (Region.disjoint_iff _ _).1 hd a ⟨hra, hwa⟩
  unfold State.touches
  rw [List.any_eq_true]
  refine ⟨w, hw, ?_⟩
  rw [beq_self_eq_true, Bool.true_and, List.any_eq_true]
  exact ⟨r, hr, by simpa using hmeet⟩

/-- A region of the command with an address in absent memory stops it (R35). -/
theorem withContract_absent {s work : State} {written readOnly : List Region} {r : Region} {w : Window} {a : Nat}
    (hw : w ∈ s.platform) (hkind : w.kind = .absent) (hwa : w.region.contains a) (hr : r ∈ written ++ readOnly)
    (hra : r.contains a) : withContract s written readOnly work = .refused .unbackedMemory := by
  have htouch : s.touches .absent (written ++ readOnly) = true := hkind ▸ s.touches_of_contains hw hwa hr hra
  rw [withContract_eq, if_pos htouch]

/-- Over plain memory, regions that are not disjoint stop the command (R38). -/
theorem withContract_overlapping {s work : State} {written readOnly : List Region} (hp : s.platform = [])
    (hd : ¬ regionsDisjoint written readOnly = true) :
    withContract s written readOnly work = .refused .overlappingRegions := by
  rw [withContract_plain _ _ _ _ hp, if_neg hd]

/-! ### The buffer commands once their checks have passed -/

theorem exec_mulacc_checked {s : State} (hi : s.engine.status.initDone = true) (hc : mulaccCheck s.engine = none)
    (c : Byte) : exec (.mulacc c) s = withContract s [s.engine.dstRegion] s.engine.srcRegions
      ({ s with mem := mulAcc s.mem s.engine.dst.toNat s.engine.src.toNat c s.engine.len.toNat }.finish .ok) := by
  show execMulacc c s = _
  unfold execMulacc
  rw [requireInit_after _ _ hi, hc]

theorem exec_encode_checked {s : State} (h : BlocksReady s.engine (s.engine.rows + s.engine.parityRows)) :
    exec .encode s = withContract s s.engine.recoveryBlocks s.engine.dataBlocks
      ({ s with mem := encodeBlocks s.engine s.mem }.finish .ok) := by
  show execEncode s = _
  unfold execEncode
  rw [requireInit_after _ _ h.initDone, h.blockCheck]

theorem exec_decode_checked {s : State} (h : BlocksReady s.engine s.engine.rows) (hc : RowsClassified s.engine)
    {p : Nat} (hp : p ∈ s.engine.paritySlots) :
    exec .decode s = withContract s s.engine.parityBlocks s.engine.originalBlocks (decodeOutcome s) := by
  show execDecode s = _
  unfold execDecode
  rw [requireInit_after _ _ h.initDone, h.blockCheck, (classifyError_eq_none _).2 hc]
  dsimp only
  rw [if_neg (List.ne_nil_of_mem hp)]

/-! ### The regions of each buffer command (R36) -/

/-- MULACC's regions hold the source buffer, as the destination itself when `DST = SRC`. -/
theorem Engine.src_mem_regions (e : Engine) :
    (⟨e.src.toNat, e.len.toNat⟩ : Region) ∈ [e.dstRegion] ++ e.srcRegions := by
  unfold Engine.dstRegion Engine.srcRegions
  split
  · next heq => simp [heq]
  · simp

/-- ENCODE's regions hold the buffer of every entry below `k + m`. -/
theorem Engine.block_mem_encode (e : Engine) {n : Nat} (hn : n < e.rows + e.parityRows) :
    e.block n ∈ e.recoveryBlocks ++ e.dataBlocks := by
  rw [List.mem_append]
  by_cases hk : n < e.rows
  · exact .inr (List.mem_map_of_mem (List.mem_range.2 hk))
  · obtain ⟨j, rfl⟩ := Nat.exists_eq_add_of_le (Nat.not_lt.1 hk)
    exact .inl (List.mem_map.2 ⟨j, List.mem_range.2 (by omega), rfl⟩)

/-- DECODE's regions hold the buffer of every slot. -/
theorem Engine.block_mem_decode (e : Engine) {q : Nat} (hq : q < e.rows) :
    e.block q ∈ e.parityBlocks ++ e.originalBlocks := by
  rw [List.mem_append]
  by_cases hpar : e.rows ≤ e.rowOf q
  · exact .inl (List.mem_map_of_mem ((e.mem_paritySlots q).2 ⟨hq, hpar⟩))
  · exact .inr (List.mem_map_of_mem ((e.mem_originalSlots q).2 ⟨hq, Nat.not_le.1 hpar⟩))

/-! ### Commands that are refused -/

/-- Settles O32: disjoint regions would make each command ready, and a ready command's buffers share no address. -/
theorem overlapIsRefused : Obligations.OverlapIsRefused := by
  intro s hplat
  refine ⟨fun c a hi hne hsrc hdst hda hsa => ?_, fun j n a h hj hn hne hja hna => ?_,
    fun p q a h hcl hp hpar hq hne hpa hqa => ?_⟩
  · have hc := (mulaccCheck_eq_none _).2 ⟨hsrc, hdst⟩
    rw [exec_mulacc_checked hi hc]
    refine withContract_overlapping hplat fun hd => ?_
    exact (MulaccReady.of_checks hplat hi hc hd).overlap.resolve_left hne a ⟨hda, hsa⟩
  · rw [exec_encode_checked h]
    refine withContract_overlapping hplat fun hd => ?_
    exact (EncodeReady.of_checks hplat h.initDone h.blockCheck hd).overlap j hj n hn hne a ⟨hja, hna⟩
  · rw [exec_decode_checked h hcl ((s.engine.mem_paritySlots p).2 ⟨hp, hpar⟩)]
    refine withContract_overlapping hplat fun hd => ?_
    have hready := DecodeReady.of_checks hplat h.initDone h.blockCheck ((classifyError_eq_none _).2 hcl) hd
    exact hready.overlap p hp hpar q hq hne a ⟨hpa, hqa⟩

/-- Settles O33: the address lies in one of the command's regions, so its contract stops at the absent memory. -/
theorem absentMemoryStopsACommand : Obligations.AbsentMemoryStopsACommand := by
  intro s w a hw hkind hwa
  refine ⟨fun c hi hsrc hdst ha => ?_, fun n h hn ha => ?_, fun p q h hcl hp hpar hq ha => ?_⟩
  · rw [exec_mulacc_checked hi ((mulaccCheck_eq_none _).2 ⟨hsrc, hdst⟩)]
    rcases ha with hda | hsa
    · exact withContract_absent hw hkind hwa (r := s.engine.dstRegion) (by simp) hda
    · exact withContract_absent hw hkind hwa s.engine.src_mem_regions hsa
  · rw [exec_encode_checked h]
    exact withContract_absent hw hkind hwa (s.engine.block_mem_encode hn) ha
  · rw [exec_decode_checked h hcl ((s.engine.mem_paritySlots p).2 ⟨hp, hpar⟩)]
    exact withContract_absent hw hkind hwa (s.engine.block_mem_decode hq) ha

/-! ### Over plain memory nothing else stops a command -/

/-- The answer is a next state, or `P` holds and the answer is the refusal of overlapping regions. -/
def Result.completesUnless (P : Prop) (r : Result) : Prop :=
  (∃ t, r = .next t) ∨ (P ∧ r = .refused .overlappingRegions)

theorem Result.completesUnless_next (P : Prop) (t : State) : Result.completesUnless P (.next t) := .inl ⟨t, rfl⟩

/-- The `NOT_INIT` test completes by itself (R144). -/
theorem requireInit_completesUnless {P : Prop} {s : State} {body : Result} (hb : Result.completesUnless P body) :
    Result.completesUnless P (requireInit s body) := by
  rcases requireInit_cases s body with ⟨-, hr⟩ | ⟨-, hr⟩
  · exact .inl ⟨_, hr⟩
  · rwa [hr]

/-- Work under a contract over plain memory is done, unless its regions overlap (R38). -/
theorem withContract_completesUnless {P : Prop} {s work : State} {written readOnly : List Region}
    (hplat : s.platform = []) (hd : ¬ P → regionsDisjoint written readOnly = true) :
    Result.completesUnless P (withContract s written readOnly work) := by
  by_cases hdis : regionsDisjoint written readOnly = true
  · rw [withContract_plain _ _ _ _ hplat, if_pos hdis]
    exact Result.completesUnless_next _ _
  · exact .inr ⟨not_not.1 (mt hd hdis), withContract_overlapping hplat hdis⟩

theorem execMulacc_completesUnless {s : State} (hplat : s.platform = []) (c : Byte) :
    Result.completesUnless (s.commandOverlaps (.mulacc c)) (execMulacc c s) := by
  refine requireInit_completesUnless ?_
  split
  · exact Result.completesUnless_next _ _
  · exact withContract_completesUnless hplat (mulacc_regionsDisjoint s c)

theorem execEncode_completesUnless {s : State} (hplat : s.platform = []) :
    Result.completesUnless (s.commandOverlaps .encode) (execEncode s) := by
  refine requireInit_completesUnless ?_
  split
  · exact Result.completesUnless_next _ _
  · exact withContract_completesUnless hplat (encode_regionsDisjoint s)

theorem execDecode_completesUnless {s : State} (hplat : s.platform = []) :
    Result.completesUnless (s.commandOverlaps .decode) (execDecode s) := by
  refine requireInit_completesUnless ?_
  split
  · exact Result.completesUnless_next _ _
  split
  · exact Result.completesUnless_next _ _
  split
  · exact Result.completesUnless_next _ _
  · exact withContract_completesUnless hplat (decode_regionsDisjoint s)

/-- Settles O58: the commands without buffers always complete, and the others stop only at their contract. -/
theorem everyCommandCompletesOrOverlaps : Obligations.EveryCommandCompletesOrOverlaps := by
  intro i s hplat
  cases i with
  | init => exact Result.completesUnless_next _ _
  | gfadd a b => exact requireInit_completesUnless (Result.completesUnless_next _ _)
  | gfmul a b => exact requireInit_completesUnless (Result.completesUnless_next _ _)
  | gfinv a => exact requireInit_completesUnless (Result.completesUnless_next _ _)
  | coef row col => exact requireInit_completesUnless (Result.completesUnless_next _ _)
  | mulacc c => exact execMulacc_completesUnless hplat c
  | encode => exact execEncode_completesUnless hplat
  | decode => exact execDecode_completesUnless hplat

/-! ### MULACC's range check -/

/-- An error's `finish` writes its code and sub-cause and sets `ANYERR` (R141). -/
theorem State.finish_eq_withError (s : State) {c : Completion} (hc : c ≠ .ok) :
    s.finish c = s.withError c.code c.info := by
  have hcode : (c.code != 0) = true := bne_iff_ne.2 (mt c.code_eq_zero.1 hc)
  unfold State.finish State.withError Status.complete
  rw [hcode, Bool.or_true]

/-- A buffer that would pass the end of memory fails MULACC's check (R37, R95). -/
theorem mulaccCheck_eq_addrRange {e : Engine}
    (h : 2 ^ 32 < e.src.toNat + e.len.toNat ∨ 2 ^ 32 < e.dst.toNat + e.len.toNat) :
    mulaccCheck e = some .addrRange := by
  unfold mulaccCheck
  rw [Config.addressLimit_eq, if_pos h]

/-- Settles O31: the check fails with `ADDR_RANGE`, before the contract is asked. -/
theorem mulaccRangeError : Obligations.MulaccRangeError := by
  intro s c hi hrange
  show execMulacc c s = _
  unfold execMulacc
  rw [requireInit_after _ _ hi, mulaccCheck_eq_addrRange hrange]
  exact congrArg _ (s.finish_eq_withError (by simp))

/-! ### The host's store -/

/-- A store to plain memory is done (R34, R35, R41). -/
theorem State.hostStore_plain {s : State} {a : Word} (v : Byte) (h : s.plain ⟨a.toNat, 1⟩) :
    s.hostStore a v = .next { s with mem := Memory.write s.mem a.toNat v } := by
  have htouch (kind : WindowKind) : s.touches kind [⟨a.toNat, 1⟩] = false :=
    s.touches_eq_false kind _ fun r hr => List.mem_singleton.1 hr ▸ h
  unfold State.hostStore
  simp [htouch]

/-- Settles O11: the step is the store, and a write is read back at its own address alone. -/
theorem hostStoreIsVisible : Obligations.HostStoreIsVisible := by
  intro s a v rest hp hplain
  have hstep : step s = State.hostStore { s with pending := rest } a v := step_hostOperation hp rfl
  refine ⟨Memory.write s.mem a.toNat v, ?_, by simp, fun x hx => by simp [hx]⟩
  rw [hstep]
  exact State.hostStore_plain v hplain

end Sys2Proof.Machine
end

section
/-! The command word: its fields (R50), the fields of each instruction (R51), and what the decoder accepts (R53). -/

namespace Sys2Proof

/-! ### The fields of a word -/

theorem word_eq_fields_append (w : Word) :
    (wordFields w).rsv ++ (wordFields w).b ++ (wordFields w).a ++ (wordFields w).opc = w := by
  have hhigh : (wordFields w).rsv ++ (wordFields w).b = w.extractLsb' 16 16 :=
    BitVec.extractLsb'_append_extractLsb'_eq_extractLsb' rfl
  have hupper : w.extractLsb' 16 16 ++ (wordFields w).a = w.extractLsb' 8 24 :=
    BitVec.extractLsb'_append_extractLsb'_eq_extractLsb' rfl
  rw [hhigh, hupper]
  exact BitVec.extractLsb'_append_extractLsb' (w := 24) (len := 8)

/-- The four fields cover the word (R50). -/
theorem wordFields_injective : Function.Injective wordFields := by
  intro v w h
  rw [← word_eq_fields_append v, h, word_eq_fields_append w]

theorem wordFields_and (v w : Word) :
    wordFields (v &&& w) = ⟨(wordFields v).opc &&& (wordFields w).opc, (wordFields v).a &&& (wordFields w).a,
      (wordFields v).b &&& (wordFields w).b, (wordFields v).rsv &&& (wordFields w).rsv⟩ := by
  simp [wordFields, BitVec.extractLsb'_and]

theorem packWord_eq_append (opc a b : Byte) : packWord opc a b = (b ++ a ++ opc).setWidth Config.regWidth := by
  rw [BitVec.setWidth_append_append_eq_shiftLeft_setWidth_or, packWord, BitVec.or_comm, BitVec.or_comm (opc.setWidth _),
    BitVec.or_assoc]

@[simp] theorem wordFields_packWord (opc a b : Byte) : wordFields (packWord opc a b) = ⟨opc, a, b, 0⟩ := by
  have hopc : (packWord opc a b).extractLsb' 0 8 = opc := by
    rw [packWord_eq_append, BitVec.extractLsb'_setWidth_of_le (by decide), BitVec.extractLsb'_append_eq_right]
  have ha : (packWord opc a b).extractLsb' 8 8 = a := by
    rw [packWord_eq_append, BitVec.extractLsb'_setWidth_of_le (by decide),
      BitVec.extractLsb'_append_eq_of_le (by decide), BitVec.extractLsb'_append_eq_right]
  have hb : (packWord opc a b).extractLsb' 16 8 = b := by
    rw [packWord_eq_append, BitVec.extractLsb'_setWidth_of_le (by decide),
      BitVec.extractLsb'_append_eq_of_le (by decide), BitVec.extractLsb'_append_eq_left]
  have hrsv : (packWord opc a b).extractLsb' 24 8 = 0 := by
    rw [packWord_eq_append]
    ext j hj
    simp
  unfold wordFields
  rw [hopc, ha, hb, hrsv]

/-- The encoder writes each field at its place (R50, R55). -/
theorem wordFields_encodeWord (i : Instr) : wordFields (encodeWord i) = i.fields := by
  cases i <;> exact wordFields_packWord _ _ _

/-! ### What the decoder accepts -/

theorem decodeNoOperand_eq_ok {f : Fields} {i j : Instr} :
    decodeNoOperand f i = .ok j ↔ f.a = 0 ∧ f.b = 0 ∧ i = j := by
  unfold decodeNoOperand
  split_ifs <;> simp_all

theorem decodeOneOperand_eq_ok {f : Fields} {i : Byte → Instr} {j : Instr} :
    decodeOneOperand f i = .ok j ↔ f.b = 0 ∧ i f.a = j := by
  unfold decodeOneOperand
  split_ifs <;> simp_all

theorem decodeFields_fields (i : Instr) : decodeFields i.fields = .ok i := by
  cases i <;> rfl

/-- The decoder accepts no fields but those R51 gives the instruction it answers. -/
theorem fields_of_decodeFields {f : Fields} {i : Instr} (h : decodeFields f = .ok i) : f = i.fields := by
  obtain ⟨opc, a, b, rsv⟩ := f
  have opcode {n : Byte} (hn : opc.toNat = n.toNat) : opc = n := BitVec.eq_of_toNat_eq hn
  unfold decodeFields at h
  split at h
  · cases h
  next hrsv =>
    obtain rfl := not_not.1 hrsv
    split at h
    next hopc =>
      obtain ⟨rfl, rfl, rfl⟩ := decodeNoOperand_eq_ok.1 h
      rw [opcode (n := 0x01) hopc]; rfl
    next hopc => cases h; rw [opcode (n := 0x02) hopc]; rfl
    next hopc => cases h; rw [opcode (n := 0x03) hopc]; rfl
    next hopc =>
      obtain ⟨rfl, rfl⟩ := decodeOneOperand_eq_ok.1 h
      rw [opcode (n := 0x04) hopc]; rfl
    next hopc => cases h; rw [opcode (n := 0x05) hopc]; rfl
    next hopc =>
      obtain ⟨rfl, rfl⟩ := decodeOneOperand_eq_ok.1 h
      rw [opcode (n := 0x06) hopc]; rfl
    next hopc =>
      obtain ⟨rfl, rfl, rfl⟩ := decodeNoOperand_eq_ok.1 h
      rw [opcode (n := 0x07) hopc]; rfl
    next hopc =>
      obtain ⟨rfl, rfl, rfl⟩ := decodeNoOperand_eq_ok.1 h
      rw [opcode (n := 0x08) hopc]; rfl
    next => cases h

theorem decodeWord_eq_ok_iff {w : Word} {i : Instr} : decodeWord w = .ok i ↔ wordFields w = i.fields :=
  ⟨fields_of_decodeFields, fun h => (congrArg decodeFields h).trans (decodeFields_fields i)⟩

/-- Settles O1: the encoder's word has the fields of the instruction, and the decoder accepts them. -/
theorem decodeOfEncodeIsTheInstruction : Obligations.DecodeOfEncodeIsTheInstruction :=
  fun i => decodeWord_eq_ok_iff.2 (wordFields_encodeWord i)

/-- Settles O2: both words have the fields of the instruction, and the fields are the whole word. -/
theorem encodeOfDecodeIsTheWord : Obligations.EncodeOfDecodeIsTheWord := by
  intro w i h
  apply wordFields_injective
  rw [wordFields_encodeWord, decodeWord_eq_ok_iff.1 h]

/-- Settles O5: the legal words are the encoder's words of their commands. -/
theorem wordsOfTheSpecDecode : Obligations.WordsOfTheSpecDecode := by
  have encoded := decodeOfEncodeIsTheInstruction
  exact ⟨encoded .init, encoded (.gfadd 0x53 0xCA), encoded (.gfmul 0x02 0x80), encoded (.gfinv 0x8E),
    encoded (.coef 4 3), encoded (.mulacc 0xFF), encoded .encode, encoded .decode,
    by decide, by decide, by decide, by decide⟩

/-! ### The rows of the opcode map -/

theorem selectsRow_encodeWord (i : Instr) : selectsRow (encodeWord i) i = true := by
  cases i with
  | init => exact Laws.TableWord.init
  | gfadd a b => exact Laws.TableWord.gfadd a b
  | gfmul a b => exact Laws.TableWord.gfmul a b
  | gfinv a => exact Laws.TableWord.gfinv a
  | coef row col => exact Laws.TableWord.coef row col
  | mulacc scalar => exact Laws.TableWord.mulacc scalar
  | encode => exact Laws.TableWord.encode
  | decode => exact Laws.TableWord.decode

theorem Byte.and_full (x : Byte) : x &&& 0xFF = x := BitVec.and_allOnes

/-- The masks of R51 keep `OPC` and `RSV`; of an operand they keep what `am` and `bm` say. -/
theorem wordFields_of_masked {w mask : Word} {opc am bm : Byte} (hmask : wordFields mask = ⟨0xFF, am, bm, 0xFF⟩)
    (h : w &&& mask = packWord opc 0 0) :
    wordFields w = ⟨opc, (wordFields w).a, (wordFields w).b, 0⟩ ∧
      (wordFields w).a &&& am = 0 ∧ (wordFields w).b &&& bm = 0 := by
  have hf := congrArg wordFields h
  rw [wordFields_and, hmask, wordFields_packWord, Byte.and_full, Byte.and_full] at hf
  obtain ⟨hopc, ha, hb, hrsv⟩ := Fields.mk.inj hf
  exact ⟨by rw [← hopc, ← hrsv], ha, hb⟩

theorem wordFields_of_masked_noOperand {w : Word} {opc : Byte} (h : w &&& 0xFFFFFFFF = packWord opc 0 0) :
    wordFields w = ⟨opc, 0, 0, 0⟩ := by
  obtain ⟨hf, ha, hb⟩ := wordFields_of_masked (am := 0xFF) (bm := 0xFF) (by decide) h
  rwa [← Byte.and_full (wordFields w).a, ha, ← Byte.and_full (wordFields w).b, hb] at hf

theorem wordFields_of_masked_oneOperand {w : Word} {opc : Byte} (h : w &&& 0xFFFF00FF = packWord opc 0 0) :
    wordFields w = ⟨opc, (wordFields w).a, 0, 0⟩ := by
  obtain ⟨hf, -, hb⟩ := wordFields_of_masked (am := 0) (bm := 0xFF) (by decide) h
  rwa [← Byte.and_full (wordFields w).b, hb] at hf

theorem wordFields_of_masked_twoOperands {w : Word} {opc : Byte} (h : w &&& 0xFF0000FF = packWord opc 0 0) :
    wordFields w = ⟨opc, (wordFields w).a, (wordFields w).b, 0⟩ :=
  (wordFields_of_masked (am := 0) (bm := 0) (by decide) h).1

/-- `i` with its operands taken from the fields of a word. -/
def Instr.withOperands (a b : Byte) : Instr → Instr
  | .init => .init
  | .gfadd _ _ => .gfadd a b
  | .gfmul _ _ => .gfmul a b
  | .gfinv _ => .gfinv a
  | .coef _ _ => .coef a b
  | .mulacc _ => .mulacc a
  | .encode => .encode
  | .decode => .decode

theorem tableRow_withOperands (a b : Byte) (i : Instr) : tableRow (i.withOperands a b) = tableRow i := by
  cases i <;> rfl

/-- A word that selects a row has the row's fields, with operands of its own where the row has operands. -/
theorem fields_of_selectsRow {w : Word} {i : Instr} (h : selectsRow w i = true) :
    wordFields w = (i.withOperands (wordFields w).a (wordFields w).b).fields := by
  replace h : w &&& (tableRow i).2 = (tableRow i).1 := beq_iff_eq.1 h
  cases i with
  | init | encode | decode => exact wordFields_of_masked_noOperand h
  | gfinv | mulacc => exact wordFields_of_masked_oneOperand h
  | gfadd | gfmul | coef => exact wordFields_of_masked_twoOperands h

theorem decodeWord_of_selectsRow {w : Word} {i : Instr} (h : selectsRow w i = true) :
    ∃ j, decodeWord w = .ok j ∧ tableRow j = tableRow i :=
  ⟨_, decodeWord_eq_ok_iff.2 (fields_of_selectsRow h), tableRow_withOperands _ _ i⟩

theorem tableRow_injOn : ∀ i ∈ tableRows, ∀ j ∈ tableRows, tableRow i = tableRow j → i = j := by
  decide

/-- Settles O3: a selected row fixes every field but the operands, so the decoder accepts the word; and since it answers
one instruction, one word has one row. -/
theorem wordSelectsTheRowItMatches : Obligations.WordSelectsTheRowItMatches := by
  refine ⟨fun w i h => ?_, fun w i _ h => decodeWord_of_selectsRow h, fun w i hi j hj hwi hwj => ?_⟩
  · rw [← encodeOfDecodeIsTheWord w i h]
    exact selectsRow_encodeWord i
  · obtain ⟨x, hx, hxi⟩ := decodeWord_of_selectsRow hwi
    obtain ⟨y, hy, hyj⟩ := decodeWord_of_selectsRow hwj
    obtain rfl : x = y := Except.ok.inj (hx.symm.trans hy)
    exact tableRow_injOn i hi j hj (hxi.symm.trans hyj)

/-! ### Illegal words -/

theorem Fields.legal_iff (f : Fields) :
    f.legal = true ↔ (1 ≤ f.opc.toNat ∧ f.opc.toNat ≤ 8) ∧ f.rsv = 0 ∧
      (f.a = 0 ∨ ¬ (f.opc = 0x01 ∨ f.opc = 0x07 ∨ f.opc = 0x08)) ∧
      (f.b = 0 ∨ ¬ (f.opc = 0x01 ∨ f.opc = 0x04 ∨ f.opc = 0x06 ∨ f.opc = 0x07 ∨ f.opc = 0x08)) := by
  simp [Fields.legal, Fields.opcodeKnown, Fields.reservedClear, Fields.operandAClear, Fields.operandBClear, and_assoc]

/-- The conditions of R53, as the spec lists them, are what `Fields.legal` denies. -/
theorem Fields.not_legal_iff (f : Fields) :
    ¬ f.legal = true ↔ f.opc = 0x00 ∨ 0x09 ≤ f.opc.toNat ∨ f.rsv ≠ 0 ∨
      (f.a ≠ 0 ∧ (f.opc = 0x01 ∨ f.opc = 0x07 ∨ f.opc = 0x08)) ∨
      (f.b ≠ 0 ∧ (f.opc = 0x01 ∨ f.opc = 0x04 ∨ f.opc = 0x06 ∨ f.opc = 0x07 ∨ f.opc = 0x08)) := by
  have hrange : (1 ≤ f.opc.toNat ∧ f.opc.toNat ≤ 8) ↔ ¬ (f.opc = 0x00 ∨ 0x09 ≤ f.opc.toNat) := by bv_omega
  rw [Fields.legal_iff, hrange]
  tauto

theorem opcode_cases {opc : Byte} (hlo : 1 ≤ opc.toNat) (hhi : opc.toNat ≤ 8) :
    opc = 1 ∨ opc = 2 ∨ opc = 3 ∨ opc = 4 ∨ opc = 5 ∨ opc = 6 ∨ opc = 7 ∨ opc = 8 := by
  bv_omega

/-- Legal fields are those of some instruction. -/
theorem Fields.legal_iff_exists {f : Fields} : f.legal = true ↔ ∃ i : Instr, f = i.fields := by
  refine ⟨fun h => ?_, fun ⟨i, hi⟩ => hi ▸ Laws.wellFormed_all i⟩
  obtain ⟨opc, a, b, rsv⟩ := f
  obtain ⟨⟨hlo, hhi⟩, rfl, ha, hb⟩ := (Fields.legal_iff _).1 h
  rcases opcode_cases hlo hhi with rfl | rfl | rfl | rfl | rfl | rfl | rfl | rfl
  · exact ⟨.init, by simp_all [Instr.fields]⟩
  · exact ⟨.gfadd a b, rfl⟩
  · exact ⟨.gfmul a b, rfl⟩
  · exact ⟨.gfinv a, by simp_all [Instr.fields]⟩
  · exact ⟨.coef a b, rfl⟩
  · exact ⟨.mulacc a, by simp_all [Instr.fields]⟩
  · exact ⟨.encode, by simp_all [Instr.fields]⟩
  · exact ⟨.decode, by simp_all [Instr.fields]⟩

theorem decodeWord_ok_iff_legal {w : Word} : (∃ i, decodeWord w = .ok i) ↔ (wordFields w).legal = true := by
  simp only [decodeWord_eq_ok_iff, Fields.legal_iff_exists]

theorem decodeWord_error_of_illegal {w : Word} (h : ¬ (wordFields w).legal = true) : ∃ x, decodeWord w = .error x := by
  cases hw : decodeWord w with
  | ok i => exact absurd (decodeWord_ok_iff_legal.1 ⟨i, hw⟩) h
  | error x => exact ⟨x, rfl⟩

end Sys2Proof

namespace Sys2Proof.Machine

/-- Settles O4: the decoder refuses the word, and the step ends it with `ILLEGAL_CMD`. -/
theorem illegalWordOnlyReports : Obligations.IllegalWordOnlyReports := by
  intro s w rest hp opc a b rsv illegal
  have hillegal : ¬ (wordFields w).legal = true ↔ illegal := Fields.not_legal_iff (wordFields w)
  refine ⟨fun h => ?_, fun h => decodeWord_ok_iff_legal.2 (not_not.1 (mt hillegal.1 h))⟩
  obtain ⟨x, hx⟩ := decodeWord_error_of_illegal (hillegal.2 h)
  rw [step_illegal hp hx, State.finish_eq_withError _ (by simp)]
  rfl

end Sys2Proof.Machine
end

section
/-! The laws of field multiplication (R72, R73). The bit-serial product is additive in each factor, and a byte is the XOR of
its set bits; so an equation between additive functions holds of every byte if it holds of the eight bits. Proofs that
evaluate products in the kernel are kept in their place by the option, as `Engine.readReg_writeReg_numbered` is. -/

namespace Sys2Proof.Machine

/-! ### Additive functions of a byte -/

/-- A function that takes sums in the field (R71) to sums. -/
def XorAdditive {m n : Nat} (f : BitVec m → BitVec n) : Prop := ∀ x y, f (x ^^^ y) = f x ^^^ f y

/-- The sum of the `w i` over the set bits `i` of a byte. -/
def sumOverBits {n : Nat} (b : Byte) (w : Nat → BitVec n) : BitVec n :=
  (List.range 8).foldl (fun acc i => if b.getLsbD i then acc ^^^ w i else acc) 0

theorem getLsbD_ite_xor {n : Nat} (p : Bool) (x y : BitVec n) (j : Nat) :
    (if p then x ^^^ y else x).getLsbD j = (x.getLsbD j ^^ (p && y.getLsbD j)) := by
  cases p <;> simp

/-- A byte is the sum of its set bits. -/
theorem Byte.eq_sumOverBits (b : Byte) : b = sumOverBits b fun i => 1#8 <<< i := by
  refine BitVec.eq_of_getLsbD_eq fun j hj => ?_
  simp only [sumOverBits, List.range, List.range.loop, List.foldl, getLsbD_ite_xor]
  interval_cases j <;> simp

theorem sumOverBits_congr {n : Nat} (b : Byte) {w w' : Nat → BitVec n} (h : ∀ i < 8, w i = w' i) :
    sumOverBits b w = sumOverBits b w' :=
  List.foldl_ext _ _ _ fun _ i hi => by rw [h i (List.mem_range.1 hi)]

theorem XorAdditive.map_zero {m n : Nat} {f : BitVec m → BitVec n} (hf : XorAdditive f) : f 0 = 0 := by
  simpa using hf 0 0

theorem XorAdditive.comp {l m n : Nat} {f : BitVec m → BitVec n} {g : BitVec l → BitVec m} (hf : XorAdditive f)
    (hg : XorAdditive g) : XorAdditive fun x => f (g x) :=
  fun x y => (congrArg f (hg x y)).trans (hf _ _)

theorem XorAdditive.map_sumOverBits {m n : Nat} {f : BitVec m → BitVec n} (hf : XorAdditive f) (b : Byte)
    (w : Nat → BitVec m) : f (sumOverBits b w) = sumOverBits b fun i => f (w i) := by
  unfold sumOverBits
  rw [← hf.map_zero]
  refine (List.foldl_hom f fun acc i => ?_).symm
  split
  · exact (hf acc (w i)).symm
  · rfl

/-- An additive function is the sum of its values on the set bits. -/
theorem XorAdditive.eq_sumOverBits {n : Nat} {f : Byte → BitVec n} (hf : XorAdditive f) (b : Byte) :
    f b = sumOverBits b fun i => f (1#8 <<< i) := by
  conv_lhs => rw [Byte.eq_sumOverBits b]
  exact hf.map_sumOverBits b _

/-- Additive functions that agree on the eight bits are equal. -/
theorem XorAdditive.eq_of_bits {n : Nat} {f g : Byte → BitVec n} (hf : XorAdditive f) (hg : XorAdditive g)
    (h : ∀ i < 8, f (1#8 <<< i) = g (1#8 <<< i)) (b : Byte) : f b = g b := by
  rw [hf.eq_sumOverBits, hg.eq_sumOverBits]
  exact sumOverBits_congr b h

/-- A fold is additive in its start when every round is. -/
theorem xorAdditive_foldl {n : Nat} {round : BitVec n → Nat → BitVec n} (l : List Nat)
    (h : ∀ i, XorAdditive fun x => round x i) : XorAdditive fun x => l.foldl round x :=
  fun x y => List.foldl_hom₂ l (· ^^^ ·) round round round x y fun x y i => (h i x y).symm

/-! ### The bit-serial product is additive in each factor -/

/-- A condition that is a sum selects the sum of what the two conditions select. -/
theorem ite_xor_cond {n : Nat} (p q : Bool) (c : BitVec n) :
    (if p ^^ q then c else 0) = (if p then c else 0) ^^^ (if q then c else 0) := by
  cases p <;> cases q <;> simp

theorem ite_xor_value {n : Nat} (p : Bool) (c d : BitVec n) :
    (if p then c ^^^ d else 0) = (if p then c else 0) ^^^ (if p then d else 0) := by
  cases p <;> simp

/-- A round of R72's loop as one sum: the shift, the reduction, the first factor. -/
theorem gmulRound_eq (a b : Byte) (acc : BitVec 9) (i : Nat) :
    gmulRound a b acc i = acc <<< 1 ^^^ (if (acc <<< 1).getLsbD 8 then Config.poly else 0) ^^^
      (if b.getLsbD i then a.setWidth 9 else 0) := by
  unfold gmulRound
  dsimp only
  split
  · split <;> simp
  · split <;> simp

theorem gmulRound_xor_left (a a' b : Byte) (x y : BitVec 9) (i : Nat) :
    gmulRound (a ^^^ a') b (x ^^^ y) i = gmulRound a b x i ^^^ gmulRound a' b y i := by
  simp only [gmulRound_eq, BitVec.shiftLeft_xor_distrib, BitVec.getLsbD_xor, BitVec.setWidth_xor, ite_xor_cond,
    ite_xor_value]
  ac_rfl

theorem gmulRound_xor_right (a b b' : Byte) (x y : BitVec 9) (i : Nat) :
    gmulRound a (b ^^^ b') (x ^^^ y) i = gmulRound a b x i ^^^ gmulRound a b' y i := by
  simp only [gmulRound_eq, BitVec.shiftLeft_xor_distrib, BitVec.getLsbD_xor, ite_xor_cond]
  ac_rfl

/-- Products whose rounds add up add up. -/
theorem gmul_eq_xor_of_rounds {a b a' b' a'' b'' : Byte}
    (h : ∀ x y i, gmulRound a'' b'' (x ^^^ y) i = gmulRound a b x i ^^^ gmulRound a' b' y i) :
    gmul a'' b'' = gmul a b ^^^ gmul a' b' := by
  have hfold := List.foldl_hom₂ [7, 6, 5, 4, 3, 2, 1, 0] (· ^^^ ·) (gmulRound a b) (gmulRound a' b') (gmulRound a'' b'')
    0 0 fun x y i => (h x y i).symm
  exact (congrArg _ hfold).trans BitVec.setWidth_xor

theorem xor_gmul (a a' b : Byte) : gmul (a ^^^ a') b = gmul a b ^^^ gmul a' b :=
  gmul_eq_xor_of_rounds (gmulRound_xor_left a a' b)

theorem gmul_xor (a b b' : Byte) : gmul a (b ^^^ b') = gmul a b ^^^ gmul a b' :=
  gmul_eq_xor_of_rounds (gmulRound_xor_right a b b')

theorem xorAdditive_gmul_left (b : Byte) : XorAdditive fun a => gmul a b := fun a a' => xor_gmul a a' b

theorem xorAdditive_gmul_right (a : Byte) : XorAdditive (gmul a) := gmul_xor a

/-! ### Neutral elements and commutativity -/

@[simp] theorem gmul_zero (a : Byte) : gmul a 0 = 0 := (xorAdditive_gmul_right a).map_zero

@[simp] theorem zero_gmul (a : Byte) : gmul 0 a = 0 := (xorAdditive_gmul_left a).map_zero

@[simp] theorem gmul_one (a : Byte) : gmul a 1 = a :=
  (xorAdditive_gmul_left 1).eq_of_bits (g := fun a => a) (fun _ _ => rfl) (by decide +kernel) a

set_option Elab.async false in
theorem gmul_comm (a b : Byte) : gmul a b = gmul b a := by
  refine (xorAdditive_gmul_left b).eq_of_bits (xorAdditive_gmul_right b) (fun i hi => ?_) a
  refine (xorAdditive_gmul_right _).eq_of_bits (xorAdditive_gmul_left _) (fun j hj => ?_) b
  have bits : ∀ i < 8, ∀ j < 8, gmul (1#8 <<< i) (1#8 <<< j) = gmul (1#8 <<< j) (1#8 <<< i) := by decide +kernel
  exact bits i hi j hj

@[simp] theorem one_gmul (a : Byte) : gmul 1 a = a := by rw [gmul_comm, gmul_one]

/-! ### Multiplication by x, and associativity -/

theorem xtime_eq (a : Byte) :
    xtime a = a <<< 1 ^^^ (if a.getLsbD 7 then (Config.poly.setWidth 8 : Byte) else 0) := rfl

theorem xorAdditive_xtime : XorAdditive xtime := fun x y => by
  simp only [xtime_eq, BitVec.shiftLeft_xor_distrib, BitVec.getLsbD_xor, ite_xor_cond]
  ac_rfl

theorem gmul_two (a : Byte) : gmul a 0x02 = xtime a :=
  (xorAdditive_gmul_left 0x02).eq_of_bits xorAdditive_xtime (by decide +kernel) a

set_option Elab.async false in
/-- Multiplication by x moves out of the second factor. -/
theorem gmul_xtime (a b : Byte) : gmul a (xtime b) = xtime (gmul a b) := by
  refine (xorAdditive_gmul_left _).eq_of_bits (xorAdditive_xtime.comp (xorAdditive_gmul_left b)) (fun i hi => ?_) a
  refine ((xorAdditive_gmul_right _).comp xorAdditive_xtime).eq_of_bits
    (xorAdditive_xtime.comp (xorAdditive_gmul_right _)) (fun j hj => ?_) b
  have bits : ∀ i < 8, ∀ j < 8, gmul (1#8 <<< i) (xtime (1#8 <<< j)) = xtime (gmul (1#8 <<< i) (1#8 <<< j)) := by
    decide +kernel
  exact bits i hi j hj

/-- Multiplication by a power of x is repeated multiplication by x. -/
theorem gmul_bit (a : Byte) {i : Nat} (hi : i < 8) : gmul a (1#8 <<< i) = xtime^[i] a := by
  have bits : ∀ i < 8, 1#8 <<< i = xtime^[i] 1 := by decide +kernel
  have hcomm : Function.Semiconj (gmul a) xtime xtime := gmul_xtime a
  rw [bits i hi, (hcomm.iterate_right i).eq, gmul_one]

theorem gmul_assoc (a b c : Byte) : gmul (gmul a b) c = gmul a (gmul b c) := by
  refine (xorAdditive_gmul_right _).eq_of_bits
    ((xorAdditive_gmul_right a).comp (xorAdditive_gmul_right b)) (fun i hi => ?_) c
  have hcomm : Function.Semiconj (gmul a) xtime xtime := gmul_xtime a
  rw [gmul_bit _ hi, gmul_bit _ hi, (hcomm.iterate_right i).eq]

end Sys2Proof.Machine
end

section
/-! The XOR network (R97), the full table (R74) and the carry-less form (R72) of the product. -/

namespace Sys2Proof.Machine

/-! ### The XOR network and the full table -/

theorem gmulNetwork_eq_sumOverBits (s c : Byte) : gmulNetwork s c = sumOverBits s fun i => gmul (1#8 <<< i) c := rfl

theorem gmulNetwork_eq_gmul (s c : Byte) : gmulNetwork s c = gmul s c :=
  (gmulNetwork_eq_sumOverBits s c).trans ((xorAdditive_gmul_left c).eq_sumOverBits s).symm

theorem gmulTable_eq_gmul (a b : Byte) : gmulTable a b = gmul a b := by
  have hb : b.toNat < 256 := b.isLt
  simp [gmulTable, productRow, hb, gmul_eq_gmulSerial]

/-! ### The carry-less form -/

/-- One round of the reduction of R72's second form, for bit `i` of the carry-less product. -/
def reduceRound (p : BitVec 15) (i : Nat) : BitVec 15 :=
  if p.getLsbD i then p ^^^ (Config.poly.setWidth 15 <<< (i - 8)) else p

/-- The reduction of R72's second form. -/
def reduceProduct (p : BitVec 15) : Byte := ([14, 13, 12, 11, 10, 9, 8].foldl reduceRound p).setWidth 8

theorem gmulCarryless_eq (a b : Byte) :
    gmulCarryless a b = reduceProduct (sumOverBits b fun i => a.setWidth 15 <<< i) := rfl

theorem reduceRound_eq (p : BitVec 15) (i : Nat) : reduceRound p i =
    p ^^^ (if p.getLsbD i then Config.poly.setWidth 15 <<< (i - 8) else 0) := by
  unfold reduceRound
  split <;> simp

theorem xorAdditive_reduceRound (i : Nat) : XorAdditive fun p => reduceRound p i := fun x y => by
  simp only [reduceRound_eq, BitVec.getLsbD_xor, ite_xor_cond]
  ac_rfl

theorem xorAdditive_setWidth (m n : Nat) : XorAdditive fun x : BitVec m => x.setWidth n :=
  fun _ _ => BitVec.setWidth_xor

theorem xorAdditive_shiftLeft (n i : Nat) : XorAdditive fun x : BitVec n => x <<< i :=
  fun x y => BitVec.shiftLeft_xor_distrib x y i

theorem xorAdditive_reduceProduct : XorAdditive reduceProduct :=
  (xorAdditive_setWidth 15 8).comp (xorAdditive_foldl _ xorAdditive_reduceRound)

set_option Elab.async false in
/-- Reducing a shifted factor multiplies it by the power of x. -/
theorem reduceProduct_shiftLeft (a : Byte) {i : Nat} (hi : i < 8) :
    reduceProduct (a.setWidth 15 <<< i) = gmul a (1#8 <<< i) := by
  refine (xorAdditive_reduceProduct.comp
    ((xorAdditive_shiftLeft 15 i).comp (xorAdditive_setWidth 8 15))).eq_of_bits (xorAdditive_gmul_left _) ?_ a
  have bits : ∀ i < 8, ∀ j < 8, reduceProduct ((1#8 <<< j).setWidth 15 <<< i) = gmul (1#8 <<< j) (1#8 <<< i) := by
    decide +kernel
  exact bits i hi

theorem gmulCarryless_eq_gmul (a b : Byte) : gmulCarryless a b = gmul a b := by
  rw [gmulCarryless_eq, xorAdditive_reduceProduct.map_sumOverBits, (xorAdditive_gmul_right a).eq_sumOverBits]
  exact sumOverBits_congr b fun i hi => reduceProduct_shiftLeft a hi

end Sys2Proof.Machine
end

section
/-! The powers of `GEN` and their logarithms (R74), and the inverse (R75). -/

namespace Sys2Proof.Machine

/-! ### The powers of x -/

theorem expTable_succ (i : Nat) : expTable (i + 1) = xtime (expTable i) := gmul_two (expTable i)

theorem expTable_eq_iterate (i : Nat) : expTable i = xtime^[i] 1 := by
  induction i with
  | zero => rfl
  | succ i ih => rw [expTable_succ, ih, Function.iterate_succ_apply']

theorem expTable_add (i j : Nat) : expTable (i + j) = gmul (expTable i) (expTable j) := by
  induction j with
  | zero => exact (gmul_one _).symm
  | succ j ih => rw [← Nat.add_assoc, expTable_succ, expTable_succ, ih, gmul_xtime]

set_option Elab.async false in
/-- `GEN` is primitive (R74): its order divides 255 and is none of the proper divisors. -/
theorem minimalPeriod_xtime : Function.minimalPeriod xtime 1 = 255 := by
  have hperiod : Function.IsPeriodicPt xtime 255 (1 : Byte) := by
    show xtime^[255] 1 = 1
    decide +kernel
  have hproper : ∀ d ∈ Nat.divisors 255, xtime^[d] 1 = 1 → d = 255 := by decide +kernel
  exact hproper _ (Nat.mem_divisors.2 ⟨hperiod.minimalPeriod_dvd, by decide⟩)
    (Function.isPeriodicPt_minimalPeriod xtime 1)

theorem expTable_mod (i : Nat) : expTable (i % 255) = expTable i := by
  rw [expTable_eq_iterate, expTable_eq_iterate, ← minimalPeriod_xtime, Function.iterate_mod_minimalPeriod_eq]

theorem expTable_255 : expTable 255 = 1 := (expTable_mod 255).symm

theorem expTable_injective {i j : Nat} (hi : i < 255) (hj : j < 255) (h : expTable i = expTable j) : i = j := by
  rw [expTable_eq_iterate, expTable_eq_iterate] at h
  exact (Function.iterate_eq_iterate_iff_of_lt_minimalPeriod (minimalPeriod_xtime ▸ hi)
    (minimalPeriod_xtime ▸ hj)).1 h

/-- Every power of `GEN` is a factor of a power that is 1. -/
theorem expTable_ne_zero (i : Nat) : expTable i ≠ 0 := by
  intro h
  have h255 : expTable (255 * i) = gmul (expTable i) (expTable (254 * i)) := by
    rw [← expTable_add]
    congr 1
    omega
  rw [← expTable_mod, Nat.mul_mod_right, h, zero_gmul] at h255
  exact absurd h255 (by decide)

/-- 255 different powers among 255 non-zero bytes: every non-zero byte is a power of `GEN`. -/
theorem exists_expTable {a : Byte} (ha : a ≠ 0) : ∃ i < 255, expTable i = a := by
  have hmaps : ∀ i ∈ Finset.range 255, (expTable i).toNat ∈ Finset.Ico 1 256 := fun i _ =>
    Finset.mem_Ico.2 ⟨Nat.pos_of_ne_zero fun h => expTable_ne_zero i (BitVec.eq_of_toNat_eq h), (expTable i).isLt⟩
  have hinj : Set.InjOn (fun i => (expTable i).toNat) (Finset.range 255) := fun i hi j hj h =>
    expTable_injective (by simpa using hi) (by simpa using hj) (BitVec.eq_of_toNat_eq h)
  have hmem : a.toNat ∈ Finset.Ico 1 256 :=
    Finset.mem_Ico.2 ⟨Nat.pos_of_ne_zero fun h => ha (BitVec.eq_of_toNat_eq h), a.isLt⟩
  obtain ⟨i, hi, h⟩ := Finset.surjOn_of_injOn_of_card_le _ hmaps hinj (by simp) hmem
  exact ⟨i, by simpa using hi, BitVec.eq_of_toNat_eq h⟩

/-! ### The logarithm -/

theorem logTable_zero : logTable 0 = none := by
  unfold logTable
  rw [List.find?_range_eq_none]
  exact fun i _ => by simpa using expTable_ne_zero i

theorem logTable_expTable {i : Nat} (hi : i < 255) : logTable (expTable i) = some i := by
  unfold logTable
  rw [List.find?_range_eq_some]
  refine ⟨by simp, by simpa using hi, fun j hj => ?_⟩
  have hne : expTable j ≠ expTable i := fun h => by
    have := expTable_injective (by omega) hi h
    omega
  simpa using hne

/-- The log/antilog form (R74): for non-zero factors `x^i x^j = x^(i+j)`, with the exponent taken modulo the order. -/
theorem gmulLog_eq_gmul (a b : Byte) : gmulLog a b = gmul a b := by
  unfold gmulLog
  by_cases ha : a = 0
  · rw [ha, logTable_zero, zero_gmul]
  by_cases hb : b = 0
  · rw [hb, logTable_zero, gmul_zero]
    cases logTable a <;> rfl
  obtain ⟨i, hi, rfl⟩ := exists_expTable ha
  obtain ⟨j, hj, rfl⟩ := exists_expTable hb
  rw [logTable_expTable hi, logTable_expTable hj, ← expTable_add]
  exact expTable_mod (i + j)

theorem gmulBy_eq_gmul (impl : MulImpl) (a b : Byte) : gmulBy impl a b = gmul a b := by
  cases impl with
  | fullTable => exact gmulTable_eq_gmul a b
  | logPair => exact gmulLog_eq_gmul a b
  | bitSerial => rfl

/-! ### The inverse (R75) -/

theorem gpow_add (a : Byte) (m n : Nat) : gpow a (m + n) = gmul (gpow a m) (gpow a n) := by
  induction n with
  | zero => exact (gmul_one _).symm
  | succ n ih => rw [← Nat.add_assoc, gpow, gpow, ih, gmul_assoc]

theorem gpowTwo_eq_gpow (a : Byte) (i : Nat) : gpowTwo a i = gpow a (2 ^ i) := by
  induction i with
  | zero => exact (one_gmul a).symm
  | succ i ih => rw [gpowTwo, ih, ← gpow_add, Nat.pow_succ, Nat.mul_two]

theorem gpow_expTable (i n : Nat) : gpow (expTable i) n = expTable (i * n) := by
  induction n with
  | zero => rfl
  | succ n ih => rw [gpow, ih, ← expTable_add, Nat.mul_succ]

/-- The product of `a^2, a^4, ..., a^128` is the 254-fold product. -/
theorem ginv_eq_gpow {a : Byte} (ha : a ≠ 0) : ginv a = gpow a 254 := by
  rw [ginv, if_neg ha]
  simp [gpowTwo_eq_gpow, ← gpow_add]

/-- Fermat: `a^255 = 1`, since the order of `GEN` is 255. -/
theorem gmul_ginv {a : Byte} (ha : a ≠ 0) : gmul a (ginv a) = 1 := by
  obtain ⟨i, -, rfl⟩ := exists_expTable ha
  rw [ginv_eq_gpow ha, gmul_comm]
  show gpow (expTable i) 255 = 1
  rw [gpow_expTable, ← expTable_mod, Nat.mul_mod_left]
  rfl

/-- A non-zero factor cancels. -/
theorem ginv_gmul_cancel {a : Byte} (ha : a ≠ 0) (b : Byte) : gmul (ginv a) (gmul a b) = b := by
  rw [← gmul_assoc, gmul_comm (ginv a), gmul_ginv ha, one_gmul]

theorem eq_ginv_of_gmul_eq_one {a b : Byte} (ha : a ≠ 0) (h : gmul a b = 1) : b = ginv a := by
  rw [← ginv_gmul_cancel ha b, h, gmul_one]

theorem eq_zero_of_gmul_eq_zero {a b : Byte} (h : gmul a b = 0) : a = 0 ∨ b = 0 := by
  refine or_iff_not_imp_left.2 fun ha => ?_
  rw [← ginv_gmul_cancel ha b, h, gmul_zero]

theorem ginv_one : ginv 1 = 1 := (eq_ginv_of_gmul_eq_one (by decide) (gmul_one 1)).symm

theorem ginv_ne_zero {a : Byte} (ha : a ≠ 0) : ginv a ≠ 0 := fun h => by
  have := gmul_ginv ha
  rw [h, gmul_zero] at this
  exact absurd this (by decide)

theorem ginv_ginv {a : Byte} (ha : a ≠ 0) : ginv (ginv a) = a :=
  (eq_ginv_of_gmul_eq_one (ginv_ne_zero ha) (gmul_comm a _ ▸ gmul_ginv ha)).symm

/-- `x^i x^(255-i) = x^255 = 1`. -/
theorem ginvLog_eq_ginv {a : Byte} (ha : a ≠ 0) : ginvLog a = some (ginv a) := by
  obtain ⟨i, hi, rfl⟩ := exists_expTable ha
  rw [ginvLog, logTable_expTable hi, Option.map_some, expTable_mod]
  refine congrArg some (eq_ginv_of_gmul_eq_one ha ?_)
  rw [← expTable_add, Nat.add_sub_cancel' hi.le, expTable_255]

/-! ### The statements -/

/-- Settles O14: additivity gives the ring laws, the inverse excludes zero divisors. -/
theorem gmulFieldLaws : Obligations.GmulFieldLaws :=
  ⟨fun a => ⟨gmul_zero a, zero_gmul a⟩, gmul_one, gmul_comm, fun a b c => (gmul_assoc a b c).symm, gmul_xor,
    fun _ _ => eq_zero_of_gmul_eq_zero⟩

/-- Settles O15: each form is additive as `gmul` is, the log/antilog form adds exponents. -/
theorem multiplierFormsAgree : Obligations.MultiplierFormsAgree :=
  ⟨gmulBy_eq_gmul, gmul_eq_gmulSerial, fun a b => (gmulCarryless_eq_gmul a b).symm,
    fun s c => (gmulNetwork_eq_gmul s c).symm, gmul_two⟩

/-- Settles O16: `GEN` has order 255, so its powers are all the non-zero bytes. -/
theorem logTableFormAgrees : Obligations.LogTableFormAgrees :=
  ⟨fun a b => (gmulLog_eq_gmul a b).symm, rfl, expTable_succ, fun _ hi _ hj => expTable_injective hi hj, logTable_zero,
    expTable_255⟩

/-- Settles O17: an inverse cancels, so it is unique; the other forms multiply with `a` to 1. -/
theorem inverseIsUnique : Obligations.InverseIsUnique :=
  ⟨ginv_one, fun _ ha => ⟨gmul_ginv ha, fun _ => eq_ginv_of_gmul_eq_one ha, ginv_eq_gpow ha, ginvLog_eq_ginv ha,
    ginv_ginv ha⟩⟩

end Sys2Proof.Machine
end

section
/-! The commands of 40_field_arithmetic.md: how they succeed, which completion each command can end with (R156), and
DOMAIN_ERROR (R80, R148). -/

namespace Sys2Proof.Machine

/-! ### Success -/

/-- A success writes 0 to `ERR` and `ERRINFO` and leaves `ANYERR` (R141). -/
theorem State.finish_eq_withOk (s : State) : s.finish .ok = s.withOk := by
  have hany : (s.engine.status.anyErr || Completion.ok.code != 0) = s.engine.status.anyErr := Bool.or_false _
  unfold State.finish State.withOk Status.complete
  rw [hany]
  rfl

/-- Settles O18: INIT has no test to pass. -/
theorem initCompletes : Obligations.InitCompletes := fun s => congrArg _ s.setInitDone.finish_eq_withOk

theorem exec_gfadd_ready {s : State} (h : s.engine.status.initDone = true) (a b : Byte) :
    exec (.gfadd a b) s = .next ((s.setResult (a ^^^ b)).finish .ok) := requireInit_after s _ h

theorem exec_gfmul_ready {s : State} (h : s.engine.status.initDone = true) (a b : Byte) :
    exec (.gfmul a b) s = .next ((s.setResult (gmul a b)).finish .ok) := requireInit_after s _ h

theorem exec_gfinv_ready {s : State} (h : s.engine.status.initDone = true) {a : Byte} (ha : a ≠ 0) :
    exec (.gfinv a) s = .next ((s.setResult (ginv a)).finish .ok) :=
  (requireInit_after s _ h).trans (by rw [if_neg ha])

theorem exec_gfinv_zero {s : State} (h : s.engine.status.initDone = true) :
    exec (.gfinv 0) s = .next (s.finish .domainError) := requireInit_after s _ h

/-- Settles O19: after INIT both succeed. -/
theorem addAndMultiplyComplete : Obligations.AddAndMultiplyComplete := fun s a b h =>
  ⟨(exec_gfadd_ready h a b).trans (congrArg _ (s.setResult _).finish_eq_withOk),
    (exec_gfmul_ready h a b).trans (congrArg _ (s.setResult _).finish_eq_withOk)⟩

/-- Settles O20: the value answered is `ginv a`, the unique inverse. -/
theorem inverseCommandCompletes : Obligations.InverseCommandCompletes := fun s a h ha =>
  ⟨ginv a, gmul_ginv ha, fun _ => eq_ginv_of_gmul_eq_one ha,
    (exec_gfinv_ready h ha).trans (congrArg _ (s.setResult _).finish_eq_withOk)⟩

/-! ### The causes the checks report (R146) -/

def kmCauses : List ConfigCause := [.kZero, .mZero, .kmRange]

def coefCauses : List ConfigCause := kmCauses ++ [.operandRange]

def blockCauses : List ConfigCause := kmCauses ++ [.size, .addrRange]

theorem kmCheck_cause {e : Engine} {c : ConfigCause} (h : kmCheck e = some c) : c ∈ kmCauses := by
  unfold kmCheck at h
  split_ifs at h <;> cases h <;> decide

theorem coefCheck_cause {e : Engine} {row col : Byte} {c : ConfigCause} (h : coefCheck e row col = some c) :
    c ∈ coefCauses := by
  unfold coefCheck at h
  split at h
  · next hk =>
    cases h
    exact List.mem_append_left _ (kmCheck_cause hk)
  · split_ifs at h
    cases h
    decide

theorem blockCheck_cause {e : Engine} {n : Nat} {c : ConfigCause} (h : blockCheck e n = some c) : c ∈ blockCauses := by
  unfold blockCheck at h
  split at h
  · next hk =>
    cases h
    exact List.mem_append_left _ (kmCheck_cause hk)
  · split_ifs at h <;> cases h <;> decide

theorem mulaccCheck_cause {e : Engine} {c : ConfigCause} (h : mulaccCheck e = some c) : c = .addrRange := by
  unfold mulaccCheck at h
  split_ifs at h
  exact (Option.some.inj h).symm

/-! ### The completions of each command -/

/-- The completions of a command: its row in the table of R156. ILLEGAL_CMD belongs to words that are no command (R53). -/
def completionsOf : Instr → List Completion
  | .init => [.ok]
  | .gfadd _ _ | .gfmul _ _ => [.ok, .notInit]
  | .gfinv _ => [.ok, .notInit, .domainError]
  | .coef _ _ => [.ok, .notInit] ++ coefCauses.map .configError
  | .mulacc _ => [.ok, .notInit, .configError .addrRange]
  | .encode => [.ok, .notInit] ++ blockCauses.map .configError
  | .decode => [.ok, .notInit] ++ blockCauses.map .configError ++
      [DecodeCause.rowRange, .dupOriginal, .singular].map .decodeError

theorem ok_mem_completionsOf (i : Instr) : .ok ∈ completionsOf i := by
  cases i <;> simp [completionsOf]

theorem notInit_mem_completionsOf {i : Instr} (hi : i ≠ .init) : .notInit ∈ completionsOf i := by
  cases i with
  | init => exact absurd rfl hi
  | _ => simp [completionsOf]

/-- A next state, if there is one, is a state that `finish` has given one of the command's completions. -/
def Result.endsAs (i : Instr) (r : Result) : Prop :=
  ∀ t, r = .next t → ∃ u, ∃ c ∈ completionsOf i, t = State.finish u c

section
variable {i : Instr}

theorem Result.endsAs_finish {c : Completion} (hc : c ∈ completionsOf i) (u : State) :
    Result.endsAs i (.next (u.finish c)) :=
  fun _ ht => ⟨u, c, hc, (Host.Outcome.next.inj ht).symm⟩

theorem Result.endsAs_ok (u : State) : Result.endsAs i (.next (u.finish .ok)) :=
  Result.endsAs_finish (ok_mem_completionsOf i) u

theorem requireInit_endsAs (hi : i ≠ .init) {s : State} {body : Result} (hb : Result.endsAs i body) :
    Result.endsAs i (requireInit s body) := by
  rcases requireInit_cases s body with ⟨-, hr⟩ | ⟨-, hr⟩
  · rw [hr]
    exact Result.endsAs_finish (notInit_mem_completionsOf hi) s
  · rwa [hr]

theorem withContract_endsAs {s work : State} {written readOnly : List Region} (hw : Result.endsAs i (.next work)) :
    Result.endsAs i (withContract s written readOnly work) :=
  fun _ ht => withContract_next ht ▸ hw work rfl

end

theorem execGfinv_endsAs (a : Byte) (s : State) : Result.endsAs (.gfinv a) (execGfinv a s) := by
  refine requireInit_endsAs (by simp) ?_
  split
  · exact Result.endsAs_finish (by simp [completionsOf]) _
  · exact Result.endsAs_ok _

theorem execCoef_endsAs (row col : Byte) (s : State) : Result.endsAs (.coef row col) (execCoef row col s) := by
  refine requireInit_endsAs (by simp) ?_
  split
  · next hc => exact Result.endsAs_finish (by simpa [completionsOf] using coefCheck_cause hc) _
  · exact Result.endsAs_ok _

theorem execMulacc_endsAs (c : Byte) (s : State) : Result.endsAs (.mulacc c) (execMulacc c s) := by
  refine requireInit_endsAs (by simp) ?_
  split
  · next hc => exact Result.endsAs_finish (by simpa [completionsOf] using mulaccCheck_cause hc) _
  · exact withContract_endsAs (Result.endsAs_ok _)

theorem execEncode_endsAs (s : State) : Result.endsAs .encode (execEncode s) := by
  refine requireInit_endsAs (by simp) ?_
  split
  · next hc => exact Result.endsAs_finish (by simpa [completionsOf] using blockCheck_cause hc) _
  · exact withContract_endsAs (Result.endsAs_ok _)

theorem decodeOutcome_endsAs (s : State) : Result.endsAs .decode (.next (decodeOutcome s)) := by
  unfold decodeOutcome
  split
  · exact Result.endsAs_ok _
  · exact Result.endsAs_finish (by simp [completionsOf]) _

theorem execDecode_endsAs (s : State) : Result.endsAs .decode (execDecode s) := by
  refine requireInit_endsAs (by simp) ?_
  split
  · next hc => exact Result.endsAs_finish (by simpa [completionsOf] using blockCheck_cause hc) _
  split
  · next c _ => exact Result.endsAs_finish (by cases c <;> simp [completionsOf]) _
  split
  · exact Result.endsAs_ok _
  · exact withContract_endsAs (decodeOutcome_endsAs s)

/-- Every command ends as its row of R156 says. -/
theorem exec_endsAs (i : Instr) (s : State) : Result.endsAs i (exec i s) := by
  cases i with
  | init => exact Result.endsAs_ok _
  | gfadd a b => exact requireInit_endsAs (by simp) (Result.endsAs_ok _)
  | gfmul a b => exact requireInit_endsAs (by simp) (Result.endsAs_ok _)
  | gfinv a => exact execGfinv_endsAs a s
  | coef row col => exact execCoef_endsAs row col s
  | mulacc c => exact execMulacc_endsAs c s
  | encode => exact execEncode_endsAs s
  | decode => exact execDecode_endsAs s

/-! ### DOMAIN_ERROR -/

theorem Completion.code_eq_four (c : Completion) : c.code = 4 ↔ c = .domainError := by
  cases c <;> simp [Completion.code]

/-- No row of R156 but that of GFINV marks `DOMAIN_ERROR`. -/
theorem domainError_mem_completionsOf {i : Instr} (h : .domainError ∈ completionsOf i) : ∃ a, i = .gfinv a := by
  cases i with
  | gfinv a => exact ⟨a, rfl⟩
  | _ => simp [completionsOf] at h

theorem gfinv_of_domainError {i : Instr} {s t : State} (h : exec i s = .next t) (he : t.engine.status.err = 4) :
    ∃ a, i = .gfinv a := by
  obtain ⟨u, c, hc, rfl⟩ := exec_endsAs i s t h
  obtain rfl := c.code_eq_four.1 he
  exact domainError_mem_completionsOf hc

/-- GFINV reports `DOMAIN_ERROR` for 0 alone, and only after INIT (R80, R144). -/
theorem eq_zero_of_domainError {a : Byte} {s t : State} (h : exec (.gfinv a) s = .next t)
    (he : t.engine.status.err = 4) : a = 0 ∧ s.engine.status.initDone = true := by
  cases hi : s.engine.status.initDone with
  | false =>
    have hr : exec (.gfinv a) s = .next (s.finish .notInit) := requireInit_before s _ hi
    obtain rfl := Host.Outcome.next.inj (hr.symm.trans h)
    exact absurd he (by simp [Completion.code])
  | true =>
    refine ⟨by_contra fun ha => ?_, rfl⟩
    obtain rfl := Host.Outcome.next.inj ((exec_gfinv_ready hi ha).symm.trans h)
    exact absurd he (by simp [Completion.code])

/-- Settles O21: 0 takes the error branch, and no other command's row of R156 has `DOMAIN_ERROR`. -/
theorem onlyInverseOfZeroIsADomainError : Obligations.OnlyInverseOfZeroIsADomainError := by
  refine ⟨fun s hi => (exec_gfinv_zero hi).trans (congrArg _ (s.finish_eq_withError (by simp))), fun i s t h he => ?_⟩
  obtain ⟨a, rfl⟩ := gfinv_of_domainError h he
  obtain ⟨rfl, hi⟩ := eq_zero_of_domainError h he
  exact ⟨rfl, hi⟩

end Sys2Proof.Machine
end

section
/-! MULACC (R90 to R92, R95, R96): what one pass leaves at every address, and what two passes leave. -/

namespace Sys2Proof.Machine

/-! ### One pass -/

/-- The state a ready MULACC answers: the buffer primitive has run, and the command ended with `OK`. -/
def State.mulaccPass (s : State) (c : Byte) : State :=
  { s with mem := mulAcc s.mem s.engine.dst.toNat s.engine.src.toNat c s.engine.len.toNat }.finish .ok

@[simp] theorem State.mulaccPass_mem (s : State) (c : Byte) : (s.mulaccPass c).mem =
    mulAcc s.mem s.engine.dst.toNat s.engine.src.toNat c s.engine.len.toNat := rfl
@[simp] theorem State.mulaccPass_src (s : State) (c : Byte) : (s.mulaccPass c).engine.src = s.engine.src := rfl
@[simp] theorem State.mulaccPass_dst (s : State) (c : Byte) : (s.mulaccPass c).engine.dst = s.engine.dst := rfl
@[simp] theorem State.mulaccPass_len (s : State) (c : Byte) : (s.mulaccPass c).engine.len = s.engine.len := rfl

section
variable {s : State}

theorem exec_mulacc_eq_mulaccPass (h : MulaccReady s) (c : Byte) : exec (.mulacc c) s = .next (s.mulaccPass c) :=
  exec_mulacc_ready h c

/-- A pass writes no register that decides whether MULACC may do its work. -/
theorem MulaccReady.mulaccPass (h : MulaccReady s) (c : Byte) : MulaccReady (s.mulaccPass c) where
  initDone := h.initDone
  srcRange := h.srcRange
  dstRange := h.dstRange
  srcPlain := h.srcPlain
  dstPlain := h.dstPlain
  overlap := h.overlap

/-- The two buffers of a ready MULACC are the same, or one ends before the other begins. -/
theorem MulaccReady.same_or_before (h : MulaccReady s) :
    s.engine.dst.toNat = s.engine.src.toNat ∨ s.engine.dst.toNat + s.engine.len.toNat ≤ s.engine.src.toNat ∨
      s.engine.src.toNat + s.engine.len.toNat ≤ s.engine.dst.toNat := by
  rcases h.overlap with heq | hapart
  · exact .inl (congrArg _ heq)
  · have hmax := hapart (max s.engine.dst.toNat s.engine.src.toNat)
    simp only [Region.contains] at hmax
    omega

/-- One pass, address by address (R90). -/
theorem MulaccReady.read_mulaccPass (h : MulaccReady s) (c : Byte) (x : Nat) :
    Memory.read (s.mulaccPass c).mem x =
      if s.engine.dst.toNat ≤ x ∧ x < s.engine.dst.toNat + s.engine.len.toNat then
        Memory.read s.mem x ^^^ gmul (Memory.read s.mem (s.engine.src.toNat + (x - s.engine.dst.toNat))) c
      else Memory.read s.mem x :=
  mulAcc_read _ _ _ _ _ h.same_or_before x

theorem MulaccReady.read_mulaccPass_dst (h : MulaccReady s) (c : Byte) {i : Nat} (hi : i < s.engine.len.toNat) :
    Memory.read (s.mulaccPass c).mem (s.engine.dst.toNat + i) =
      Memory.read s.mem (s.engine.dst.toNat + i) ^^^ gmul (Memory.read s.mem (s.engine.src.toNat + i)) c := by
  rw [h.read_mulaccPass, if_pos (by omega), Nat.add_sub_cancel_left]

/-- A source that is not the destination is not written. -/
theorem MulaccReady.read_mulaccPass_src (h : MulaccReady s) (hne : s.engine.dst ≠ s.engine.src) (c : Byte) {i : Nat}
    (hi : i < s.engine.len.toNat) :
    Memory.read (s.mulaccPass c).mem (s.engine.src.toNat + i) = Memory.read s.mem (s.engine.src.toNat + i) := by
  have hsrc : (⟨s.engine.src.toNat, s.engine.len.toNat⟩ : Region).contains (s.engine.src.toNat + i) :=
    ⟨Nat.le_add_right _ _, Nat.add_lt_add_left hi _⟩
  exact mulAcc_outside _ _ _ _ _ _ fun hdst => h.overlap.resolve_left hne _ ⟨hdst, hsrc⟩

/-- Scalar 0 adds 0 to every byte (R91). -/
theorem MulaccReady.memoryKept_mulaccPass_zero (h : MulaccReady s) : s.memoryKept (s.mulaccPass 0) := by
  intro x
  rw [h.read_mulaccPass, gmul_zero]
  split
  · exact BitVec.xor_zero
  · rfl

/-- A buffer of length 0 has no byte to change (R95). -/
theorem State.memoryKept_mulaccPass_of_len_zero (hlen : s.engine.len = 0) (c : Byte) :
    s.memoryKept (s.mulaccPass c) := by
  intro x
  rw [State.mulaccPass_mem, hlen]
  rfl

/-- Two passes add up: the second meets the source as it was, and multiplication distributes over the sum (R73, R92). -/
theorem MulaccReady.memoryKept_mulaccPass_mulaccPass (h : MulaccReady s) (hne : s.engine.dst ≠ s.engine.src)
    (c1 c2 : Byte) : (s.mulaccPass (c1 ^^^ c2)).memoryKept ((s.mulaccPass c1).mulaccPass c2) := by
  intro x
  rw [(h.mulaccPass c1).read_mulaccPass, h.read_mulaccPass, h.read_mulaccPass (c1 ^^^ c2)]
  simp only [State.mulaccPass_src, State.mulaccPass_dst, State.mulaccPass_len]
  by_cases hx : s.engine.dst.toNat ≤ x ∧ x < s.engine.dst.toNat + s.engine.len.toNat
  · simp only [if_pos hx]
    rw [h.read_mulaccPass_src hne c1 (by omega), gmul_xor, BitVec.xor_assoc]
  · simp only [if_neg hx]

end

/-- Adding the product by `c` to a byte multiplies it by `c ^ 1` (R96). -/
theorem xor_gmul_eq_gmul_xor_one (d c : Byte) : d ^^^ gmul d c = gmul d (c ^^^ 1) := by
  rw [gmul_xor, gmul_one, BitVec.xor_comm]

/-! ### The statements -/

/-- Settles O27: the answer is the pass, and MulAcc writes its destination alone. -/
theorem mulaccCompletes : Obligations.MulaccCompletes := fun _ c h =>
  ⟨_, (exec_mulacc_eq_mulaccPass h c).trans (congrArg _ (State.finish_eq_withOk _)),
    fun _ hi => h.read_mulaccPass_dst c hi, fun a ha => mulAcc_outside _ _ _ _ _ a ha⟩

/-- Settles O28: each byte is its own source, so the pass multiplies it by `c ^ 1`, which is 0 for `c = 1`. -/
theorem mulaccOntoItself : Obligations.MulaccOntoItself := by
  intro s c h heq
  have hsum : ∀ i < s.engine.len.toNat, Memory.read (s.mulaccPass c).mem (s.engine.dst.toNat + i) =
      Memory.read s.mem (s.engine.dst.toNat + i) ^^^ gmul (Memory.read s.mem (s.engine.dst.toNat + i)) c := by
    intro i hi
    rw [h.read_mulaccPass_dst c hi, heq]
  refine ⟨_, exec_mulacc_eq_mulaccPass h c, fun i hi => ⟨hsum i hi, ?_⟩, ?_, ?_⟩
  · rw [hsum i hi, xor_gmul_eq_gmul_xor_one]
  · rintro rfl i hi
    rw [hsum i hi, gmul_one]
    exact BitVec.xor_self
  · rintro rfl
    exact h.memoryKept_mulaccPass_zero

/-- Settles O29: 1 is neutral, 0 annihilates, and an empty buffer has no byte to change. -/
theorem mulaccSpecialScalars : Obligations.MulaccSpecialScalars := by
  intro s c h
  refine ⟨_, exec_mulacc_eq_mulaccPass h c, ?_, ?_, fun hlen => State.memoryKept_mulaccPass_of_len_zero hlen c⟩
  · rintro rfl i hi
    rw [h.read_mulaccPass_dst 1 hi, gmul_one]
  · rintro rfl
    exact h.memoryKept_mulaccPass_zero

/-- Settles O30: passes add their scalars, and a scalar added to itself is 0, a pass that changes nothing. -/
theorem mulaccPassesAdd : Obligations.MulaccPassesAdd := by
  intro s c1 c2 h hne
  have hadd := h.memoryKept_mulaccPass_mulaccPass hne c1 c2
  refine ⟨_, _, _, exec_mulacc_eq_mulaccPass h c1, exec_mulacc_eq_mulaccPass (h.mulaccPass c1) c2,
    exec_mulacc_eq_mulaccPass h (c1 ^^^ c2), hadd, ?_⟩
  rintro rfl x
  rw [BitVec.xor_self] at hadd
  exact (hadd x).trans (h.memoryKept_mulaccPass_zero x)

end Sys2Proof.Machine
end

section
/-! The coefficients of the generator matrix (R100 to R102), and why any `k` of its rows are independent (R104). -/

namespace Sys2Proof.Machine

/-! ### Coefficients -/

theorem coef_original {k row : Nat} (h : row < k) (col : Nat) : coef k row col = if col = row then 1 else 0 :=
  if_pos h

theorem coef_parity {k row : Nat} (h : k ≤ row) (col : Nat) :
    coef k row col = ginv (BitVec.ofNat 8 row ^^^ BitVec.ofNat 8 col) :=
  if_neg (Nat.not_lt.2 h)

/-- Different indices below 256 are different elements of the field (R102). -/
theorem ofNat_xor_ofNat_ne_zero {a b : Nat} (ha : a < 256) (hb : b < 256) (h : a ≠ b) :
    BitVec.ofNat 8 a ^^^ BitVec.ofNat 8 b ≠ 0 := by
  intro hxor
  have hnat := congrArg BitVec.toNat (BitVec.xor_eq_zero_iff.1 hxor)
  rw [BitVec.toNat_ofNat, BitVec.toNat_ofNat, Nat.mod_eq_of_lt ha, Nat.mod_eq_of_lt hb] at hnat
  exact h hnat

section
variable {k row col : Nat} (hcol : col < k) (hk : k ≤ row) (hrow : row < 256)
include hcol hk hrow

/-- No parity row has the index of a column, so FINV is not asked for the inverse of 0 (R101). -/
theorem row_xor_col_ne_zero : BitVec.ofNat 8 row ^^^ BitVec.ofNat 8 col ≠ 0 :=
  ofNat_xor_ofNat_ne_zero hrow (by omega) (by omega)

theorem gmul_coef_parity : gmul (BitVec.ofNat 8 row ^^^ BitVec.ofNat 8 col) (coef k row col) = 1 := by
  rw [coef_parity hk, gmul_ginv (row_xor_col_ne_zero hcol hk hrow)]

theorem coef_parity_ne_zero : coef k row col ≠ 0 := by
  rw [coef_parity hk]
  exact ginv_ne_zero (row_xor_col_ne_zero hcol hk hrow)

/-- A parity coefficient and the factor it is the inverse of cancel. -/
theorem gmul_gmul_coef_cancel (x : Byte) :
    gmul (BitVec.ofNat 8 row ^^^ BitVec.ofNat 8 col) (gmul (coef k row col) x) = x := by
  rw [← gmul_assoc, gmul_coef_parity hcol hk hrow, one_gmul]

end

/-- Settles O23: the row is no column's index, and the inverse of a byte that is not 0 is not 0. -/
theorem parityCoefficientIsAnInverse : Obligations.ParityCoefficientIsAnInverse := fun _ _ _ hcol hk hrow =>
  ⟨row_xor_col_ne_zero hcol hk hrow, gmul_coef_parity hcol hk hrow, coef_parity_ne_zero hcol hk hrow⟩

/-! ### Sums in the field (R71) -/

/-- A difference, taken through a third value. -/
theorem xor_eq_xor_xor_xor (x y z : Byte) : x ^^^ y = (z ^^^ x) ^^^ (z ^^^ y) := by
  rw [BitVec.xor_comm z x, BitVec.xor_assoc, ← BitVec.xor_assoc z, BitVec.xor_self, BitVec.zero_xor]

theorem XorAdditive.map_xorSum {f : Byte → Byte} (hf : XorAdditive f) (n : Nat) (g : Nat → Byte) :
    f (xorSum n g) = xorSum n fun i => f (g i) := by
  induction n with
  | zero => exact hf.map_zero
  | succ n ih => rw [xorSum_succ, xorSum_succ, hf, ih]

theorem xorSum_xor (n : Nat) (f g : Nat → Byte) : xorSum n (fun i => f i ^^^ g i) = xorSum n f ^^^ xorSum n g := by
  induction n with
  | zero => exact BitVec.xor_self.symm
  | succ n ih =>
    simp only [xorSum_succ, ih]
    ac_rfl

theorem xorSum_eq_zero {n : Nat} {f : Nat → Byte} (h : ∀ i < n, f i = 0) : xorSum n f = 0 := by
  induction n with
  | zero => rfl
  | succ n ih =>
    rw [xorSum_succ, ih fun i hi => h i (by omega), h n (by omega)]
    exact BitVec.xor_self

theorem xorSum_eq_single {n j : Nat} {f : Nat → Byte} (hj : j < n) (h : ∀ i < n, i ≠ j → f i = 0) :
    xorSum n f = f j := by
  induction n with
  | zero => omega
  | succ n ih =>
    rw [xorSum_succ]
    by_cases hjn : j = n
    · rw [xorSum_eq_zero fun i hi => h i (by omega) (by omega), hjn]
      exact BitVec.zero_xor
    · rw [ih (by omega) fun i hi => h i (by omega), h n (by omega) (Ne.symm hjn)]
      exact BitVec.xor_zero

/-! ### A row times a vector -/

/-- Row `row` of the generator matrix times the vector `v`. -/
def rowTimes (k row : Nat) (v : Nat → Byte) : Byte := xorSum k fun i => gmul (coef k row i) (v i)

theorem rowTimes_original {k row : Nat} (h : row < k) (v : Nat → Byte) : rowTimes k row v = v row := by
  refine (xorSum_eq_single h fun i _ hne => ?_).trans ?_
  · rw [coef_original h, if_neg hne, zero_gmul]
  · rw [coef_original h, if_pos rfl, one_gmul]

section
variable {k t : Nat} (hk : k ≤ t) (ht : t < 256)
include hk ht

/-- Weighting entry `i` by `y_i ^ z` is weighting the row's result by `x_t ^ z`, up to a sum in which the row does not
occur: `y_i ^ z = (x_t ^ y_i) ^ (x_t ^ z)`, and the coefficient cancels `x_t ^ y_i`. -/
theorem rowTimes_weighted (z : Byte) (v : Nat → Byte) :
    rowTimes k t (fun i => gmul (BitVec.ofNat 8 i ^^^ z) (v i)) =
      xorSum k v ^^^ gmul (BitVec.ofNat 8 t ^^^ z) (rowTimes k t v) := by
  unfold rowTimes
  rw [(xorAdditive_gmul_right _).map_xorSum, ← xorSum_xor]
  refine xorSum_congr fun i hi => ?_
  rw [← gmul_assoc, gmul_comm (coef k t i), gmul_assoc, xor_eq_xor_xor_xor _ z (BitVec.ofNat 8 t), xor_gmul,
    gmul_gmul_coef_cancel hi hk ht]

variable {t₀ : Nat} (hk₀ : k ≤ t₀) (ht₀ : t₀ < 256)
include hk₀ ht₀

/-- Two inverses differ by the difference of the values times both. -/
theorem coef_xor_coef {col : Nat} (hcol : col < k) :
    coef k t col ^^^ coef k t₀ col =
      gmul (BitVec.ofNat 8 t ^^^ BitVec.ofNat 8 t₀) (gmul (coef k t col) (coef k t₀ col)) := by
  rw [xor_eq_xor_xor_xor (BitVec.ofNat 8 t) _ (BitVec.ofNat 8 col), BitVec.xor_comm _ (BitVec.ofNat 8 t),
    BitVec.xor_comm _ (BitVec.ofNat 8 t₀), xor_gmul, gmul_gmul_coef_cancel hcol hk ht, gmul_comm (coef k t col),
    gmul_gmul_coef_cancel hcol hk₀ ht₀, BitVec.xor_comm]

theorem gmul_rowTimes_coef (u : Nat → Byte) :
    gmul (BitVec.ofNat 8 t ^^^ BitVec.ofNat 8 t₀) (rowTimes k t fun i => gmul (coef k t₀ i) (u i)) =
      rowTimes k t u ^^^ rowTimes k t₀ u := by
  unfold rowTimes
  rw [(xorAdditive_gmul_right _).map_xorSum, ← xorSum_xor]
  refine xorSum_congr fun i hi => ?_
  rw [← xor_gmul, coef_xor_coef hk ht hk₀ ht₀ hi, gmul_assoc, gmul_assoc]

end

/-! ### Elimination -/

/-- What is left of `v` once row `t₀` has been used to clear column `j`. -/
def clearColumn (k t₀ j : Nat) (v : Nat → Byte) (i : Nat) : Byte :=
  gmul (coef k t₀ i) (gmul (BitVec.ofNat 8 i ^^^ BitVec.ofNat 8 j) (v i))

theorem clearColumn_of_zero (k t₀ j : Nat) {v : Nat → Byte} {i : Nat} (h : v i = 0) : clearColumn k t₀ j v i = 0 := by
  rw [clearColumn, h, gmul_zero, gmul_zero]

theorem clearColumn_self (k t₀ j : Nat) (v : Nat → Byte) : clearColumn k t₀ j v j = 0 := by
  have hj : BitVec.ofNat 8 j ^^^ BitVec.ofNat 8 j = 0 := BitVec.xor_self
  rw [clearColumn, hj, zero_gmul, gmul_zero]

section
variable {k t₀ : Nat} {v : Nat → Byte} (hk₀ : k ≤ t₀) (ht₀ : t₀ < 256)
include hk₀ ht₀

/-- Clearing a column makes no other entry 0. -/
theorem eq_zero_of_clearColumn_eq_zero {j i : Nat} (hj : j < k) (hi : i < k) (hne : i ≠ j)
    (h : clearColumn k t₀ j v i = 0) : v i = 0 := by
  have hweighted := (eq_zero_of_gmul_eq_zero h).resolve_left (coef_parity_ne_zero hi hk₀ ht₀)
  exact (eq_zero_of_gmul_eq_zero hweighted).resolve_left (ofNat_xor_ofNat_ne_zero (by omega) (by omega) hne)

/-- Another row that sends `v` to 0 sends the cleared vector to 0. -/
theorem rowTimes_clearColumn {t : Nat} (hk : k ≤ t) (ht : t < 256) (hne : t ≠ t₀) (h₀ : rowTimes k t₀ v = 0)
    (h : rowTimes k t v = 0) (j : Nat) : rowTimes k t (clearColumn k t₀ j v) = 0 := by
  have hdiff := gmul_rowTimes_coef hk ht hk₀ ht₀ fun i => gmul (BitVec.ofNat 8 i ^^^ BitVec.ofNat 8 j) (v i)
  rw [rowTimes_weighted hk ht, rowTimes_weighted hk₀ ht₀, h, h₀, gmul_zero, gmul_zero, BitVec.xor_self] at hdiff
  exact (eq_zero_of_gmul_eq_zero hdiff).resolve_left (ofNat_xor_ofNat_ne_zero ht ht₀ hne)

/-- A parity row that sends a vector with one entry to 0 leaves it no entry. -/
theorem eq_zero_of_rowTimes_eq_zero {j : Nat} (hj : j < k) (hv : ∀ i < k, i ≠ j → v i = 0)
    (h : rowTimes k t₀ v = 0) : v j = 0 := by
  have hsingle : rowTimes k t₀ v = gmul (coef k t₀ j) (v j) :=
    xorSum_eq_single hj fun i hi hne => by rw [hv i hi hne, gmul_zero]
  exact (eq_zero_of_gmul_eq_zero (hsingle.symm.trans h)).resolve_left (coef_parity_ne_zero hj hk₀ ht₀)

end

/-- A square submatrix of the parity rows is invertible (R104): if the parity rows `T` send a vector with entries in the
columns `U` alone to 0, and are not fewer than those columns, the vector is 0. Each round uses one row to clear one
column. -/
theorem eq_zero_of_parityRows {k : Nat} {U T : Finset Nat} {v : Nat → Byte} (hcard : U.card ≤ T.card)
    (hU : U ⊆ Finset.range k) (hT : ∀ t ∈ T, k ≤ t ∧ t < 256) (hv : ∀ i < k, i ∉ U → v i = 0)
    (hsum : ∀ t ∈ T, rowTimes k t v = 0) : ∀ i < k, v i = 0 := by
  induction U using Finset.induction_on generalizing T v with
  | empty => exact fun i hi => hv i hi (Finset.notMem_empty i)
  | insert j U hjU ih =>
    rw [Finset.card_insert_of_notMem hjU] at hcard
    rw [Finset.insert_subset_iff, Finset.mem_range] at hU
    obtain ⟨hj, hU⟩ := hU
    obtain ⟨t₀, hmem₀⟩ := Finset.card_pos.1 (show 0 < T.card by omega)
    obtain ⟨hk₀, ht₀⟩ := hT t₀ hmem₀
    have hcleared : ∀ i < k, clearColumn k t₀ j v i = 0 := by
      refine ih (T := T.erase t₀) (by rw [Finset.card_erase_of_mem hmem₀]; omega) hU
        (fun t ht => hT t (Finset.mem_of_mem_erase ht)) (fun i hi hiU => ?_) fun t ht => ?_
      · by_cases hij : i = j
        · rw [hij, clearColumn_self]
        · exact clearColumn_of_zero k t₀ j (hv i hi (by simp [hij, hiU]))
      · obtain ⟨hne, ht⟩ := Finset.mem_erase.1 ht
        obtain ⟨hk, hlt⟩ := hT t ht
        exact rowTimes_clearColumn hk₀ ht₀ hk hlt hne (hsum t₀ hmem₀) (hsum t ht) j
    have hothers : ∀ i < k, i ≠ j → v i = 0 := fun i hi hne =>
      eq_zero_of_clearColumn_eq_zero hk₀ ht₀ hj hi hne (hcleared i hi)
    intro i hi
    by_cases hij : i = j
    · rw [hij]
      exact eq_zero_of_rowTimes_eq_zero hk₀ ht₀ hj hothers (hsum t₀ hmem₀)
    · exact hothers i hi hij

/-- Any `k` rows: the original rows among them leave as many columns as there are parity rows (R104). -/
theorem eq_zero_of_rows {k : Nat} {R : Finset Nat} {v : Nat → Byte} (hcard : k ≤ R.card) (hR : ∀ r ∈ R, r < 256)
    (hsum : ∀ r ∈ R, rowTimes k r v = 0) : ∀ i < k, v i = 0 := by
  have hsplit := Finset.card_filter_add_card_filter_not (s := R) (· < k)
  have hcolumns := Finset.card_sdiff_add_card (Finset.range k) (R.filter (· < k))
  have hunion : Finset.range k ∪ R.filter (· < k) = Finset.range k :=
    Finset.union_eq_left.2 fun r hr => Finset.mem_range.2 (Finset.mem_filter.1 hr).2
  rw [hunion, Finset.card_range] at hcolumns
  refine eq_zero_of_parityRows (U := Finset.range k \ R.filter (· < k)) (T := R.filter (¬ · < k)) (by omega)
    Finset.sdiff_subset (fun t ht => ?_) (fun i hi hiU => ?_) fun t ht => hsum t (Finset.mem_filter.1 ht).1
  · obtain ⟨ht, hk⟩ := Finset.mem_filter.1 ht
    exact ⟨Nat.not_lt.1 hk, hR t ht⟩
  · have hmem : i ∈ R := by
      by_contra hiR
      simp [hi, hiR] at hiU
    rw [← rowTimes_original hi v]
    exact hsum i hmem

/-- Settles O24: the original rows say that their own entry is 0, the parity rows form a Cauchy matrix on the columns
left, which elimination clears one by one. -/
theorem anyKRowsAreIndependent : Obligations.AnyKRowsAreIndependent := by
  intro k rows v _ hlt hinj hsum
  refine eq_zero_of_rows (R := (Finset.range k).image rows) ?_ ?_ ?_
  · rw [Finset.card_image_of_injOn fun p hp q hq h => hinj p (by simpa using hp) q (by simpa using hq) h,
      Finset.card_range]
  · simpa using hlt
  · simpa [rowTimes] using hsum

end Sys2Proof.Machine
end

section
/-! The command COEF (R105). -/

namespace Sys2Proof.Machine

theorem exec_coef_ready {s : State} {row col : Byte} (h : s.engine.status.initDone = true)
    (hc : coefCheck s.engine row col = none) :
    exec (.coef row col) s = .next ((s.setResult (coef s.engine.rows row.toNat col.toNat)).finish .ok) :=
  (requireInit_after s _ h).trans (by rw [hc])

theorem exec_coef_error {s : State} {row col : Byte} {c : ConfigCause} (h : s.engine.status.initDone = true)
    (hc : coefCheck s.engine row col = some c) : exec (.coef row col) s = .next (s.withError 1 c.info) := by
  refine (requireInit_after s _ h).trans ?_
  rw [hc]
  exact congrArg _ (s.finish_eq_withError (by simp))

/-! ### The checks, in their order (R146) -/

section
variable {e : Engine}

theorem kmCheck_eq_kZero (hk : e.rows = 0) : kmCheck e = some .kZero := if_pos hk

theorem kmCheck_eq_mZero (hk : 1 ≤ e.rows) (hm : e.parityRows = 0) : kmCheck e = some .mZero := by
  rw [kmCheck, if_neg (by omega), if_pos hm]

theorem kmCheck_eq_kmRange (hk : 1 ≤ e.rows) (hm : 1 ≤ e.parityRows) (hkm : 256 < e.rows + e.parityRows) :
    kmCheck e = some .kmRange := by
  rw [kmCheck, if_neg (by omega), if_neg (by omega)]
  exact if_pos hkm

theorem coefCheck_of_kmCheck {c : ConfigCause} (h : kmCheck e = some c) (row col : Byte) :
    coefCheck e row col = some c := by
  rw [coefCheck, h]

theorem coefCheck_eq_operandRange (hkm : kmCheck e = none) {row col : Byte}
    (h : e.rows + e.parityRows ≤ row.toNat ∨ e.rows ≤ col.toNat) : coefCheck e row col = some .operandRange := by
  rw [coefCheck, hkm]
  exact if_pos h

end

/-! ### The statements -/

/-- Settles O25: the checks pass, and the value answered is the coefficient. -/
theorem coefCompletes : Obligations.CoefCompletes := by
  intro s row col hi hk hm hkm hrow hcol
  refine ⟨coef s.engine.k.toNat row.toNat col.toNat, fun horig => ?_, fun hpar => ?_, ?_⟩
  · rw [coef_original horig]
    simp only [BitVec.toNat_inj]
  · simpa using gmul_coef_parity hcol hpar row.isLt
  · exact (exec_coef_ready hi ((coefCheck_eq_none _ _ _).2 ⟨hk, hm, hkm, hrow, hcol⟩)).trans
      (congrArg _ (s.setResult _).finish_eq_withOk)

/-- Settles O26: each clause is the first check that fails, and an error writes `STATUS` alone. -/
theorem coefErrorsInOrder : Obligations.CoefErrorsInOrder := by
  intro s row col hi
  refine ⟨fun hk => ?_, fun hk hm => ?_, fun hk hm hkm => ?_, fun hk hm hkm hrange => ?_⟩
  · exact exec_coef_error hi (coefCheck_of_kmCheck (kmCheck_eq_kZero hk) row col)
  · exact exec_coef_error hi (coefCheck_of_kmCheck (kmCheck_eq_mZero hk hm) row col)
  · exact exec_coef_error hi (coefCheck_of_kmCheck (kmCheck_eq_kmRange hk hm hkm) row col)
  · exact exec_coef_error hi (coefCheck_eq_operandRange ((kmCheck_eq_none _).2 ⟨hk, hm, hkm⟩) hrange)

end Sys2Proof.Machine
end

section
/-! ENCODE (R110 to R117): what its passes leave at every address, and its checks in their order. -/

namespace Sys2Proof.Machine

/-! ### The parity bytes -/

/-- A fold over memory puts `v` at `x`, if the round of some `y` in the list does and no round changes the value of `v` or,
but for that of `y`, the byte at `x`. -/
theorem foldl_read_written {α : Type} {f : Memory → α → Memory} {l : List α} {y : α} (hy : y ∈ l) {x : Nat}
    {v : Memory → Byte} (hwrite : ∀ mem, Memory.read (f mem y) x = v mem) (hv : ∀ mem, ∀ z ∈ l, v (f mem z) = v mem)
    (hkeep : ∀ mem, ∀ z ∈ l, z ≠ y → Memory.read (f mem z) x = Memory.read mem x) (mem : Memory) :
    Memory.read (l.foldl f mem) x = v mem := by
  induction l generalizing mem with
  | nil => exact absurd hy List.not_mem_nil
  | cons z zs ih =>
    rw [List.foldl_cons]
    by_cases hzs : y ∈ zs
    · rw [ih hzs (fun m w hw => hv m w (List.mem_cons_of_mem _ hw))
        (fun m w hw => hkeep m w (List.mem_cons_of_mem _ hw)), hv mem z List.mem_cons_self]
    · obtain rfl : y = z := (List.mem_cons.1 hy).resolve_right hzs
      rw [foldl_read_kept f x zs fun m w hw => hkeep m w (List.mem_cons_of_mem _ hw) (ne_of_mem_of_not_mem hw hzs)]
      exact hwrite mem

/-- The sum of R113: byte `b` of parity block `j`, over the data blocks that memory holds. -/
def Engine.parityByte (e : Engine) (mem : Memory) (j b : Nat) : Byte :=
  xorSum e.rows fun i => gmul (coef e.rows (e.rows + j) i) (Memory.read mem (e.addrOf i + b))

theorem Engine.block_contains (e : Engine) (n : Nat) {b : Nat} (hb : b < e.blockLen) :
    (e.block n).contains (e.addrOf n + b) := ⟨Nat.le_add_right _ _, Nat.add_lt_add_left hb _⟩

theorem Engine.exists_byte_of_inRecoveryBlock {e : Engine} {a : Nat} (h : e.inRecoveryBlock a) :
    ∃ j < e.parityRows, ∃ b < e.blockLen, a = e.addrOf (e.rows + j) + b := by
  obtain ⟨j, hj, hlo, hhi⟩ := h
  obtain ⟨b, rfl⟩ := Nat.exists_eq_add_of_le hlo
  exact ⟨j, hj, b, Nat.lt_of_add_lt_add_left hhi, rfl⟩

section
variable {s : State} (h : EncodeReady s)
include h

/-- A recovery buffer ends before any other buffer begins, or begins after its end. -/
theorem EncodeReady.before_or_after {j n : Nat} (hj : j < s.engine.parityRows)
    (hn : n < s.engine.rows + s.engine.parityRows) (hne : n ≠ s.engine.rows + j) :
    s.engine.addrOf (s.engine.rows + j) + s.engine.blockLen ≤ s.engine.addrOf n ∨
      s.engine.addrOf n + s.engine.blockLen ≤ s.engine.addrOf (s.engine.rows + j) := by
  have hsize := h.checks.size
  have hmax := h.overlap j hj n hn hne (max (s.engine.addrOf (s.engine.rows + j)) (s.engine.addrOf n))
  simp only [Region.contains, Engine.block] at hmax
  omega

/-- No data byte lies in a recovery buffer. -/
theorem EncodeReady.data_not_inRecoveryBlock {i b : Nat} (hi : i < s.engine.rows) (hb : b < s.engine.blockLen) :
    ¬ s.engine.inRecoveryBlock (s.engine.addrOf i + b) := by
  rintro ⟨j, hj, hc⟩
  exact h.overlap j hj i (by omega) (by omega) _ ⟨hc, s.engine.block_contains i hb⟩

/-- The sums of R113 depend on memory outside the recovery buffers alone. -/
theorem EncodeReady.parityByte_congr {mem mem' : Memory}
    (hmem : ∀ a, ¬ s.engine.inRecoveryBlock a → Memory.read mem' a = Memory.read mem a) (j : Nat) {b : Nat}
    (hb : b < s.engine.blockLen) : s.engine.parityByte mem' j b = s.engine.parityByte mem j b :=
  xorSum_congr fun _ hi => congrArg _ (hmem _ (h.data_not_inRecoveryBlock hi hb))

theorem EncodeReady.read_encodeRow (mem : Memory) {j b : Nat} (hj : j < s.engine.parityRows)
    (hb : b < s.engine.blockLen) :
    Memory.read (encodeRow s.engine mem j) (s.engine.addrOf (s.engine.rows + j) + b) =
      s.engine.parityByte mem j b := by
  rw [encodeRow_read _ _ _ _ fun _ _ => h.before_or_after hj (by omega) (by omega),
    if_pos (s.engine.block_contains _ hb), Nat.add_sub_cancel_left]
  exact xorSum_congr fun i _ => gmul_comm _ _

theorem EncodeReady.read_encodeRow_outside (mem : Memory) {j x : Nat} (hj : j < s.engine.parityRows)
    (hx : ¬ (s.engine.block (s.engine.rows + j)).contains x) :
    Memory.read (encodeRow s.engine mem j) x = Memory.read mem x := by
  rw [encodeRow_read _ _ _ _ fun _ _ => h.before_or_after hj (by omega) (by omega), if_neg hx]

/-- Every recovery buffer ends with the sums of R113: its own round writes them, and no round touches the data buffers or
another recovery buffer. -/
theorem EncodeReady.read_encodeBlocks (mem : Memory) {j b : Nat} (hj : j < s.engine.parityRows)
    (hb : b < s.engine.blockLen) :
    Memory.read (encodeBlocks s.engine mem) (s.engine.addrOf (s.engine.rows + j) + b) =
      s.engine.parityByte mem j b := by
  refine foldl_read_written (v := (s.engine.parityByte · j b)) (List.mem_range.2 hj)
    (fun mem => h.read_encodeRow mem hj hb) (fun mem z hz => ?_) (fun mem z hz hne => ?_) mem
  · have hz := List.mem_range.1 hz
    exact h.parityByte_congr (fun a ha => h.read_encodeRow_outside mem hz fun hc => ha ⟨z, hz, hc⟩) j hb
  · have hz := List.mem_range.1 hz
    exact h.read_encodeRow_outside mem hz fun hc =>
      h.overlap z hz (s.engine.rows + j) (by omega) (by omega) _ ⟨hc, s.engine.block_contains _ hb⟩

/-- Memories alike outside the recovery buffers are encoded alike (R112). -/
theorem EncodeReady.read_encodeBlocks_congr {mem mem' : Memory}
    (hmem : ∀ a, ¬ s.engine.inRecoveryBlock a → Memory.read mem' a = Memory.read mem a) (a : Nat) :
    Memory.read (encodeBlocks s.engine mem') a = Memory.read (encodeBlocks s.engine mem) a := by
  by_cases ha : s.engine.inRecoveryBlock a
  · obtain ⟨j, hj, b, hb, rfl⟩ := Engine.exists_byte_of_inRecoveryBlock ha
    rw [h.read_encodeBlocks mem' hj hb, h.read_encodeBlocks mem hj hb, h.parityByte_congr hmem j hb]
  · rw [encodeBlocks_outside _ _ _ ha, encodeBlocks_outside _ _ _ ha, hmem a ha]

/-- Whether ENCODE may do its work does not depend on what memory holds. -/
theorem EncodeReady.withMem (mem : Memory) : EncodeReady { s with mem := mem } := ⟨h.checks, h.plain, h.overlap⟩

end

/-! ### The checks, in their order (R146) -/

theorem exec_encode_error {s : State} {c : ConfigCause} (h : s.engine.status.initDone = true)
    (hc : blockCheck s.engine (s.engine.rows + s.engine.parityRows) = some c) :
    exec .encode s = .next (s.withError 1 c.info) := by
  refine (requireInit_after s _ h).trans ?_
  rw [hc]
  exact congrArg _ (s.finish_eq_withError (by simp))

/-- `DESC_ADDR[n]` of an entry the file has (R17). -/
theorem Engine.addrOf_eq (e : Engine) (n : Fin 256) : e.addrOf n = e.descAddr[n].toNat := by
  simp [Engine.addrOf]

section
variable {e : Engine} {entries : Nat}

theorem blockCheck_of_kmCheck {c : ConfigCause} (h : kmCheck e = some c) : blockCheck e entries = some c := by
  rw [blockCheck, h]

theorem blockCheck_eq_size (hkm : kmCheck e = none) (hbb : e.blockLen = 0) : blockCheck e entries = some .size := by
  rw [blockCheck, hkm]
  exact if_pos (.inl hbb)

theorem blockCheck_eq_addrRange (hkm : kmCheck e = none) (hbb : 1 ≤ e.blockLen) {n : Nat} (hn : n < entries)
    (haddr : 2 ^ 32 < e.addrOf n + e.blockLen) : blockCheck e entries = some .addrRange := by
  have hsize : ¬ (e.blockLen = 0 ∨ e.blockLen % Config.granule ≠ 0) := by
    rw [Config.granule, Nat.mod_one]
    omega
  have hany : ((List.range entries).any fun n => decide (e.addrOf n + e.blockLen > Config.addressLimit)) = true :=
    List.any_eq_true.2 ⟨n, List.mem_range.2 hn, decide_eq_true haddr⟩
  rw [blockCheck, hkm]
  dsimp only
  rw [if_neg hsize, if_pos hany]

end

/-! ### The statements -/

/-- Settles O34: the answer is the passes' memory, which holds the sums of R113 in the recovery buffers. -/
theorem encodeComputesParity : Obligations.EncodeComputesParity := fun s h =>
  ⟨_, (exec_encode_ready h).trans (congrArg _ (State.finish_eq_withOk _)),
    fun _ hj _ hb => h.read_encodeBlocks s.mem hj hb, encodeBlocks_outside _ _⟩

/-- Settles O35: the sums are over data bytes, and these lie outside the recovery buffers. -/
theorem encodeIgnoresOldParity : Obligations.EncodeIgnoresOldParity := fun _ mem' h hmem =>
  ⟨_, _, exec_encode_ready h, exec_encode_ready (h.withMem mem'), h.read_encodeBlocks_congr hmem,
    fun _ hi _ hb => encodeBlocks_outside _ _ _ (h.data_not_inRecoveryBlock hi hb)⟩

/-- Settles O36: each clause is the first check that fails, and an error writes `STATUS` alone. -/
theorem encodeErrorsInOrder : Obligations.EncodeErrorsInOrder := by
  intro s hi
  refine ⟨fun hk => ?_, fun hk hm => ?_, fun hk hm hkm => ?_, fun hk hm hkm hbb => ?_, fun hk hm hkm hbb haddr => ?_⟩
  · exact exec_encode_error hi (blockCheck_of_kmCheck (kmCheck_eq_kZero hk))
  · exact exec_encode_error hi (blockCheck_of_kmCheck (kmCheck_eq_mZero hk hm))
  · exact exec_encode_error hi (blockCheck_of_kmCheck (kmCheck_eq_kmRange hk hm hkm))
  · exact exec_encode_error hi (blockCheck_eq_size ((kmCheck_eq_none _).2 ⟨hk, hm, hkm⟩) hbb)
  · obtain ⟨n, hn, hpast⟩ := haddr
    rw [← s.engine.addrOf_eq n] at hpast
    exact exec_encode_error hi (blockCheck_eq_addrRange ((kmCheck_eq_none _).2 ⟨hk, hm, hkm⟩) hbb hn hpast)

end Sys2Proof.Machine
end

section
/-! DECODE's checks and classification, in their order, and its fast path (R121 to R123, R146). -/

namespace Sys2Proof.Machine

/-! ### The first offending slot -/

section
variable {e : Engine} {p : Nat}

theorem slotError_eq_rowRange (h : e.rows + e.parityRows ≤ e.rowOf p) : slotError e p = some .rowRange := if_pos h

/-- A slot with an original row that an earlier slot carries (R122). -/
theorem slotError_eq_dupOriginal (hrow : e.rowOf p < e.rows) (hdup : ∃ q < p, e.rowOf q = e.rowOf p) :
    slotError e p = some .dupOriginal := by
  obtain ⟨q, hq, heq⟩ := hdup
  have hany : ((List.range p).any fun q => e.rowOf q == e.rowOf p) = true :=
    List.any_eq_true.2 ⟨q, List.mem_range.2 hq, beq_iff_eq.2 heq⟩
  rw [slotError, if_neg (by omega), if_pos ⟨hrow, hany⟩]

/-- A slot that does not offend (R122). -/
theorem slotError_eq_none
    (h : ¬ (e.rows + e.parityRows ≤ e.rowOf p ∨ (e.rowOf p < e.rows ∧ ∃ q < p, e.rowOf q = e.rowOf p))) :
    slotError e p = none := by
  obtain ⟨hrange, hdup⟩ := not_or.1 h
  have hany : ¬ (e.rowOf p < e.rows ∧ ((List.range p).any fun q => e.rowOf q == e.rowOf p) = true) := by
    simpa using hdup
  rw [slotError, if_neg hrange, if_neg hany]

/-- What the classification can find: never `SINGULAR` (R122). -/
theorem slotError_cause {c : DecodeCause} (h : slotError e p = some c) :
    (c = .rowRange ∧ e.rows + e.parityRows ≤ e.rowOf p) ∨ c = .dupOriginal := by
  unfold slotError at h
  split_ifs at h with hrange hdup
  · exact .inl ⟨(Option.some.inj h).symm, hrange⟩
  · exact .inr (Option.some.inj h).symm

/-- The lowest offending slot decides (R122). -/
theorem classifyError_eq_some {c : DecodeCause} (hp : p < e.rows) (hbefore : ∀ q < p, slotError e q = none)
    (hslot : slotError e p = some c) : classifyError e = some c := by
  unfold classifyError
  generalize e.rows = n at hp ⊢
  induction n with
  | zero => exact absurd hp (Nat.not_lt_zero p)
  | succ n ih =>
    rw [List.range_succ, List.findSome?_append]
    rcases Nat.lt_succ_iff_lt_or_eq.1 hp with hlt | rfl
    · rw [ih hlt, Option.some_or]
    · rw [List.findSome?_eq_none_iff.2 fun q hq => hbefore q (List.mem_range.1 hq), List.findSome?_singleton, hslot,
        Option.none_or]

end

/-! ### DECODE with failing checks -/

theorem exec_decode_configError {s : State} {c : ConfigCause} (h : s.engine.status.initDone = true)
    (hc : blockCheck s.engine s.engine.rows = some c) : exec .decode s = .next (s.withError 1 c.info) := by
  refine (requireInit_after s _ h).trans ?_
  rw [hc]
  exact congrArg _ (s.finish_eq_withError (by simp))

theorem exec_decode_classifyError {s : State} {c : DecodeCause} (h : BlocksReady s.engine s.engine.rows)
    (hc : classifyError s.engine = some c) : exec .decode s = .next (s.withError 2 c.info) := by
  refine (requireInit_after s _ h.initDone).trans ?_
  rw [h.blockCheck, hc]
  exact congrArg _ (s.finish_eq_withError (by simp))

/-! ### The statements -/

/-- Settles O37: each clause is the first check that fails, and an error writes `STATUS` alone. -/
theorem decodeErrorsInOrder : Obligations.DecodeErrorsInOrder := by
  intro s hi
  refine ⟨fun hk => ?_, fun hk hm => ?_, fun hk hm hkm => ?_, fun hk hm hkm hbb => ?_, fun hk hm hkm hbb haddr => ?_,
    fun h p hp hbefore => ⟨fun hrange => ?_, fun hdup => ?_⟩⟩
  · exact exec_decode_configError hi (blockCheck_of_kmCheck (kmCheck_eq_kZero hk))
  · exact exec_decode_configError hi (blockCheck_of_kmCheck (kmCheck_eq_mZero hk hm))
  · exact exec_decode_configError hi (blockCheck_of_kmCheck (kmCheck_eq_kmRange hk hm hkm))
  · exact exec_decode_configError hi (blockCheck_eq_size ((kmCheck_eq_none _).2 ⟨hk, hm, hkm⟩) hbb)
  · obtain ⟨n, hn, hpast⟩ := haddr
    rw [← s.engine.addrOf_eq n] at hpast
    exact exec_decode_configError hi (blockCheck_eq_addrRange ((kmCheck_eq_none _).2 ⟨hk, hm, hkm⟩) hbb hn hpast)
  · exact exec_decode_classifyError h
      (classifyError_eq_some hp (fun q hq => slotError_eq_none (hbefore q hq)) (slotError_eq_rowRange hrange))
  · exact exec_decode_classifyError h
      (classifyError_eq_some hp (fun q hq => slotError_eq_none (hbefore q hq)) (slotError_eq_dupOriginal hdup.1 hdup.2))

/-- Settles O38: all rows original, so the classification can only find one that comes twice, and finds it if there is one;
and no slot is a parity slot. -/
theorem decodeFastPath : Obligations.DecodeFastPath := by
  intro s h horig
  refine ⟨fun hdistinct => ?_, fun hdistinct => ?_⟩
  · have hclass : RowsClassified s.engine :=
      ⟨fun p hp => Nat.lt_add_right _ (horig p hp), fun p hp q hq _ => hdistinct p hp q hq⟩
    have hnil : s.engine.paritySlots = [] :=
      List.eq_nil_iff_forall_not_mem.2 fun p hp => by
        obtain ⟨hp, hpar⟩ := (s.engine.mem_paritySlots p).1 hp
        exact absurd (horig p hp) (Nat.not_lt.2 hpar)
    exact (exec_decode_no_parity h hclass hnil).trans (congrArg _ s.finish_eq_withOk)
  · have hfound : classifyError s.engine ≠ none := fun hnone =>
      hdistinct fun p hp q hq =>
        ((classifyError_eq_none _).1 hnone).distinctOriginals p hp q hq (horig p hp)
    obtain ⟨c, hc⟩ := Option.ne_none_iff_exists'.1 hfound
    obtain ⟨p, hp, hslot⟩ := List.exists_of_findSome?_eq_some hc
    have hp := horig p (List.mem_range.1 hp)
    rcases slotError_cause hslot with ⟨-, hrange⟩ | rfl
    · omega
    · exact exec_decode_classifyError h hc

end Sys2Proof.Machine
end

section
/-! DECODE that ends with `SINGULAR`: the only state it answers, and the free bytes drawn in it (R129, U3). -/

namespace Sys2Proof.Machine

/-! ### The state of a SINGULAR end -/

/-- The classification reports no `SINGULAR` (R122). -/
theorem classifyError_ne_singular (e : Engine) : classifyError e ≠ some .singular := by
  intro h
  obtain ⟨p, -, hslot⟩ := List.exists_of_findSome?_eq_some h
  rcases slotError_cause hslot with ⟨hc, -⟩ | hc <;> cases hc

/-- `(2, 3)` is reported by the solver alone, with the parity-slot buffers undefined (R129). -/
theorem eq_scrambleParity_of_singular {s t : State} (h : exec .decode s = .next t) (herr : t.engine.status.err = 2)
    (hinfo : t.engine.status.errInfo = 3) : t = s.scrambleParity.finish (.decodeError .singular) := by
  have hcode {u : State} {c : Completion} (ht : t = u.finish c) : c = .decodeError .singular := by
    subst ht
    have hc : c.code = 2 := herr
    have hi : c.info = 3 := hinfo
    cases c with
    | decodeError cause =>
      cases cause with
      | singular => rfl
      | rowRange | dupOriginal => cases hi
    | _ => cases hc
  replace h : execDecode s = .next t := h
  unfold execDecode at h
  rcases requireInit_cases s _ with ⟨-, hr⟩ | ⟨-, hr⟩ <;> rw [hr] at h
  · cases hcode (Host.Outcome.next.inj h).symm
  split at h
  · cases hcode (Host.Outcome.next.inj h).symm
  split at h
  · next c hc =>
    cases hcode (Host.Outcome.next.inj h).symm
    exact absurd hc (classifyError_ne_singular s.engine)
  split at h
  · cases hcode (Host.Outcome.next.inj h).symm
  have ht := withContract_next h
  unfold decodeOutcome at ht
  split at ht
  · cases hcode ht
  · exact ht

/-- A SINGULAR end writes no register but `STATUS` (R129). -/
theorem State.scrambleParity_finish_engine (s : State) :
    (s.scrambleParity.finish (.decodeError .singular)).engine = (s.withError 2 3).engine := by
  rw [State.finish_eq_withError _ (by simp)]
  simp only [State.withError, State.scrambleParity_engine]
  rfl

/-! ### The free bytes -/

/-- Since `s`, the bytes of these slots' buffers have become free bytes: the byte at `a` is number `draw a`, and no number
is drawn twice (U3). -/
structure State.drawn (s w : State) (slots : List Nat) (draw : Nat → Nat) : Prop where
  counter : s.freeNext ≤ w.freeNext
  read : ∀ a, (∃ p ∈ slots, (s.engine.block p).contains a) →
    Memory.read w.mem a = Config.freeByte (draw a) ∧ s.freeNext ≤ draw a ∧ draw a < w.freeNext
  inj : ∀ a b, (∃ p ∈ slots, (s.engine.block p).contains a) → (∃ p ∈ slots, (s.engine.block p).contains b) →
    draw a = draw b → a = b

/-- The numbers after one more buffer is undefined: its bytes take the next ones in address order. -/
def drawNext (r : Region) (next : Nat) (draw : Nat → Nat) (a : Nat) : Nat :=
  if r.contains a then next + (a - r.base) else draw a

theorem State.read_scramble_block (w : State) (e : Engine) (p a : Nat) :
    Memory.read (w.scramble (e.addrOf p) e.blockLen).mem a =
      if (e.block p).contains a then Config.freeByte (w.freeNext + (a - (e.block p).base)) else Memory.read w.mem a :=
  fillFree_read w.mem (e.addrOf p) w.freeNext e.blockLen a

theorem State.drawn.scramble {s w : State} {slots : List Nat} {draw : Nat → Nat} (h : s.drawn w slots draw) (p : Nat) :
    s.drawn (w.scramble (s.engine.addrOf p) s.engine.blockLen) (slots ++ [p])
      (drawNext (s.engine.block p) w.freeNext draw) := by
  have hcases {a : Nat} (ha : ∃ q ∈ slots ++ [p], (s.engine.block q).contains a) :
      (s.engine.block p).contains a ∨
        (¬ (s.engine.block p).contains a ∧ ∃ q ∈ slots, (s.engine.block q).contains a) := by
    obtain ⟨q, hq, hqa⟩ := ha
    rcases List.mem_append.1 hq with hq | hq
    · by_cases hpa : (s.engine.block p).contains a
      · exact .inl hpa
      · exact .inr ⟨hpa, q, hq, hqa⟩
    · exact .inl (List.mem_singleton.1 hq ▸ hqa)
  refine ⟨Nat.le_add_right_of_le h.counter, fun a ha => ?_, fun a b ha hb hab => ?_⟩
  · have hcount := h.counter
    rw [w.read_scramble_block, State.scramble_freeNext]
    unfold drawNext
    rcases hcases ha with hpa | ⟨hpa, hold⟩
    · rw [if_pos hpa, if_pos hpa]
      exact ⟨rfl, Nat.le_add_right_of_le hcount, Nat.add_lt_add_left (Nat.sub_lt_left_of_lt_add hpa.1 hpa.2) _⟩
    · obtain ⟨hread, hlo, hhi⟩ := h.read a hold
      rw [if_neg hpa, if_neg hpa]
      exact ⟨hread, hlo, by omega⟩
  · unfold drawNext at hab
    rcases hcases ha with hpa | ⟨hpa, holda⟩ <;> rcases hcases hb with hpb | ⟨hpb, holdb⟩
    · rw [if_pos hpa, if_pos hpb] at hab
      simp only [Region.contains, Engine.block] at hpa hpb hab
      omega
    · have hlt := (h.read b holdb).2.2
      rw [if_pos hpa, if_neg hpb] at hab
      omega
    · have hlt := (h.read a holda).2.2
      rw [if_neg hpa, if_pos hpb] at hab
      omega
    · rw [if_neg hpa, if_neg hpb] at hab
      exact h.inj a b holda holdb hab

/-- Slot after slot, every byte of the buffers gets a number of its own. -/
theorem State.exists_drawn (s : State) (slots : List Nat) :
    ∃ draw, s.drawn (slots.foldl (fun w p => w.scramble (s.engine.addrOf p) s.engine.blockLen) s) slots draw := by
  induction slots using List.reverseRecOn with
  | nil => exact ⟨id, Nat.le_refl _, by simp, by simp⟩
  | append_singleton slots p ih =>
    obtain ⟨draw, h⟩ := ih
    rw [List.foldl_append]
    exact ⟨_, h.scramble p⟩

theorem Engine.inParityBlock_iff (e : Engine) (a : Nat) :
    e.inParityBlock a ↔ ∃ p ∈ e.paritySlots, (e.block p).contains a := by
  simp only [Engine.inParityBlock, Engine.mem_paritySlots, and_assoc]

/-- Settles O45: the solver found no solution, and the buffers of the parity slots were drawn one after the other. -/
theorem singularLeavesFreeBytes : Obligations.SingularLeavesFreeBytes := by
  intro s t h herr hinfo
  have hkept := (exec_ends h).surroundingsKept
  have hread := (exec_ends h).read_outside
  obtain rfl := eq_scrambleParity_of_singular h herr hinfo
  obtain ⟨draw, hdraw⟩ := s.exists_drawn s.engine.paritySlots
  refine ⟨s.scrambleParity_finish_engine, hkept, hread, draw, ?_, ?_⟩
  · exact fun a ha => hdraw.read a ((s.engine.inParityBlock_iff a).1 ha)
  · exact fun a b ha hb => hdraw.inj a b ((s.engine.inParityBlock_iff a).1 ha) ((s.engine.inParityBlock_iff b).1 hb)

end Sys2Proof.Machine
end

section
/-! How DECODE ends depends on registers alone (R133): two runs over slots alike, whatever memory holds. -/

namespace Sys2Proof.Machine

/-! ### Engines alike in what DECODE reads -/

/-- Two engines alike in the registers DECODE reads and in the descriptors of their slots (R121). -/
structure Engine.sameSlots (e e' : Engine) : Prop where
  rows : e'.rows = e.rows
  parityRows : e'.parityRows = e.parityRows
  blockLen : e'.blockLen = e.blockLen
  addr : ∀ p < e.rows, e'.addrOf p = e.addrOf p
  row : ∀ p < e.rows, e'.rowOf p = e.rowOf p

theorem findSome?_congr_mem {α β : Type} {f g : α → Option β} {l : List α} (h : ∀ a ∈ l, f a = g a) :
    l.findSome? f = l.findSome? g := by
  simpa [List.findSome?_map] using congrArg (List.findSome? id) (List.map_congr_left h)

theorem any_congr_mem {α : Type} {f g : α → Bool} {l : List α} (h : ∀ a ∈ l, f a = g a) : l.any f = l.any g := by
  simpa [List.any_map] using congrArg (List.any · id) (List.map_congr_left h)

section
variable {e e' : Engine} (h : e.sameSlots e')
include h

theorem Engine.sameSlots.block {p : Nat} (hp : p < e.rows) : e'.block p = e.block p := by
  rw [Engine.block, Engine.block, h.addr p hp, h.blockLen]

theorem Engine.sameSlots.paritySlots : e'.paritySlots = e.paritySlots := by
  rw [Engine.paritySlots, Engine.paritySlots, h.rows]
  exact List.filter_congr fun p hp => by rw [h.row p (List.mem_range.1 hp)]

theorem Engine.sameSlots.originalSlots : e'.originalSlots = e.originalSlots := by
  rw [Engine.originalSlots, Engine.originalSlots, h.rows]
  exact List.filter_congr fun p hp => by rw [h.row p (List.mem_range.1 hp)]

theorem Engine.sameSlots.missingRows : e'.missingRows = e.missingRows := by
  rw [Engine.missingRows, Engine.missingRows, h.rows]
  exact List.filter_congr fun r _ => congrArg (!·)
    (any_congr_mem fun p hp => by rw [h.row p (List.mem_range.1 hp)])

theorem Engine.sameSlots.parityBlocks : e'.parityBlocks = e.parityBlocks := by
  rw [Engine.parityBlocks, Engine.parityBlocks, h.paritySlots]
  exact List.map_congr_left fun p hp => h.block ((e.mem_paritySlots p).1 hp).1

theorem Engine.sameSlots.originalBlocks : e'.originalBlocks = e.originalBlocks := by
  rw [Engine.originalBlocks, Engine.originalBlocks, h.originalSlots]
  exact List.map_congr_left fun p hp => h.block ((e.mem_originalSlots p).1 hp).1

theorem Engine.sameSlots.blockCheck : blockCheck e' e'.rows = blockCheck e e.rows := by
  unfold Machine.blockCheck kmCheck
  rw [h.rows, h.parityRows, h.blockLen,
    any_congr_mem fun p hp => by rw [h.addr p (List.mem_range.1 hp)]]

theorem Engine.sameSlots.classifyError : classifyError e' = classifyError e := by
  unfold Machine.classifyError
  rw [h.rows]
  refine findSome?_congr_mem fun p hp => ?_
  have hp := List.mem_range.1 hp
  unfold slotError
  rw [h.row p hp, h.rows, h.parityRows,
    any_congr_mem fun q hq => by rw [h.row q ((List.mem_range.1 hq).trans hp)]]

/-! ### The solver -/

theorem Engine.sameSlots.initialSolver (mem : Memory) : initialSolver e' mem = initialSolver e mem := by
  have hcancel : cancelKnown e' mem = cancelKnown e mem := by
    unfold cancelKnown
    rw [h.paritySlots]
    refine List.foldl_ext _ _ _ fun mem p hp => ?_
    unfold cancelSlot
    rw [h.originalSlots]
    refine List.foldl_ext _ _ _ fun mem q hq => ?_
    have hp := ((e.mem_paritySlots p).1 hp).1
    have hq := ((e.mem_originalSlots q).1 hq).1
    rw [h.addr p hp, h.addr q hq, h.row p hp, h.row q hq, h.rows, h.blockLen]
  have hmatrix : initialMatrix e' = initialMatrix e := by
    unfold initialMatrix
    rw [h.paritySlots, h.missingRows, h.rows]
    exact List.map_congr_left fun p hp => by rw [h.row p ((e.mem_paritySlots p).1 hp).1]
  unfold Machine.initialSolver
  rw [hcancel, hmatrix, h.paritySlots]

/-- The buffers of the parity slots are where they are; beyond their number `parityAddr` names slot 0, which exists. -/
theorem Engine.sameSlots.parityAddr (hk : 1 ≤ e.rows) (t : Nat) : e'.parityAddr t = e.parityAddr t := by
  unfold Engine.parityAddr
  rw [h.paritySlots]
  refine h.addr _ ?_
  rcases Nat.lt_or_ge t e.paritySlots.length with ht | ht
  · exact ((e.mem_paritySlots _).1 (e.paritySlot_getD t ht)).1
  · rwa [List.getD_eq_default _ _ ht]

theorem Engine.sameSlots.solve (hk : 1 ≤ e.rows) (mem : Memory) : solve e' mem = solve e mem := by
  have hscale : Solver.scaleRow e' = Solver.scaleRow e := by
    funext z t g
    rw [Solver.scaleRow, h.parityAddr hk, h.blockLen, Solver.scaleRow]
  have hcancel : Solver.cancelEntry e' = Solver.cancelEntry e := by
    funext u t z t2
    simp only [Solver.cancelEntry, h.parityAddr hk, h.blockLen]
  have hforward : forwardStep e' = forwardStep e := by
    funext n z u
    unfold forwardStep
    rw [hscale, hcancel]
  have hback : backStep e' = backStep e := by
    funext z u
    unfold backStep
    rw [hcancel]
  unfold Machine.solve forwardEliminate backSubstitute
  rw [h.initialSolver, hforward, hback, h.paritySlots]

/-- The rewritten rows agree where the rows did (R127). -/
theorem Engine.sameSlots.rowOf_rewriteRows (piv : List Nat) {p : Nat} (hp : p < e.rows) (hk : e.rows ≤ 256) :
    (rewriteRows e' piv).rowOf p = (rewriteRows e piv).rowOf p := by
  unfold rewriteRows
  rw [h.paritySlots, h.missingRows]
  refine List.foldl_rel (r := fun w' w : Engine => w'.rowOf p = w.rowOf p) (h.row p hp) fun u _ w' w hw => ?_
  by_cases hn : p = e.paritySlots.getD (piv.getD u 0) 0
  · rw [← hn, Engine.setRow_rowOf _ _ _ (by omega), Engine.setRow_rowOf _ _ _ (by omega)]
    simp
  · rw [Engine.setRow_rowOf_ne _ _ _ hn, Engine.setRow_rowOf_ne _ _ _ hn, hw]

end

/-! ### Two runs -/

/-- Two ends with the same code and sub-cause, and the same rows in the first `k` slots. -/
structure endsWithSameRows (k : Nat) (t t' : State) : Prop where
  err : t'.engine.status.err = t.engine.status.err
  errInfo : t'.engine.status.errInfo = t.engine.status.errInfo
  row : ∀ p < k, t'.engine.rowOf p = t.engine.rowOf p

theorem endsWithSameRows_finish {k : Nat} {u u' : State} (h : ∀ p < k, u'.engine.rowOf p = u.engine.rowOf p)
    (c : Completion) : endsWithSameRows k (u.finish c) (u'.finish c) := ⟨rfl, rfl, h⟩

section
variable {s s' : State} (h : s.engine.sameSlots s'.engine)
include h

theorem Engine.sameSlots.reports (c : Completion) : endsWithSameRows s.engine.rows (s.finish c) (s'.finish c) :=
  endsWithSameRows_finish h.row c

theorem Engine.sameSlots.decodeOutcome (hk : 1 ≤ s.engine.rows) (hk' : s.engine.rows ≤ 256) :
    endsWithSameRows s.engine.rows (decodeOutcome s) (decodeOutcome s') := by
  unfold Machine.decodeOutcome
  rw [h.solve hk]
  rcases solve_sameMatrix s.engine s.mem s'.mem with ⟨hz, hz'⟩ | ⟨z, z', hz, hz', hsame⟩
  · rw [hz, hz']
    refine endsWithSameRows_finish (u := s.scrambleParity) (u' := s'.scrambleParity) (fun p hp => ?_) _
    rw [State.scrambleParity_engine, State.scrambleParity_engine, h.row p hp]
  · rw [hz, hz']
    dsimp only
    rw [hsame.2.2]
    exact endsWithSameRows_finish (u := { s with mem := z.mem, engine := rewriteRows s.engine z.piv })
      (u' := { s' with mem := z'.mem, engine := rewriteRows s'.engine z.piv })
      (fun p hp => h.rowOf_rewriteRows z.piv hp hk') .ok

theorem execDecode_sameRows (hinit : s'.engine.status.initDone = s.engine.status.initDone)
    (hplat : s'.platform = s.platform) :
    Result.follows (endsWithSameRows s.engine.rows) (exec .decode s) (exec .decode s') := by
  have htouch (kind : WindowKind) (regions : List Region) : s'.touches kind regions = s.touches kind regions := by
    unfold State.touches
    rw [hplat]
  show Result.follows _ (execDecode s) (execDecode s')
  unfold execDecode requireInit
  rw [hinit, h.blockCheck, h.classifyError, h.paritySlots, h.parityBlocks, h.originalBlocks]
  split
  swap
  · exact Result.follows_next (h.reports _)
  cases hblock : blockCheck s.engine s.engine.rows with
  | some c => exact Result.follows_next (h.reports _)
  | none =>
    obtain ⟨hk, -, hkm, -, -⟩ := (blockCheck_eq_none _ _).1 hblock
    cases classifyError s.engine with
    | some c => exact Result.follows_next (h.reports _)
    | none =>
      simp only [withContract_eq, htouch]
      split_ifs
      · exact Result.follows_next (h.reports _)
      · exact Result.follows_refused _ _
      · exact Result.follows_refused _ _
      · exact Result.follows_next (h.decodeOutcome hk (by omega))
      · exact Result.follows_refused _ _

end

/-- Settles O46: the checks, the classification and the elimination read registers and the first `k` descriptors alone. -/
theorem decodeEndIgnoresContents : Obligations.DecodeEndIgnoresContents := by
  intro s s' t hinit hk hm hbb hdesc hplat h
  have hsame : s.engine.sameSlots s'.engine :=
    ⟨congrArg BitVec.toNat hk, congrArg BitVec.toNat hm, congrArg BitVec.toNat hbb,
      fun p hp => (hdesc p hp).1, fun p hp => (hdesc p hp).2⟩
  obtain ⟨t', ht', hends⟩ := execDecode_sameRows hsame hinit hplat t h
  exact ⟨t', ht', hends.err, hends.errInfo, hends.row⟩

end Sys2Proof.Machine
end

section
/-! The elimination of DECODE column by column (R125, R126). A column of the augmented system is a byte for each row of the
matrix: the entries of one matrix column, or the bytes at one offset of the parity-slot buffers. Every operation of the
elimination does the same to all columns. -/

namespace Sys2Proof.Machine

/-! ### The matrix -/

theorem getD_zipWith_addMultiple (f : Byte) {r r' : List Byte} (hlen : r.length = r'.length) (v : Nat) :
    (List.zipWith (fun x y => x ^^^ gmul f y) r r').getD v 0 = r.getD v 0 ^^^ gmul f (r'.getD v 0) := by
  have hzip : (List.zipWith (fun x y => x ^^^ gmul f y) r r').length = r.length := by
    rw [List.length_zipWith, hlen, Nat.min_self]
  rcases Nat.lt_or_ge v r.length with hv | hv
  · rw [List.getD_eq_getElem _ _ (hzip.symm ▸ hv), List.getElem_zipWith, List.getD_eq_getElem _ _ hv,
      List.getD_eq_getElem _ _ (hlen ▸ hv)]
  · rw [List.getD_eq_default _ _ (hzip.symm ▸ hv), List.getD_eq_default _ _ hv, List.getD_eq_default _ _ (hlen ▸ hv),
      gmul_zero]
    exact BitVec.xor_zero.symm

/-- The matrix has `n` rows of `n` entries. -/
structure Solver.square (n : Nat) (z : Solver) : Prop where
  rows : z.mat.length = n
  entries : ∀ r ∈ z.mat, r.length = n

section
variable {n : Nat} {z : Solver} (h : z.square n)
include h

theorem Solver.square.row_length {t : Nat} (ht : t < n) : (z.row t).length = n := by
  have ht := h.rows ▸ ht
  rw [Solver.row, List.getD_eq_getElem _ _ ht]
  exact h.entries _ (List.getElem_mem ht)

theorem Solver.square.setRow {r : List Byte} (hr : r.length = n) (t : Nat) :
    Solver.square n { z with mat := z.mat.set t r } := by
  refine ⟨by rw [List.length_set, h.rows], fun r' hr' => ?_⟩
  rcases List.mem_or_eq_of_mem_set hr' with hmem | rfl
  · exact h.entries r' hmem
  · exact hr

theorem Solver.square.mark (used : List Bool) (piv : List Nat) :
    Solver.square n { z with used := used, piv := piv } := ⟨h.rows, h.entries⟩

theorem Solver.square.scaleRow (e : Engine) {t : Nat} (ht : t < n) (g : Byte) :
    (Solver.scaleRow e z t g).square n :=
  ⟨(h.setRow ((List.length_map _).trans (h.row_length ht)) t).rows,
    (h.setRow ((List.length_map _).trans (h.row_length ht)) t).entries⟩

theorem Solver.square.cancelEntry (e : Engine) (u : Nat) {t t2 : Nat} (ht : t < n) (ht2 : t2 < n) :
    (Solver.cancelEntry e u t z t2).square n := by
  have hlen : (List.zipWith (fun x y => x ^^^ gmul (z.entry t2 u) y) (z.row t2) (z.row t)).length = n := by
    rw [List.length_zipWith, h.row_length ht, h.row_length ht2, Nat.min_self]
  exact ⟨(h.setRow hlen t2).rows, (h.setRow hlen t2).entries⟩

/-- What stands in the matrix once a row is replaced. -/
theorem Solver.square.getD_set {t : Nat} (ht : t < n) (r : List Byte) (t' : Nat) :
    (z.mat.set t r).getD t' [] = if t' = t then r else z.row t' := by
  rw [List.getD_eq_getElem?_getD, List.getElem?_set, Solver.row, List.getD_eq_getElem?_getD]
  rcases eq_or_ne t' t with rfl | hne
  · rw [if_pos rfl, if_pos (h.rows.symm ▸ ht), if_pos rfl]
    rfl
  · rw [if_neg hne.symm, if_neg hne]

theorem Solver.square.entry_scaleRow (e : Engine) {t : Nat} (ht : t < n) (g : Byte) (t' v : Nat) :
    (Solver.scaleRow e z t g).entry t' v = if t' = t then gmul (z.entry t v) g else z.entry t' v := by
  show ((z.mat.set t ((z.row t).map fun x => gmul x g)).getD t' []).getD v 0 = _
  rw [h.getD_set ht]
  split
  · rw [← zero_gmul g]
    exact List.getD_map (z.row t) 0 fun x => gmul x g
  · rfl

theorem Solver.square.entry_cancelEntry (e : Engine) (u : Nat) {t t2 : Nat} (ht : t < n) (ht2 : t2 < n) (t' v : Nat) :
    (Solver.cancelEntry e u t z t2).entry t' v =
      if t' = t2 then z.entry t2 v ^^^ gmul (z.entry t2 u) (z.entry t v) else z.entry t' v := by
  show ((z.mat.set t2 (List.zipWith (fun x y => x ^^^ gmul (z.entry t2 u) y) (z.row t2) (z.row t))).getD t' []).getD v 0 =
    _
  rw [h.getD_set ht2]
  split
  · exact getD_zipWith_addMultiple (z.entry t2 u) ((h.row_length ht2).trans (h.row_length ht).symm) v
  · rfl

end

/-! ### Columns -/

/-- `φ z t` is the byte in row `t` of one column of the augmented system: scaling row `t` scales it, and adding row `t` to
row `t2` adds it. -/
structure IsColumn (e : Engine) (n : Nat) (φ : Solver → Nat → Byte) : Prop where
  mark : ∀ (z : Solver) (used : List Bool) (piv : List Nat) (t : Nat), φ { z with used := used, piv := piv } t = φ z t
  scale : ∀ (z : Solver) (g : Byte) {t t' : Nat}, z.square n → t < n → t' < n →
    φ (Solver.scaleRow e z t g) t' = if t' = t then gmul (φ z t) g else φ z t'
  cancel : ∀ (z : Solver) (u : Nat) {t t2 t' : Nat}, z.square n → t < n → t2 < n → t ≠ t2 → t' < n →
    φ (Solver.cancelEntry e u t z t2) t' =
      if t' = t2 then φ z t2 ^^^ gmul (z.entry t2 u) (φ z t) else φ z t'

theorem isColumn_entry (e : Engine) (n v : Nat) : IsColumn e n fun z t => z.entry t v where
  mark _ _ _ _ := rfl
  scale _ g _ t' hz ht _ := hz.entry_scaleRow e ht g t' v
  cancel _ u _ _ t' hz ht ht2 _ _ := hz.entry_cancelEntry e u ht ht2 t' v

theorem isColumn_zero (e : Engine) (n : Nat) : IsColumn e n fun _ _ => 0 where
  mark _ _ _ _ := rfl
  scale _ g _ _ _ _ _ := by rw [zero_gmul, ite_self]
  cancel _ _ _ _ _ _ _ _ _ _ := by
    rw [gmul_zero]
    exact (ite_self _).symm

section
variable {e : Engine} {n : Nat} {φ ψ : Solver → Nat → Byte}

/-- The sum of two columns is one. -/
theorem IsColumn.xor (hφ : IsColumn e n φ) (hψ : IsColumn e n ψ) : IsColumn e n fun z t => φ z t ^^^ ψ z t where
  mark z used piv t := by rw [hφ.mark, hψ.mark]
  scale z g t t' hz ht ht' := by
    rw [hφ.scale z g hz ht ht', hψ.scale z g hz ht ht']
    split
    · rw [xor_gmul]
    · rfl
  cancel z u t t2 t' hz ht ht2 hne ht' := by
    rw [hφ.cancel z u hz ht ht2 hne ht', hψ.cancel z u hz ht ht2 hne ht']
    split
    · rw [gmul_xor]
      ac_rfl
    · rfl

/-- A multiple of a column is one. -/
theorem IsColumn.gmul (hφ : IsColumn e n φ) (c : Byte) : IsColumn e n fun z t => gmul (φ z t) c where
  mark z used piv t := by rw [hφ.mark]
  scale z g t t' hz ht ht' := by
    rw [hφ.scale z g hz ht ht']
    split
    · rw [gmul_assoc, gmul_assoc, gmul_comm g]
    · rfl
  cancel z u t t2 t' hz ht ht2 hne ht' := by
    rw [hφ.cancel z u hz ht ht2 hne ht']
    split
    · rw [xor_gmul, gmul_assoc]
    · rfl

end

/-- Row `t` of the matrix times the vector `x`. -/
def Solver.dot (n : Nat) (x : Nat → Byte) (z : Solver) (t : Nat) : Byte := xorSum n fun v => gmul (z.entry t v) (x v)

/-- The matrix times a vector is a combination of its columns. -/
theorem isColumn_dot (e : Engine) (n : Nat) (x : Nat → Byte) (m : Nat) : IsColumn e n (Solver.dot m x) := by
  induction m with
  | zero => exact isColumn_zero e n
  | succ m ih =>
    have hsucc : Solver.dot (m + 1) x = fun z t => Solver.dot m x z t ^^^ Machine.gmul (z.entry t m) (x m) :=
      funext fun z => funext fun t => xorSum_succ m _
    rw [hsucc]
    exact ih.xor ((isColumn_entry e n m).gmul (x m))

/-- No two of the first `n` parity-slot buffers share an address. -/
def Engine.parityApart (e : Engine) (n : Nat) : Prop :=
  ∀ t < n, ∀ t' < n, t ≠ t' →
    e.parityAddr t + e.blockLen ≤ e.parityAddr t' ∨ e.parityAddr t' + e.blockLen ≤ e.parityAddr t

/-- The bytes at one offset of the parity-slot buffers are a column: the buffers follow the matrix rows (R125, R126). -/
theorem isColumn_byte {e : Engine} {n b : Nat} (hap : e.parityApart n) (hb : b < e.blockLen) :
    IsColumn e n fun z t => Memory.read z.mem (e.parityAddr t + b) where
  mark _ _ _ _ := rfl
  scale z g t t' _ ht ht' := by
    show Memory.read (scale z.mem (e.parityAddr t) g e.blockLen) _ = _
    rw [scale_read]
    by_cases htt : t' = t
    · rw [htt, if_pos (by omega), if_pos rfl]
    · have := hap t' ht' t ht htt
      rw [if_neg (by omega), if_neg htt]
  cancel z u t t2 t' _ ht ht2 hne ht' := by
    show Memory.read (mulAcc z.mem (e.parityAddr t2) (e.parityAddr t) (z.entry t2 u) e.blockLen) _ = _
    rw [mulAcc_read _ _ _ _ _ (.inr (hap t2 ht2 t ht hne.symm))]
    by_cases htt : t' = t2
    · rw [htt, if_pos (by omega), if_pos rfl, Nat.add_sub_cancel_left, gmul_comm]
    · have := hap t' ht' t2 ht2 htt
      rw [if_neg (by omega), if_neg htt]

/-! ### Cancelling one column in several rows -/

/-- Row `t` added to each row of `l` as often as cancels the entry in column `u` (the inner loops of R125 and R126). -/
def cancelRows (e : Engine) (u t : Nat) (l : List Nat) (z : Solver) : Solver :=
  l.foldl (fun z t2 => if z.entry t2 u != 0 then Solver.cancelEntry e u t z t2 else z) z

/-- One round of `cancelRows`: a row with nothing to cancel is a row to which 0 is added. -/
theorem IsColumn.cancelRound {e : Engine} {n : Nat} {φ : Solver → Nat → Byte} (hφ : IsColumn e n φ) {z : Solver}
    (hz : z.square n) (u : Nat) {t t2 t' : Nat} (ht : t < n) (ht2 : t2 < n) (hne : t ≠ t2) (ht' : t' < n) :
    φ (if z.entry t2 u != 0 then Solver.cancelEntry e u t z t2 else z) t' =
      if t' = t2 then φ z t2 ^^^ Machine.gmul (z.entry t2 u) (φ z t) else φ z t' := by
  by_cases h0 : z.entry t2 u = 0
  · rw [if_neg (by simp [h0]), h0, zero_gmul]
    split
    · next htt => exact htt ▸ BitVec.xor_zero.symm
    · rfl
  · rw [if_pos (by simpa using h0), hφ.cancel z u hz ht ht2 hne ht']

theorem cancelRound_square {e : Engine} {n : Nat} {z : Solver} (hz : z.square n) (u : Nat) {t t2 : Nat} (ht : t < n)
    (ht2 : t2 < n) : (if z.entry t2 u != 0 then Solver.cancelEntry e u t z t2 else z).square n := by
  split
  · exact hz.cancelEntry e u ht ht2
  · exact hz

theorem cancelRows_square {e : Engine} {n : Nat} {l : List Nat} {z : Solver} (hz : z.square n) (u : Nat) {t : Nat}
    (ht : t < n) (hl : ∀ t2 ∈ l, t2 < n) : (cancelRows e u t l z).square n :=
  foldl_keeps (Solver.square n) _ l (fun _ hw t2 ht2 => cancelRound_square hw u ht (hl t2 ht2)) z hz

/-- Each row of `l` takes row `t` once, with the entry it had at the start. -/
theorem IsColumn.cancelRows {e : Engine} {n : Nat} {φ : Solver → Nat → Byte} (hφ : IsColumn e n φ) {l : List Nat}
    {z : Solver} (hz : z.square n) (u : Nat) {t t' : Nat} (ht : t < n) (hl : ∀ t2 ∈ l, t2 < n) (hnodup : l.Nodup)
    (htl : t ∉ l) (ht' : t' < n) :
    φ (cancelRows e u t l z) t' = if t' ∈ l then φ z t' ^^^ Machine.gmul (z.entry t' u) (φ z t) else φ z t' := by
  induction l generalizing z with
  | nil => rfl
  | cons t2 l ih =>
    obtain ⟨ht2, hl⟩ := List.forall_mem_cons.1 hl
    obtain ⟨ht2l, hnodup⟩ := List.nodup_cons.1 hnodup
    obtain ⟨hne, htl⟩ := List.ne_and_not_mem_of_not_mem_cons htl
    have hround {ψ : Solver → Nat → Byte} (hψ : IsColumn e n ψ) {t' : Nat} (ht' : t' < n) :=
      hψ.cancelRound hz u ht ht2 hne ht'
    show φ (Machine.cancelRows e u t l _) t' = _
    rw [ih (cancelRound_square hz u ht ht2) hl hnodup htl, hround hφ ht, hround (isColumn_entry e n u) ht',
      hround hφ ht', if_neg hne]
    by_cases htt : t' = t2
    · subst htt
      simp [ht2l]
    · simp [htt]

end Sys2Proof.Machine
end

section
/-! Forward elimination and back-substitution on a regular matrix (R125, R126): the pivots come in order, and the matrix
ends as the identity. A matrix with a row twice has no pivot for its last column (R135). -/

namespace Sys2Proof.Machine

/-! ### One column of forward elimination -/

/-- Column `u` eliminated with pivot `t`: row `t` is marked and scaled, and cancels the entries of the unused rows. -/
def forwardRound (e : Engine) (n u : Nat) (z : Solver) (t : Nat) : Solver :=
  cancelRows e u t ((List.range n).filter fun t2 => !((z.used.set t true).getD t2 true))
    (Solver.scaleRow e { z with used := z.used.set t true, piv := z.piv ++ [t] } t (ginv (z.entry t u)))

/-- The round of the model tests for unused rows as it goes; which they are does not change on the way. -/
theorem foldl_unused_eq_cancelRows (e : Engine) (u t : Nat) {used : List Bool} (l : List Nat) {z : Solver}
    (hz : z.used = used) :
    l.foldl (fun z t2 => if !(z.used.getD t2 true) && z.entry t2 u != 0 then Solver.cancelEntry e u t z t2 else z) z =
      cancelRows e u t (l.filter fun t2 => !(used.getD t2 true)) z := by
  induction l generalizing z with
  | nil => rfl
  | cons t2 l ih =>
    rw [List.foldl_cons, List.filter_cons, hz]
    cases used.getD t2 true with
    | true => exact ih hz
    | false =>
      simp only [Bool.not_false, Bool.true_and, if_true]
      rw [cancelRows, List.foldl_cons]
      refine ih ?_
      split
      · exact hz
      · exact hz

theorem forwardStep_eq (e : Engine) (n u : Nat) (z : Solver) :
    forwardStep e n z u = (z.pivot n u).map (forwardRound e n u z) := by
  unfold forwardStep forwardRound
  cases z.pivot n u with
  | none => rfl
  | some t => exact congrArg some (foldl_unused_eq_cancelRows e u t (List.range n) rfl)

theorem cancelRows_used_piv (e : Engine) (u t : Nat) (l : List Nat) (z : Solver) :
    (cancelRows e u t l z).used = z.used ∧ (cancelRows e u t l z).piv = z.piv := by
  refine foldl_keeps (fun w : Solver => w.used = z.used ∧ w.piv = z.piv) _ l (fun w hw t2 _ => ?_) z ⟨rfl, rfl⟩
  split
  · exact hw
  · exact hw

theorem forwardRound_used (e : Engine) (n u : Nat) (z : Solver) (t : Nat) :
    (forwardRound e n u z t).used = z.used.set t true := (cancelRows_used_piv e u t _ _).1

theorem forwardRound_piv (e : Engine) (n u : Nat) (z : Solver) (t : Nat) :
    (forwardRound e n u z t).piv = z.piv ++ [t] := (cancelRows_used_piv e u t _ _).2

theorem getD_set_used (used : List Bool) (t t' : Nat) :
    (used.set t true).getD t' true = if t' = t then true else used.getD t' true := by
  rw [List.getD_eq_getElem?_getD, List.getElem?_set, List.getD_eq_getElem?_getD]
  rcases eq_or_ne t' t with rfl | hne
  · rw [if_pos rfl, if_pos rfl]
    split <;> rfl
  · rw [if_neg hne.symm, if_neg hne]

section
variable {e : Engine} {n : Nat} {z : Solver} (hz : z.square n) {t : Nat} (ht : t < n) (u : Nat)
include hz ht

theorem forwardRound_square : (forwardRound e n u z t).square n :=
  cancelRows_square ((hz.mark _ _).scaleRow e ht _) u ht fun _ h => List.mem_range.1 (List.mem_filter.1 h).1

/-- What a round leaves in a column (R125). -/
theorem IsColumn.forwardRound {φ : Solver → Nat → Byte} (hφ : IsColumn e n φ) {t' : Nat} (ht' : t' < n) :
    φ (forwardRound e n u z t) t' =
      if t' = t then Machine.gmul (φ z t) (ginv (z.entry t u))
      else if z.used.getD t' true then φ z t'
      else φ z t' ^^^ Machine.gmul (z.entry t' u) (Machine.gmul (φ z t) (ginv (z.entry t u))) := by
  have hmark := hz.mark (z.used.set t true) (z.piv ++ [t])
  have hscaled {ψ : Solver → Nat → Byte} (hψ : IsColumn e n ψ) {t' : Nat} (ht' : t' < n) :
      ψ (Solver.scaleRow e { z with used := z.used.set t true, piv := z.piv ++ [t] } t (ginv (z.entry t u))) t' =
        if t' = t then Machine.gmul (ψ z t) (ginv (z.entry t u)) else ψ z t' := by
    rw [hψ.scale _ _ hmark ht ht', hψ.mark z _ _ t, hψ.mark z _ _ t']
  have hmem (t' : Nat) : (t' ∈ (List.range n).filter fun t2 => !((z.used.set t true).getD t2 true)) ↔
      t' < n ∧ t' ≠ t ∧ z.used.getD t' true = false := by
    rw [List.mem_filter, List.mem_range, Bool.not_eq_true', getD_set_used]
    by_cases htt : t' = t
    · simp [htt]
    · simp [htt]
  unfold Machine.forwardRound
  rw [hφ.cancelRows (hmark.scaleRow e ht _) u ht (fun _ h => ((hmem _).1 h).1) (List.nodup_range.filter _)
    (fun h => ((hmem t).1 h).2.1 rfl) ht', hscaled hφ ht, hscaled hφ ht', hscaled (isColumn_entry e n u) ht',
    if_pos rfl]
  simp only [hmem, ht', true_and]
  by_cases htt : t' = t
  · simp [htt]
  · cases z.used.getD t' true <;> simp [htt]

end

/-! ### A matrix with a row twice -/

/-- The rows not yet used as a pivot. -/
def Solver.unusedRows (n : Nat) (z : Solver) : Finset Nat :=
  (Finset.range n).filter fun t => z.used.getD t true = false

/-- Row `p` can never be a pivot: it is unused, and it is 0 or another unused row is its equal. -/
structure Solver.stuck (n : Nat) (z : Solver) (p : Nat) : Prop where
  unused : p ∈ z.unusedRows n
  row : (∀ v, z.entry p v = 0) ∨ ∃ q ∈ z.unusedRows n, q ≠ p ∧ ∀ v, z.entry q v = z.entry p v

theorem forwardRound_unusedRows (e : Engine) (n u : Nat) (z : Solver) (t : Nat) :
    (forwardRound e n u z t).unusedRows n = (z.unusedRows n).erase t := by
  ext t'
  simp only [Solver.unusedRows, forwardRound_used, getD_set_used, Finset.mem_filter, Finset.mem_erase]
  by_cases htt : t' = t
  · simp [htt]
  · simp [htt]

section
variable {e : Engine} {n u t : Nat} {z : Solver} (hz : z.square n) (ht : t < n) (hpiv : z.entry t u ≠ 0)
include hz ht

theorem entry_forwardRound_unused {p : Nat} (hp : p ∈ z.unusedRows n) (hne : p ≠ t) (v : Nat) :
    (forwardRound e n u z t).entry p v =
      z.entry p v ^^^ gmul (z.entry p u) (gmul (z.entry t v) (ginv (z.entry t u))) := by
  obtain ⟨hpn, hused⟩ := Finset.mem_filter.1 hp
  rw [(isColumn_entry e n v).forwardRound hz ht u (Finset.mem_range.1 hpn), if_neg hne, hused]
  rfl

include hpiv

/-- An equal of the pivot row becomes 0. -/
theorem entry_forwardRound_of_eq {p : Nat} (hp : p ∈ z.unusedRows n) (hne : p ≠ t)
    (heq : ∀ v, z.entry p v = z.entry t v) (v : Nat) : (forwardRound e n u z t).entry p v = 0 := by
  rw [entry_forwardRound_unused hz ht hp hne, heq, heq, gmul_comm (z.entry t v), ← gmul_assoc, gmul_ginv hpiv, one_gmul]
  exact BitVec.xor_self

/-- A round leaves a row that can never be a pivot: a row that is 0 takes nothing, two equal rows take the same, and if one
of them is the pivot it cancels the other. -/
theorem exists_stuck_forwardRound {p : Nat} (hp : z.stuck n p) : ∃ p', (forwardRound e n u z t).stuck n p' := by
  have hmem {q : Nat} (hq : q ∈ z.unusedRows n) (hne : q ≠ t) : q ∈ (forwardRound e n u z t).unusedRows n := by
    rw [forwardRound_unusedRows]
    exact Finset.mem_erase.2 ⟨hne, hq⟩
  obtain ⟨hunused, hzero | ⟨q, hq, hqp, heq⟩⟩ := hp
  · have hne : p ≠ t := by
      rintro rfl
      exact hpiv (hzero u)
    refine ⟨p, hmem hunused hne, .inl fun v => ?_⟩
    rw [entry_forwardRound_unused hz ht hunused hne, hzero, hzero, zero_gmul]
    exact BitVec.xor_self
  · rcases eq_or_ne p t with rfl | hpt
    · exact ⟨q, hmem hq hqp, .inl (entry_forwardRound_of_eq hz ht hpiv hq hqp heq)⟩
    rcases eq_or_ne q t with rfl | hqt
    · exact ⟨p, hmem hunused hpt, .inl (entry_forwardRound_of_eq hz ht hpiv hunused hpt fun v => (heq v).symm)⟩
    · refine ⟨p, hmem hunused hpt, .inr ⟨q, hmem hq hqt, hqp, fun v => ?_⟩⟩
      rw [entry_forwardRound_unused hz ht hq hqt, entry_forwardRound_unused hz ht hunused hpt, heq, heq]

end

/-- With such a row forward elimination comes to fewer columns than there are unused rows. -/
theorem length_lt_of_stuck {e : Engine} {n : Nat} {l : List Nat} {z z' : Solver} {p : Nat} (hz : z.square n)
    (hp : z.stuck n p) (h : l.foldlM (forwardStep e n) z = some z') : l.length < (z.unusedRows n).card := by
  induction l generalizing z p with
  | nil => exact Finset.card_pos.2 ⟨p, hp.unused⟩
  | cons u l ih =>
    rw [List.foldlM_cons, forwardStep_eq, Option.bind_eq_bind, Option.bind_eq_some_iff] at h
    obtain ⟨w, hw, h⟩ := h
    obtain ⟨t, hpivot, rfl⟩ := Option.map_eq_some_iff.1 hw
    obtain ⟨ht, hused, hentry⟩ := Solver.pivot_eq_some hpivot
    obtain ⟨p', hp'⟩ := exists_stuck_forwardRound (e := e) hz ht hentry hp
    have hlt := ih (forwardRound_square hz ht u) hp' h
    have hmem : t ∈ z.unusedRows n := Finset.mem_filter.2 ⟨Finset.mem_range.2 ht, hused⟩
    rw [forwardRound_unusedRows, Finset.card_erase_of_mem hmem] at hlt
    rw [List.length_cons]
    omega

theorem forwardEliminate_eq_none {e : Engine} {n : Nat} {z : Solver} {p : Nat} (hz : z.square n) (hp : z.stuck n p) :
    forwardEliminate e n z = none := by
  refine Option.eq_none_iff_forall_ne_some.2 fun z' h => ?_
  have hlt := length_lt_of_stuck hz hp h
  have hle : (z.unusedRows n).card ≤ n := (Finset.card_filter_le _ _).trans_eq (Finset.card_range n)
  rw [List.length_range] at hlt
  omega

/-! ### A regular matrix: forward elimination -/

/-- The first `m` columns are done, with the pivots in order: below the diagonal, which is 1, they are 0. -/
structure Solver.reduced (n m : Nat) (z : Solver) : Prop where
  square : z.square n
  piv : z.piv = List.range m
  used : ∀ t < n, z.used.getD t true = decide (t < m)
  one : ∀ u < m, z.entry u u = 1
  below : ∀ u < m, ∀ t < n, u < t → z.entry t u = 0

/-- Every leading square part of the matrix takes some vector to the last unit vector. -/
def Solver.regular (n : Nat) (z : Solver) : Prop :=
  ∀ m < n, ∃ x : Nat → Byte, (∀ v, m < v → x v = 0) ∧ ∀ t ≤ m, Solver.dot n x z t = if t = m then 1 else 0

section
variable {e : Engine} {n m : Nat} {z : Solver} (h : z.reduced n m) (hm : m < n)
include h hm

/-- In a column that is done in the rows used, a round is a combination of row `m` and the rows after it. -/
theorem Solver.reduced.column {φ : Solver → Nat → Byte} (hφ : IsColumn e n φ) {t : Nat} (ht : t < n) :
    φ (forwardRound e n m z m) t =
      if t = m then gmul (φ z m) (ginv (z.entry m m)) else if t < m then φ z t
      else φ z t ^^^ gmul (z.entry t m) (gmul (φ z m) (ginv (z.entry m m))) := by
  rw [hφ.forwardRound h.square hm m ht, h.used t ht]
  simp only [decide_eq_true_eq]

/-- Where the pivot row has 0 a round changes nothing. -/
theorem Solver.reduced.column_of_zero {φ : Solver → Nat → Byte} (hφ : IsColumn e n φ) (h0 : φ z m = 0) {t : Nat}
    (ht : t < n) : φ (forwardRound e n m z m) t = φ z t := by
  rw [h.column hm hφ ht, h0, zero_gmul, gmul_zero, ← h0]
  split_ifs with htm
  · rw [htm]
  · rfl
  · rw [h0]
    exact BitVec.xor_zero

theorem Solver.reduced.pivot (hpiv : z.entry m m ≠ 0) : z.pivot n m = some m := by
  unfold Solver.pivot
  rw [List.find?_range_eq_some]
  refine ⟨?_, List.mem_range.2 hm, fun t ht => ?_⟩
  · rw [h.used m hm]
    simpa using hpiv
  · rw [h.used t (ht.trans hm)]
    simp [ht]

theorem Solver.reduced.forwardRound (hpiv : z.entry m m ≠ 0) : (forwardRound e n m z m).reduced n (m + 1) where
  square := forwardRound_square h.square hm m
  piv := by rw [forwardRound_piv, h.piv, List.range_succ]
  used t ht := by
    rw [forwardRound_used, getD_set_used, h.used t ht]
    split_ifs with htm
    · simp [htm]
    · exact decide_eq_decide.2 (by omega)
  one u hu := by
    rw [h.column hm (isColumn_entry e n u) (by omega)]
    split_ifs with hum hlt
    · rw [hum, gmul_ginv hpiv]
    · exact h.one u hlt
    · omega
  below u hu t ht hut := by
    rw [h.column hm (isColumn_entry e n u) ht]
    rcases Nat.lt_succ_iff_lt_or_eq.1 hu with hu | rfl
    · rw [h.below u hu t ht hut, h.below u hu m hm hu, zero_gmul, gmul_zero]
      simp
    · rw [if_neg (by omega), if_neg (by omega), gmul_ginv hpiv, gmul_one]
      exact BitVec.xor_self

/-- The next pivot is there: else row `m` would have nothing to make the last unit vector's 1 of. -/
theorem Solver.reduced.entry_ne_zero {x : Nat → Byte} (hx : ∀ v, m < v → x v = 0) (hdot : Solver.dot n x z m = 1) :
    z.entry m m ≠ 0 := by
  intro h0
  have hzero : Solver.dot n x z m = 0 := by
    refine xorSum_eq_zero fun v hv => ?_
    rcases Nat.lt_trichotomy v m with hlt | rfl | hgt
    · rw [h.below v hlt m hm hlt, zero_gmul]
    · rw [h0, zero_gmul]
    · rw [hx v hgt, gmul_zero]
  rw [hzero] at hdot
  exact absurd hdot (by decide)

end

/-- Forward elimination of a regular matrix succeeds with the pivots in order. A column that is 0 in the rows used so far
is as it was. -/
theorem exists_reduced {e : Engine} {n : Nat} {z₀ : Solver} (h₀ : z₀.reduced n 0) (hreg : z₀.regular n) {m : Nat}
    (hm : m ≤ n) : ∃ z, (List.range m).foldlM (forwardStep e n) z₀ = some z ∧ z.reduced n m ∧
      ∀ φ, IsColumn e n φ → (∀ t < m, φ z₀ t = 0) → ∀ t < n, φ z t = φ z₀ t := by
  induction m with
  | zero => exact ⟨z₀, rfl, h₀, fun _ _ _ _ _ => rfl⟩
  | succ m ih =>
    obtain ⟨z, hfold, hz, hcol⟩ := ih (by omega)
    obtain ⟨x, hx, hdot₀⟩ := hreg m hm
    have hdot : Solver.dot n x z m = 1 := by
      rw [hcol _ (isColumn_dot e n x n) (fun t ht => (hdot₀ t ht.le).trans (if_neg ht.ne)) m hm, hdot₀ m le_rfl,
        if_pos rfl]
    have hpiv := hz.entry_ne_zero hm hx hdot
    refine ⟨forwardRound e n m z m, ?_, hz.forwardRound hm hpiv, fun φ hφ h0 t ht => ?_⟩
    · rw [List.range_succ, List.foldlM_append, hfold, Option.bind_eq_bind, Option.bind_some, List.foldlM_cons,
        forwardStep_eq, hz.pivot hm hpiv]
      rfl
    · have hkept := hcol φ hφ fun t ht => h0 t (by omega)
      rw [hz.column_of_zero hm hφ ((hkept m hm).trans (h0 m (by omega))) ht, hkept t ht]

/-! ### A regular matrix: back-substitution -/

/-- The matrix is reduced, and the columns from `k` on are also 0 above the diagonal. -/
structure Solver.cleared (n k : Nat) (z : Solver) : Prop extends z.reduced n n where
  above : ∀ u < n, k ≤ u → ∀ t < u, z.entry t u = 0

section
variable {e : Engine} {n k : Nat} {z : Solver} (h : z.reduced n n) (hk : k < n)
include h hk

theorem backStep_eq : backStep e z k = cancelRows e k k (List.range k) z := by
  have hpiv {u : Nat} (hu : u < n) {w : Solver} (hw : w.piv = z.piv) : w.piv.getD u 0 = u := by
    rw [hw, h.piv, List.getD_eq_getElem _ _ (by simpa using hu), List.getElem_range]
  unfold backStep cancelRows
  refine (List.foldl_rel (r := fun w w' : Solver => w = w' ∧ w'.piv = z.piv) ⟨rfl, rfl⟩ ?_).1
  rintro u hu _ w ⟨rfl, hw⟩
  have hu : u < n := (List.mem_range.1 hu).trans hk
  rw [hpiv hu hw, hpiv hk hw]
  refine ⟨rfl, ?_⟩
  split
  · exact hw
  · exact hw

theorem IsColumn.backStep {φ : Solver → Nat → Byte} (hφ : IsColumn e n φ) {t : Nat} (ht : t < n) :
    φ (backStep e z k) t = if t < k then φ z t ^^^ Machine.gmul (z.entry t k) (φ z k) else φ z t := by
  rw [backStep_eq h hk, hφ.cancelRows h.square k hk (fun t ht => (List.mem_range.1 ht).trans hk) List.nodup_range
    List.not_mem_range_self ht]
  simp only [List.mem_range]

end

/-- Row `k` is the `k`-th unit vector, so it cancels the entries above its own 1 and touches no others (R126). -/
theorem Solver.cleared.backStep {e : Engine} {n k : Nat} {z : Solver} (h : z.cleared n (k + 1)) (hk : k < n) :
    (backStep e z k).cleared n k := by
  have hentry (v : Nat) {t : Nat} (ht : t < n) := (isColumn_entry e n v).backStep h.toreduced hk ht
  have hkept := cancelRows_used_piv e k k (List.range k) z
  rw [← backStep_eq h.toreduced hk] at hkept
  refine ⟨⟨?_, hkept.2.trans h.piv, fun t ht => hkept.1 ▸ h.used t ht, fun u hu => ?_, fun u hu t ht hut => ?_⟩,
    fun u hu hku t htu => ?_⟩
  · rw [backStep_eq h.toreduced hk]
    exact cancelRows_square h.square k hk fun t ht => (List.mem_range.1 ht).trans hk
  · rw [hentry u hu]
    split_ifs with huk
    · rw [h.below u hu k hk huk, gmul_zero, h.one u hu]
      rfl
    · exact h.one u hu
  · rw [hentry u ht]
    split_ifs with htk
    · rw [h.below u hu k hk (hut.trans htk), h.below u hu t ht hut, gmul_zero]
      rfl
    · exact h.below u hu t ht hut
  · rw [hentry u (htu.trans hu)]
    rcases Nat.eq_or_lt_of_le hku with rfl | hku
    · rw [if_pos htu, h.one k hk, gmul_one]
      exact BitVec.xor_self
    · rw [h.above u hu hku t htu, h.above u hu hku k hku, gmul_zero, ite_eq_right_iff]
      exact fun _ => rfl

/-- Back-substitution clears the columns from the last to the first, and keeps a column that is 0. -/
theorem cleared_backSubstitute {e : Engine} {n k : Nat} {z : Solver} (h : z.cleared n k) (hk : k ≤ n) :
    (backSubstitute e k z).cleared n 0 ∧
      ∀ φ, IsColumn e n φ → (∀ t < n, φ z t = 0) → ∀ t < n, φ (backSubstitute e k z) t = 0 := by
  induction k generalizing z with
  | zero => exact ⟨h, fun φ _ h0 => h0⟩
  | succ k ih =>
    have hstep : backSubstitute e (k + 1) z = backSubstitute e k (backStep e z k) := by
      unfold backSubstitute
      rw [List.range_succ, List.reverse_append]
      rfl
    obtain ⟨hcleared, hzero⟩ := ih (h.backStep (e := e) hk) (by omega)
    rw [hstep]
    refine ⟨hcleared, fun φ hφ h0 => hzero φ hφ fun t ht => ?_⟩
    rw [hφ.backStep h.toreduced hk ht, h0 t ht, h0 k hk, gmul_zero, ite_eq_right_iff]
    exact fun _ => rfl

/-! ### The solution -/

/-- A regular system is solved with the pivots in order: the matrix ends as the identity, and what summed to 0 in every row
of the augmented system still does. -/
theorem exists_solve {e : Engine} {mem : Memory} (h₀ : (initialSolver e mem).reduced e.paritySlots.length 0)
    (hreg : (initialSolver e mem).regular e.paritySlots.length) :
    ∃ z, solve e mem = some z ∧ z.cleared e.paritySlots.length 0 ∧
      ∀ φ, IsColumn e e.paritySlots.length φ → (∀ t < e.paritySlots.length, φ (initialSolver e mem) t = 0) →
        ∀ t < e.paritySlots.length, φ z t = 0 := by
  obtain ⟨w, hw, hreduced, hcol⟩ := exists_reduced (e := e) h₀ hreg le_rfl
  obtain ⟨hcleared, hzero⟩ := cleared_backSubstitute (e := e) (k := e.paritySlots.length)
    ⟨hreduced, fun u hu hku => absurd hu (Nat.not_lt.2 hku)⟩ le_rfl
  refine ⟨_, ?_, hcleared, fun φ hφ h0 => hzero φ hφ fun t ht => (hcol φ hφ h0 t ht).trans (h0 t ht)⟩
  unfold solve forwardEliminate
  rw [hw]
  rfl

/-- The identity takes a vector to itself. -/
theorem Solver.cleared.dot {n : Nat} {z : Solver} (h : z.cleared n 0) (x : Nat → Byte) {t : Nat} (ht : t < n) :
    Solver.dot n x z t = x t := by
  refine (xorSum_eq_single ht fun v hv hne => ?_).trans (by rw [h.one t ht, one_gmul])
  rcases Nat.lt_or_gt_of_ne hne with hlt | hgt
  · rw [h.below v hv t ht hlt, zero_gmul]
  · rw [h.above v hv (Nat.zero_le v) t hgt, zero_gmul]

end Sys2Proof.Machine
end

section
/-! Sums over lists of slots and rows, and square systems: one whose only solution of the homogeneous system is 0 has a
solution for every right-hand side, since there are finitely many vectors. -/

namespace Sys2Proof.Machine

/-! ### Sums over a list (R71) -/

/-- The sum in the field of `f` over a list. -/
def xorOver (l : List Nat) (f : Nat → Byte) : Byte := l.foldr (fun i acc => f i ^^^ acc) 0

theorem xorOver_cons (i : Nat) (l : List Nat) (f : Nat → Byte) : xorOver (i :: l) f = f i ^^^ xorOver l f := rfl

theorem xorOver_append (l l' : List Nat) (f : Nat → Byte) : xorOver (l ++ l') f = xorOver l f ^^^ xorOver l' f := by
  induction l with
  | nil => exact BitVec.zero_xor.symm
  | cons i l ih => rw [List.cons_append, xorOver_cons, xorOver_cons, ih, BitVec.xor_assoc]

theorem xorOver_map (l : List Nat) (g : Nat → Nat) (f : Nat → Byte) : xorOver (l.map g) f = xorOver l fun i => f (g i) :=
  List.foldr_map

theorem xorOver_congr {l : List Nat} {f g : Nat → Byte} (h : ∀ i ∈ l, f i = g i) : xorOver l f = xorOver l g :=
  List.foldr_ext _ _ _ fun i hi acc => congrArg (· ^^^ acc) (h i hi)

theorem xorOver_perm {l l' : List Nat} (h : l.Perm l') (f : Nat → Byte) : xorOver l f = xorOver l' f :=
  h.foldr_eq' (fun i _ j _ acc => by ac_rfl) 0

theorem xorSum_eq_xorOver (n : Nat) (f : Nat → Byte) : xorSum n f = xorOver (List.range n) f := by
  induction n with
  | zero => rfl
  | succ n ih =>
    rw [xorSum_succ, ih, List.range_succ, xorOver_append, xorOver_cons]
    exact congrArg _ BitVec.xor_zero.symm

theorem eq_map_getD (l : List Nat) : l = (List.range l.length).map (l.getD · 0) := by
  refine List.ext_getElem (by simp) fun i hi _ => ?_
  rw [List.getElem_map, List.getElem_range, List.getD_eq_getElem _ _ hi]

theorem foldl_eq_foldl_range {α : Type} (f : α → Nat → α) (l : List Nat) (x : α) :
    l.foldl f x = (List.range l.length).foldl (fun x i => f x (l.getD i 0)) x := by
  rw [← List.foldl_map (f := (l.getD · 0)) (g := f), ← eq_map_getD]

theorem xorOver_eq_xorSum (l : List Nat) (f : Nat → Byte) : xorOver l f = xorSum l.length fun i => f (l.getD i 0) := by
  rw [xorSum_eq_xorOver, ← xorOver_map _ (l.getD · 0), ← eq_map_getD]

theorem xorOver_eq_zero {l : List Nat} {f : Nat → Byte} (h : ∀ i ∈ l, f i = 0) : xorOver l f = 0 := by
  rw [xorOver_eq_xorSum]
  refine xorSum_eq_zero fun i hi => h _ ?_
  rw [List.getD_eq_getElem _ _ hi]
  exact List.getElem_mem hi

/-- A sum over the members of a range that meet a condition. -/
theorem xorOver_filter_range (n : Nat) (p : Nat → Bool) (f : Nat → Byte) :
    xorOver ((List.range n).filter p) f = xorSum n fun i => if p i then f i else 0 := by
  rw [xorSum_eq_xorOver]
  induction List.range n with
  | nil => rfl
  | cons i l ih =>
    rw [List.filter_cons, xorOver_cons, ← ih]
    cases p i with
    | true => rfl
    | false => exact BitVec.zero_xor.symm

theorem xorSum_of_le {m n : Nat} {f : Nat → Byte} (hmn : m ≤ n) (h : ∀ i, m ≤ i → f i = 0) :
    xorSum n f = xorSum m f := by
  induction n, hmn using Nat.le_induction with
  | base => rfl
  | succ n hmn ih =>
    rw [xorSum_succ, ih, h n hmn]
    exact BitVec.xor_zero

/-! ### Members of a sorted list -/

section
variable {l : List Nat} {i j : Nat}

theorem getD_mem_of_lt (hi : i < l.length) : l.getD i 0 ∈ l := by
  rw [List.getD_eq_getElem _ _ hi]
  exact List.getElem_mem hi

theorem exists_getD_of_mem {x : Nat} (hx : x ∈ l) : ∃ i < l.length, l.getD i 0 = x := by
  obtain ⟨i, hi, rfl⟩ := List.getElem_of_mem hx
  exact ⟨i, hi, List.getD_eq_getElem _ _ hi⟩

variable (h : l.Pairwise (· < ·))
include h

theorem getD_lt_getD (hij : i < j) (hj : j < l.length) : l.getD i 0 < l.getD j 0 := by
  rw [List.getD_eq_getElem _ _ (hij.trans hj), List.getD_eq_getElem _ _ hj]
  exact List.pairwise_iff_getElem.1 h i j (hij.trans hj) hj hij

theorem lt_of_getD_lt_getD (hi : i < l.length) (hlt : l.getD i 0 < l.getD j 0) : i < j := by
  rcases Nat.lt_trichotomy i j with hij | rfl | hij
  · exact hij
  · exact absurd hlt (Nat.lt_irrefl _)
  · exact absurd hlt (getD_lt_getD h hij hi).not_gt

theorem getD_inj (hi : i < l.length) (hj : j < l.length) (heq : l.getD i 0 = l.getD j 0) : i = j := by
  rcases Nat.lt_trichotomy i j with hij | rfl | hij
  · exact absurd heq (getD_lt_getD h hij hj).ne
  · rfl
  · exact absurd heq (getD_lt_getD h hij hi).ne'

theorem idxOf_getD (hi : i < l.length) : l.idxOf (l.getD i 0) = i := by
  rw [List.getD_eq_getElem _ _ hi]
  exact h.nodup.idxOf_getElem i hi

end

/-! ### Square systems -/

/-- A vector of `n` bytes as a function of all numbers. -/
def extendVector {n : Nat} (v : Fin n → Byte) (i : Nat) : Byte := if h : i < n then v ⟨i, h⟩ else 0

theorem extendVector_val {n : Nat} (v : Fin n → Byte) (i : Fin n) : extendVector v i = v i := dif_pos i.isLt

/-- A square system with the trivial kernel alone has a solution for every right-hand side. -/
theorem exists_solution {n : Nat} {A : Nat → Nat → Byte}
    (hker : ∀ v : Nat → Byte, (∀ t < n, xorSum n (fun u => gmul (A t u) (v u)) = 0) → ∀ u < n, v u = 0)
    (y : Nat → Byte) : ∃ x : Nat → Byte, ∀ t < n, xorSum n (fun u => gmul (A t u) (x u)) = y t := by
  have hinj : Function.Injective fun (v : Fin n → Byte) (t : Fin n) =>
      xorSum n fun u => gmul (A t u) (extendVector v u) := by
    intro v w hvw
    have hzero := hker (fun u => extendVector v u ^^^ extendVector w u) fun t ht => by
      simp only [gmul_xor, xorSum_xor]
      exact BitVec.xor_eq_zero_iff.2 (congrFun hvw ⟨t, ht⟩)
    funext u
    rw [← extendVector_val v, ← extendVector_val w]
    exact BitVec.xor_eq_zero_iff.1 (hzero u u.isLt)
  obtain ⟨x, hx⟩ := Finite.injective_iff_surjective.1 hinj fun t => y t
  exact ⟨extendVector x, fun t ht => congrFun hx ⟨t, ht⟩⟩

end Sys2Proof.Machine
end

section
/-! The system DECODE solves (R124): its matrix is regular when the slots carry distinct rows (R132), and the original rows
missing from the slots solve it when the slots hold what their rows say. -/

namespace Sys2Proof.Machine

/-! ### The slots and the missing rows (R120, R122) -/

theorem Engine.rowOf_lt_256 (e : Engine) (p : Nat) : e.rowOf p < 256 := BitVec.isLt _

theorem Engine.paritySlots_sorted (e : Engine) : e.paritySlots.Pairwise (· < ·) := List.pairwise_lt_range.filter _

theorem Engine.missingRows_sorted (e : Engine) : e.missingRows.Pairwise (· < ·) := List.pairwise_lt_range.filter _

/-- `E[t]` is a slot with a parity row. -/
theorem Engine.paritySlot_spec (e : Engine) {t : Nat} (ht : t < e.paritySlots.length) :
    e.paritySlots.getD t 0 < e.rows ∧ e.rows ≤ e.rowOf (e.paritySlots.getD t 0) :=
  (e.mem_paritySlots _).1 (e.paritySlot_getD t ht)

/-- `Mi[u]` is an original row that no slot carries. -/
theorem Engine.missingRow_spec (e : Engine) {u : Nat} (hu : u < e.missingRows.length) :
    e.missingRows.getD u 0 < e.rows ∧ ∀ p < e.rows, e.rowOf p ≠ e.missingRows.getD u 0 :=
  (e.mem_missingRows _).1 (getD_mem_of_lt hu)

/-- Every slot is an original slot or some `E[t]`. -/
theorem Engine.slot_cases (e : Engine) {p : Nat} (hp : p < e.rows) :
    e.rowOf p < e.rows ∨ ∃ t < e.paritySlots.length, e.paritySlots.getD t 0 = p := by
  rcases Nat.lt_or_ge (e.rowOf p) e.rows with horig | hpar
  · exact .inl horig
  · exact .inr (exists_getD_of_mem ((e.mem_paritySlots p).2 ⟨hp, hpar⟩))

section
variable {e : Engine} (h : RowsClassified e)
include h

/-- The rows of the original slots and the missing rows are the original rows, each once. -/
theorem RowsClassified.perm : (e.originalSlots.map e.rowOf ++ e.missingRows).Perm (List.range e.rows) := by
  have horig : (e.originalSlots.map e.rowOf).Nodup := by
    refine List.Nodup.map_on (fun p hp q hq heq => ?_) (List.nodup_range.filter _)
    obtain ⟨hp, hrow⟩ := (e.mem_originalSlots p).1 hp
    exact (h.distinctOriginals p hp q ((e.mem_originalSlots q).1 hq).1 hrow heq.symm).symm
  have hdisjoint : (e.originalSlots.map e.rowOf).Disjoint e.missingRows := by
    intro r hr hmiss
    obtain ⟨p, hp, rfl⟩ := List.mem_map.1 hr
    exact ((e.mem_missingRows _).1 hmiss).2 p ((e.mem_originalSlots p).1 hp).1 rfl
  refine (List.perm_ext_iff_of_nodup (horig.append e.missingRows_sorted.nodup hdisjoint) List.nodup_range).2 fun r => ?_
  rw [List.mem_append, List.mem_map, List.mem_range]
  constructor
  · rintro (⟨p, hp, rfl⟩ | hmiss)
    · exact ((e.mem_originalSlots p).1 hp).2
    · exact ((e.mem_missingRows r).1 hmiss).1
  · intro hr
    by_cases hcarried : ∃ p < e.rows, e.rowOf p = r
    · obtain ⟨p, hp, rfl⟩ := hcarried
      exact .inl ⟨p, (e.mem_originalSlots p).2 ⟨hp, hr⟩, rfl⟩
    · exact .inr ((e.mem_missingRows r).2 ⟨hr, fun p hp heq => hcarried ⟨p, hp, heq⟩⟩)

/-- There are as many missing rows as parity slots (R122). -/
theorem RowsClassified.missingRows_length : e.missingRows.length = e.paritySlots.length := by
  have hrows := h.perm.length_eq
  have hslots := List.length_eq_length_filter_add (l := List.range e.rows) fun p => decide (e.rowOf p < e.rows)
  have hpar : ((List.range e.rows).filter fun p => !decide (e.rowOf p < e.rows)) = e.paritySlots :=
    List.filter_congr fun p _ => by simp [← decide_not]
  rw [hpar, List.length_range] at hslots
  rw [List.length_append, List.length_map, List.length_range] at hrows
  unfold Engine.originalSlots at hrows
  omega

/-- A sum over the original rows, split into those present and those missing (R124). -/
theorem RowsClassified.xorSum_rows (f : Nat → Byte) :
    xorSum e.rows f = xorOver e.originalSlots (fun p => f (e.rowOf p)) ^^^
      xorSum e.paritySlots.length fun u => f (e.missingRows.getD u 0) := by
  rw [xorSum_eq_xorOver, ← xorOver_perm h.perm, xorOver_append, xorOver_map, xorOver_eq_xorSum e.missingRows,
    h.missingRows_length]

end

/-! ### The matrix (R124) -/

theorem getD_map_of_lt {α : Type} (f : Nat → α) {l : List Nat} {i : Nat} (hi : i < l.length) (d : α) :
    (l.map f).getD i d = f (l.getD i 0) := by
  rw [List.getD_eq_getElem _ _ (by simpa using hi), List.getElem_map, List.getD_eq_getElem _ _ hi]

theorem row_initialSolver (e : Engine) (mem : Memory) {t : Nat} (ht : t < e.paritySlots.length) :
    (initialSolver e mem).row t = e.missingRows.map (coef e.rows (e.rowOf (e.paritySlots.getD t 0))) :=
  getD_map_of_lt _ ht []

theorem mem_unusedRows_initialSolver (e : Engine) (mem : Memory) {t : Nat} (ht : t < e.paritySlots.length) :
    t ∈ (initialSolver e mem).unusedRows e.paritySlots.length :=
  Finset.mem_filter.2 ⟨Finset.mem_range.2 ht, getD_map_of_lt _ ht true⟩

section
variable {e : Engine} (h : RowsClassified e) (mem : Memory)
include h

theorem entry_initialSolver {t u : Nat} (ht : t < e.paritySlots.length) (hu : u < e.paritySlots.length) :
    (initialSolver e mem).entry t u =
      coef e.rows (e.rowOf (e.paritySlots.getD t 0)) (e.missingRows.getD u 0) := by
  rw [← h.missingRows_length] at hu
  rw [Solver.entry, row_initialSolver e mem ht, getD_map_of_lt _ hu]

theorem initialSolver_square : (initialSolver e mem).square e.paritySlots.length := by
  refine ⟨List.length_map _, fun r hr => ?_⟩
  obtain ⟨p, -, rfl⟩ := List.mem_map.1 hr
  rw [List.length_map, h.missingRows_length]

theorem initialSolver_reduced : (initialSolver e mem).reduced e.paritySlots.length 0 where
  square := initialSolver_square h mem
  piv := rfl
  used _ ht := getD_map_of_lt _ ht true
  one u hu := absurd hu (Nat.not_lt_zero u)
  below u hu := absurd hu (Nat.not_lt_zero u)

theorem dot_initialSolver (x : Nat → Byte) {t : Nat} (ht : t < e.paritySlots.length) :
    Solver.dot e.paritySlots.length x (initialSolver e mem) t = xorSum e.paritySlots.length fun u =>
      gmul (coef e.rows (e.rowOf (e.paritySlots.getD t 0)) (e.missingRows.getD u 0)) (x u) :=
  xorSum_congr fun u hu => by rw [entry_initialSolver h mem ht hu]

/-- The vector over the original rows that has `v u` at the missing row `Mi[u]` and 0 at the rows present. -/
theorem rowTimes_missing {v : Nat → Byte} (hv : v e.paritySlots.length = 0) (r : Nat) :
    rowTimes e.rows r (fun i => v (e.missingRows.idxOf i)) =
      xorSum e.paritySlots.length fun u => gmul (coef e.rows r (e.missingRows.getD u 0)) (v u) := by
  have hpresent : ∀ p ∈ e.originalSlots, v (e.missingRows.idxOf (e.rowOf p)) = 0 := fun p hp => by
    have hnot : e.rowOf p ∉ e.missingRows := fun hmiss =>
      ((e.mem_missingRows _).1 hmiss).2 p ((e.mem_originalSlots p).1 hp).1 rfl
    rw [List.idxOf_eq_length hnot, h.missingRows_length, hv]
  rw [rowTimes, h.xorSum_rows, xorOver_eq_zero fun p hp => by rw [hpresent p hp, gmul_zero]]
  refine BitVec.zero_xor.trans (xorSum_congr fun u hu => ?_)
  rw [idxOf_getD e.missingRows_sorted (h.missingRows_length ▸ hu)]

end

section
variable {e : Engine} (hd : e.rowsDistinct)
include hd

/-- Each leading square part of the matrix is a Cauchy matrix, so its kernel is trivial (R104, R132). -/
theorem leading_kernel (h : RowsClassified e) {m : Nat} (hm : m < e.paritySlots.length) {v : Nat → Byte}
    (hv : ∀ u, m < u → v u = 0)
    (hsum : ∀ t ≤ m, (xorSum e.paritySlots.length fun u =>
      gmul (coef e.rows (e.rowOf (e.paritySlots.getD t 0)) (e.missingRows.getD u 0)) (v u)) = 0) :
    ∀ u ≤ m, v u = 0 := by
  have hlen := h.missingRows_length
  have hmissing {u : Nat} (hu : u ∈ Finset.range (m + 1)) : u < e.missingRows.length := by
    have := Finset.mem_range.1 hu
    omega
  have hslot {t : Nat} (ht : t ∈ Finset.range (m + 1)) : t < e.paritySlots.length := by
    have := Finset.mem_range.1 ht
    omega
  have hzero := eq_zero_of_parityRows (k := e.rows) (v := fun i => v (e.missingRows.idxOf i))
    (U := (Finset.range (m + 1)).image (e.missingRows.getD · 0))
    (T := (Finset.range (m + 1)).image fun t => e.rowOf (e.paritySlots.getD t 0)) ?_ ?_ ?_ ?_ ?_
  · intro u hu
    have hu : u < e.missingRows.length := by omega
    have := hzero _ (e.missingRow_spec hu).1
    rwa [idxOf_getD e.missingRows_sorted hu] at this
  · rw [Finset.card_image_of_injOn, Finset.card_image_of_injOn]
    · intro t ht t' ht' heq
      have ht := hslot ht
      have ht' := hslot ht'
      exact getD_inj e.paritySlots_sorted ht ht'
        (hd _ (e.paritySlot_spec ht').1 _ (e.paritySlot_spec ht).1 heq)
    · exact fun u hu u' hu' heq => getD_inj e.missingRows_sorted (hmissing hu) (hmissing hu') heq
  · intro r hr
    obtain ⟨u, hu, rfl⟩ := Finset.mem_image.1 hr
    exact Finset.mem_range.2 (e.missingRow_spec (hmissing hu)).1
  · intro r hr
    obtain ⟨t, ht, rfl⟩ := Finset.mem_image.1 hr
    exact ⟨(e.paritySlot_spec (hslot ht)).2, e.rowOf_lt_256 _⟩
  · intro i _ hi
    refine hv _ (Nat.not_le.1 fun hle => hi (Finset.mem_image.2 ⟨e.missingRows.idxOf i, by simp; omega, ?_⟩))
    have hlt : e.missingRows.idxOf i < e.missingRows.length := by omega
    rw [List.getD_eq_getElem _ _ hlt, List.getElem_idxOf]
  · intro r hr
    obtain ⟨t, ht, rfl⟩ := Finset.mem_image.1 hr
    rw [rowTimes_missing h (hv _ hm)]
    exact hsum t (Nat.le_of_lt_succ (Finset.mem_range.1 ht))

/-- With distinct rows the matrix is regular (R132). -/
theorem initialSolver_regular (h : RowsClassified e) (mem : Memory) :
    (initialSolver e mem).regular e.paritySlots.length := by
  intro m hm
  -- a vector on the columns up to `m`, with nothing beyond
  have htrunc (r : Nat) (x : Nat → Byte) :
      (xorSum e.paritySlots.length fun u => gmul (coef e.rows r (e.missingRows.getD u 0)) (if u ≤ m then x u else 0)) =
        xorSum (m + 1) fun u => gmul (coef e.rows r (e.missingRows.getD u 0)) (x u) := by
    rw [xorSum_of_le hm fun u hu => by rw [if_neg (by omega), gmul_zero]]
    exact xorSum_congr fun u hu => by rw [if_pos (by omega)]
  obtain ⟨x, hx⟩ := exists_solution (n := m + 1)
    (A := fun t u => coef e.rows (e.rowOf (e.paritySlots.getD t 0)) (e.missingRows.getD u 0))
    (fun v hv u hu => by
      have := leading_kernel hd h hm (v := fun u => if u ≤ m then v u else 0) (fun u hu => if_neg (by omega))
        (fun t ht => (htrunc _ v).trans (hv t (by omega))) u (by omega)
      rwa [if_pos (by omega)] at this)
    fun t => if t = m then 1 else 0
  refine ⟨fun u => if u ≤ m then x u else 0, fun u hu => if_neg (by omega), fun t ht => ?_⟩
  exact (dot_initialSolver h mem _ (by omega)).trans ((htrunc _ x).trans (hx t (by omega)))

end

end Sys2Proof.Machine
end

section
/-! DECODE with parity slots: SINGULAR when a parity row comes twice (R135), what cancelling the known rows
leaves (R124), and what it says that the slots hold their rows (R128). -/

namespace Sys2Proof.Machine

/-! ### A parity row twice -/

/-- Two equal rows of the matrix leave no solution. -/
theorem solve_eq_none {e : Engine} (h : RowsClassified e) (mem : Memory) {p q : Nat} (hp : p < e.rows) (hq : q < e.rows)
    (hne : p ≠ q) (hpar : e.rows ≤ e.rowOf p) (heq : e.rowOf q = e.rowOf p) : solve e mem = none := by
  obtain ⟨t, ht, rfl⟩ := exists_getD_of_mem ((e.mem_paritySlots p).2 ⟨hp, hpar⟩)
  obtain ⟨t', ht', rfl⟩ := exists_getD_of_mem ((e.mem_paritySlots q).2 ⟨hq, heq ▸ hpar⟩)
  have hstuck : (initialSolver e mem).stuck e.paritySlots.length t := by
    refine ⟨mem_unusedRows_initialSolver e mem ht, .inr ⟨t', mem_unusedRows_initialSolver e mem ht', ?_,
      fun v => ?_⟩⟩
    · rintro rfl
      exact hne rfl
    · rw [Solver.entry, Solver.entry, row_initialSolver e mem ht, row_initialSolver e mem ht', heq]
  unfold solve
  rw [forwardEliminate_eq_none (initialSolver_square h mem) hstuck]
  rfl

theorem exec_decode_singular {s : State} (h : DecodeReady s) {p q : Nat} (hp : p < s.engine.rows)
    (hq : q < s.engine.rows) (hne : p ≠ q) (hpar : s.engine.rows ≤ s.engine.rowOf p)
    (heq : s.engine.rowOf q = s.engine.rowOf p) :
    exec .decode s = .next (s.scrambleParity.finish (.decodeError .singular)) := by
  rw [exec_decode_ready h (List.ne_nil_of_mem ((s.engine.mem_paritySlots p).2 ⟨hp, hpar⟩)), decodeOutcome,
    solve_eq_none h.classified s.mem hp hq hne hpar heq]
  rfl

/-- Settles O44: the rows of the two slots are equal, and elimination needs a pivot in each. -/
theorem repeatedParityRowIsSingular : Obligations.RepeatedParityRowIsSingular := fun s _ _ h hp hq hne hpar heq =>
  ⟨_, exec_decode_singular h hp hq hne hpar heq, s.scrambleParity_finish_engine⟩

/-! ### Cancelling the known rows (R124) -/

/-- A fold over memory puts `v` at `x`, if the round of one `y` in the list does and no other round changes the value of `v`
or the byte at `x`. -/
theorem foldl_read_written_once {α : Type} {f : Memory → α → Memory} {l : List α} (hnodup : l.Nodup) {y : α}
    (hy : y ∈ l) {x : Nat} {v : Memory → Byte} (hwrite : ∀ mem, Memory.read (f mem y) x = v mem)
    (hother : ∀ mem, ∀ z ∈ l, z ≠ y → v (f mem z) = v mem ∧ Memory.read (f mem z) x = Memory.read mem x)
    (mem : Memory) : Memory.read (l.foldl f mem) x = v mem := by
  induction l generalizing mem with
  | nil => exact absurd hy List.not_mem_nil
  | cons z zs ih =>
    obtain ⟨hz, hnodup⟩ := List.nodup_cons.1 hnodup
    have hzs (mem : Memory) (w : α) (hw : w ∈ zs) := hother mem w (List.mem_cons_of_mem _ hw)
    rw [List.foldl_cons]
    rcases List.mem_cons.1 hy with rfl | hyzs
    · rw [foldl_read_kept f x zs fun m w hw => (hzs m w hw (ne_of_mem_of_not_mem hw hz)).2]
      exact hwrite mem
    · rw [ih hnodup hyzs hzs, (hother mem z List.mem_cons_self (ne_of_mem_of_not_mem hyzs hz).symm).1]

/-- What the rows present contribute to byte `b` of a buffer with parity row `r` (R124). -/
def Engine.knownByte (e : Engine) (mem : Memory) (r b : Nat) : Byte :=
  xorOver e.originalSlots fun p => gmul (coef e.rows r (e.rowOf p)) (Memory.read mem (e.addrOf p + b))

section
variable {s : State} (h : DecodeReady s)
include h

/-- A parity slot's buffer ends before any other slot's begins, or begins after its end. -/
theorem DecodeReady.before_or_after {p q : Nat} (hp : p ∈ s.engine.paritySlots) (hq : q < s.engine.rows) (hne : q ≠ p) :
    s.engine.addrOf p + s.engine.blockLen ≤ s.engine.addrOf q ∨
      s.engine.addrOf q + s.engine.blockLen ≤ s.engine.addrOf p := by
  have hsize := h.checks.size
  obtain ⟨hp, hpar⟩ := (s.engine.mem_paritySlots p).1 hp
  have hmax := h.overlap p hp hpar q hq hne (max (s.engine.addrOf p) (s.engine.addrOf q))
  simp only [Region.contains, Engine.block] at hmax
  omega

theorem DecodeReady.parityApart : s.engine.parityApart s.engine.paritySlots.length := fun _ ht _ ht' hne =>
  h.before_or_after (s.engine.paritySlot_getD _ ht) (s.engine.paritySlot_spec ht').1
    fun heq => hne (getD_inj s.engine.paritySlots_sorted ht' ht heq).symm

/-- No byte of an original slot's buffer lies in the buffer of a parity slot. -/
theorem DecodeReady.original_outside {p q b : Nat} (hp : p ∈ s.engine.originalSlots) (hq : q ∈ s.engine.paritySlots)
    (hb : b < s.engine.blockLen) : ¬ (s.engine.block q).contains (s.engine.addrOf p + b) := by
  obtain ⟨hp, horig⟩ := (s.engine.mem_originalSlots p).1 hp
  obtain ⟨hq, hpar⟩ := (s.engine.mem_paritySlots q).1 hq
  exact fun hc => h.overlap q hq hpar p hp (by rintro rfl; omega) _ ⟨hc, s.engine.block_contains p hb⟩

theorem DecodeReady.original_not_inParityBlock {p b : Nat} (hp : p ∈ s.engine.originalSlots)
    (hb : b < s.engine.blockLen) : ¬ s.engine.inParityBlock (s.engine.addrOf p + b) := fun hin =>
  have ⟨_, hq, hc⟩ := (s.engine.inParityBlock_iff _).1 hin
  h.original_outside hp hq hb hc

/-- The round of one parity slot takes the terms of the rows present from its buffer, and touches nothing else. -/
theorem DecodeReady.read_cancelSlot {p : Nat} (hp : p ∈ s.engine.paritySlots) (mem : Memory) {b : Nat}
    (hb : b < s.engine.blockLen) :
    Memory.read (cancelSlot s.engine mem p) (s.engine.addrOf p + b) =
      Memory.read mem (s.engine.addrOf p + b) ^^^ s.engine.knownByte mem (s.engine.rowOf p) b := by
  have hapart : ∀ i < s.engine.originalSlots.length,
      s.engine.addrOf p + s.engine.blockLen ≤ s.engine.addrOf (s.engine.originalSlots.getD i 0) ∨
        s.engine.addrOf (s.engine.originalSlots.getD i 0) + s.engine.blockLen ≤ s.engine.addrOf p := fun i hi => by
    have hq := (s.engine.mem_originalSlots _).1 (getD_mem_of_lt hi)
    refine h.before_or_after hp hq.1 fun heq => ?_
    have hpar := ((s.engine.mem_paritySlots p).1 hp).2
    rw [heq] at hq
    omega
  rw [cancelSlot, foldl_eq_foldl_range, mulAcc_passes_read _ _
    (fun i => s.engine.addrOf (s.engine.originalSlots.getD i 0)) _ _ _ hapart, if_pos (by omega),
    Nat.add_sub_cancel_left, Engine.knownByte, xorOver_eq_xorSum]
  exact congrArg _ (xorSum_congr fun i _ => gmul_comm _ _)

theorem DecodeReady.read_cancelKnown (mem : Memory) {p b : Nat} (hp : p ∈ s.engine.paritySlots)
    (hb : b < s.engine.blockLen) :
    Memory.read (cancelKnown s.engine mem) (s.engine.addrOf p + b) =
      Memory.read mem (s.engine.addrOf p + b) ^^^ s.engine.knownByte mem (s.engine.rowOf p) b := by
  refine foldl_read_written_once (v := fun mem => Memory.read mem (s.engine.addrOf p + b) ^^^
    s.engine.knownByte mem (s.engine.rowOf p) b) s.engine.paritySlots_sorted.nodup hp
    (fun mem => h.read_cancelSlot hp mem hb) (fun mem q hq hne => ?_) mem
  have houtside {x : Nat} (hx : ¬ (s.engine.block q).contains x) :
      Memory.read (cancelSlot s.engine mem q) x = Memory.read mem x :=
    foldl_read_kept _ x _ (fun m i _ => mulAcc_outside m _ _ _ _ x hx) mem
  have hself : Memory.read (cancelSlot s.engine mem q) (s.engine.addrOf p + b) =
      Memory.read mem (s.engine.addrOf p + b) := by
    obtain ⟨hqk, hpar⟩ := (s.engine.mem_paritySlots q).1 hq
    exact houtside fun hc =>
      h.overlap q hqk hpar p ((s.engine.mem_paritySlots p).1 hp).1 hne.symm _ ⟨hc, s.engine.block_contains p hb⟩
  refine ⟨?_, hself⟩
  rw [hself]
  exact congrArg _ (xorOver_congr fun i hi => by rw [houtside (h.original_outside hi hq hb)])

end

/-! ### Slots that hold what their rows say (R128) -/

/-- An original slot holds its row: the row of the generator matrix is a unit vector (R102). -/
theorem State.slotsHold_iff (s : State) (d : Nat → Nat → Byte) : s.slotsHold d ↔
    ∀ p < s.engine.rows, ∀ b < s.engine.blockLen, Memory.read s.mem (s.engine.addrOf p + b) =
      rowTimes s.engine.rows (s.engine.rowOf p) fun i => d i b := by
  have hrow (p b : Nat) : rowTimes s.engine.rows (s.engine.rowOf p) (fun i => d i b) =
      if s.engine.rowOf p < s.engine.rows then d (s.engine.rowOf p) b
      else xorSum s.engine.rows fun i => gmul (coef s.engine.rows (s.engine.rowOf p) i) (d i b) := by
    split
    · next horig => exact rowTimes_original horig _
    · rfl
  simp only [hrow]
  rfl

end Sys2Proof.Machine
end

section
/-! DECODE over slots with distinct rows (R132): the rows and the bytes it leaves (R124 to R128). -/

namespace Sys2Proof.Machine

/-! ### The rows it leaves (R127) -/

/-- The state of a DECODE that ends with `OK` over distinct rows, `mem` being what the solver has made of memory: the pivot
of every column is the row of its number. -/
def State.decoded (s : State) (mem : Memory) : State :=
  { s with mem := mem, engine := rewriteRows s.engine (List.range s.engine.paritySlots.length) }.finish .ok

theorem State.decoded_status (s : State) (mem : Memory) :
    (s.decoded mem).engine.status = { s.engine.status with err := 0, errInfo := 0 } := by
  rw [State.decoded, State.finish_eq_withOk, State.withOk, rewriteRows_eq]

/-- No other slot is rewritten (R127). -/
theorem State.decoded_rowOf_kept (s : State) (mem : Memory) {p : Nat} (hp : p ∉ s.engine.paritySlots) :
    (s.decoded mem).engine.rowOf p = s.engine.rowOf p :=
  (rewriteRows_keeps s.engine _ fun _ ht => List.mem_range.1 ht).2 p hp

theorem State.decoded_rowOf_original (s : State) (mem : Memory) {p : Nat} (hp : s.engine.rowOf p < s.engine.rows) :
    (s.decoded mem).engine.rowOf p = s.engine.rowOf p :=
  s.decoded_rowOf_kept mem fun hpar => absurd hp (((s.engine.mem_paritySlots p).1 hpar).2).not_gt

/-- With the pivots in order, `E[u]` takes `Mi[u]`, one after the other (R127). -/
theorem rewriteRows_range (e : Engine) (m : Nat) : rewriteRows e (List.range m) = (List.range m).foldl
    (fun e' u => e'.setRow (e.paritySlots.getD u 0) (BitVec.ofNat 8 (e.missingRows.getD u 0))) e := by
  rw [rewriteRows, List.length_range]
  refine List.foldl_ext _ _ _ fun e' u hu => ?_
  rw [List.getD_eq_getElem (List.range m) _ (by simpa using hu), List.getElem_range]

theorem rewriteRows_range_succ (e : Engine) (m : Nat) : rewriteRows e (List.range (m + 1)) =
    (rewriteRows e (List.range m)).setRow (e.paritySlots.getD m 0) (BitVec.ofNat 8 (e.missingRows.getD m 0)) := by
  rw [rewriteRows_range, rewriteRows_range, List.range_succ, List.foldl_append]
  rfl

theorem rowOf_rewriteRows_range {e : Engine} (hk : e.rows ≤ 256) (hc : RowsClassified e) {m t : Nat}
    (hm : m ≤ e.paritySlots.length) (ht : t < m) :
    (rewriteRows e (List.range m)).rowOf (e.paritySlots.getD t 0) = e.missingRows.getD t 0 := by
  induction m with
  | zero => exact absurd ht (Nat.not_lt_zero t)
  | succ m ih =>
    have hslot := e.paritySlot_spec hm
    have hmiss := e.missingRow_spec (hc.missingRows_length ▸ hm)
    rw [rewriteRows_range_succ, Engine.setRow_rowOf _ _ _ (by omega)]
    split_ifs with heq
    · rw [getD_inj e.paritySlots_sorted (by omega) hm heq, BitVec.toNat_ofNat]
      exact Nat.mod_eq_of_lt (by omega)
    · exact ih (by omega) (Nat.lt_of_le_of_ne (Nat.le_of_lt_succ ht) fun htm => heq (htm ▸ rfl))

section
variable {s : State} (h : DecodeReady s) (mem : Memory)
include h

theorem DecodeReady.rows_le : s.engine.rows ≤ 256 := (Nat.le_add_right _ _).trans h.checks.kmRange

theorem DecodeReady.decoded_rowOf_paritySlot {t : Nat} (ht : t < s.engine.paritySlots.length) :
    (s.decoded mem).engine.rowOf (s.engine.paritySlots.getD t 0) = s.engine.missingRows.getD t 0 :=
  rowOf_rewriteRows_range h.rows_le h.classified le_rfl ht

/-- A parity slot gets a missing row. -/
theorem DecodeReady.decoded_rowOf_mem_missingRows {p : Nat} (hp : p ∈ s.engine.paritySlots) :
    (s.decoded mem).engine.rowOf p ∈ s.engine.missingRows := by
  obtain ⟨t, ht, rfl⟩ := exists_getD_of_mem hp
  rw [h.decoded_rowOf_paritySlot mem ht]
  exact getD_mem_of_lt (h.classified.missingRows_length ▸ ht)

theorem DecodeReady.decoded_rowOf_lt {p : Nat} (hp : p < s.engine.rows) :
    (s.decoded mem).engine.rowOf p < s.engine.rows := by
  rcases s.engine.slot_cases hp with horig | ⟨t, ht, rfl⟩
  · rwa [s.decoded_rowOf_original mem horig]
  · rw [h.decoded_rowOf_paritySlot mem ht]
    exact (s.engine.missingRow_spec (h.classified.missingRows_length ▸ ht)).1

/-- A missing row is carried by no original slot, so no row comes twice. -/
theorem DecodeReady.decoded_rowOf_inj {p q : Nat} (hp : p < s.engine.rows) (hq : q < s.engine.rows)
    (heq : (s.decoded mem).engine.rowOf p = (s.decoded mem).engine.rowOf q) : p = q := by
  have hlen := h.classified.missingRows_length
  rcases s.engine.slot_cases hp with hporig | ⟨t, ht, rfl⟩ <;>
    rcases s.engine.slot_cases hq with hqorig | ⟨t', ht', rfl⟩
  · rw [s.decoded_rowOf_original mem hporig, s.decoded_rowOf_original mem hqorig] at heq
    exact (h.classified.distinctOriginals p hp q hq hporig heq.symm).symm
  · rw [s.decoded_rowOf_original mem hporig, h.decoded_rowOf_paritySlot mem ht'] at heq
    exact absurd heq ((s.engine.missingRow_spec (hlen ▸ ht')).2 p hp)
  · rw [s.decoded_rowOf_original mem hqorig, h.decoded_rowOf_paritySlot mem ht] at heq
    exact absurd heq.symm ((s.engine.missingRow_spec (hlen ▸ ht)).2 q hq)
  · rw [h.decoded_rowOf_paritySlot mem ht, h.decoded_rowOf_paritySlot mem ht'] at heq
    rw [getD_inj s.engine.missingRows_sorted (hlen ▸ ht) (hlen ▸ ht') heq]

/-- The parity slots get the missing rows in ascending order (R128). -/
theorem DecodeReady.decoded_rowOf_lt_rowOf {p q : Nat} (hpq : p < q) (hp : p ∈ s.engine.paritySlots)
    (hq : q ∈ s.engine.paritySlots) : (s.decoded mem).engine.rowOf p < (s.decoded mem).engine.rowOf q := by
  obtain ⟨t, ht, rfl⟩ := exists_getD_of_mem hp
  obtain ⟨t', ht', rfl⟩ := exists_getD_of_mem hq
  rw [h.decoded_rowOf_paritySlot mem ht, h.decoded_rowOf_paritySlot mem ht']
  exact getD_lt_getD s.engine.missingRows_sorted (lt_of_getD_lt_getD s.engine.paritySlots_sorted ht hpq)
    (h.classified.missingRows_length ▸ ht')

end

/-! ### The bytes it leaves (R124 to R126) -/

section
variable {s : State} (h : DecodeReady s)
include h

/-- The sum over the missing rows is what the parity byte leaves when the terms of the rows present are taken out. -/
theorem DecodeReady.parityByte_split {d : Nat → Nat → Byte} (hold : s.slotsHold d) {p b : Nat}
    (hp : p < s.engine.rows) (hb : b < s.engine.blockLen) :
    Memory.read s.mem (s.engine.addrOf p + b) = s.engine.knownByte s.mem (s.engine.rowOf p) b ^^^
      xorSum s.engine.paritySlots.length fun u =>
        gmul (coef s.engine.rows (s.engine.rowOf p) (s.engine.missingRows.getD u 0))
          (d (s.engine.missingRows.getD u 0) b) := by
  rw [(s.slotsHold_iff d).1 hold p hp b hb, rowTimes, h.classified.xorSum_rows]
  refine congrArg (· ^^^ _) (xorOver_congr fun q hq => ?_)
  obtain ⟨hq, horig⟩ := (s.engine.mem_originalSlots q).1 hq
  rw [(s.slotsHold_iff d).1 hold q hq b hb, rowTimes_original horig]

/-- After cancelling, the missing rows solve the system (R124). -/
theorem DecodeReady.residual_eq_zero {d : Nat → Nat → Byte} (hold : s.slotsHold d) {b : Nat} (hb : b < s.engine.blockLen)
    {t : Nat} (ht : t < s.engine.paritySlots.length) :
    Solver.dot s.engine.paritySlots.length (fun u => d (s.engine.missingRows.getD u 0) b)
        (initialSolver s.engine s.mem) t ^^^
      Memory.read (initialSolver s.engine s.mem).mem (s.engine.parityAddr t + b) = 0 := by
  have hbyte := h.read_cancelKnown s.mem (s.engine.paritySlot_getD t ht) hb
  rw [h.parityByte_split hold (s.engine.paritySlot_spec ht).1 hb, BitVec.xor_comm, ← BitVec.xor_assoc, BitVec.xor_self,
    BitVec.zero_xor] at hbyte
  rw [dot_initialSolver h.classified s.mem _ ht]
  exact BitVec.xor_eq_zero_iff.2 hbyte.symm

/-- DECODE over distinct rows ends with `OK`, and each parity slot's buffer holds its missing row (R128, R132). -/
theorem DecodeReady.exec_decode_paritySlots (hd : s.engine.rowsDistinct) :
    ∃ mem, exec .decode s = .next (s.decoded mem) ∧
    ∀ d, s.slotsHold d → ∀ t < s.engine.paritySlots.length, ∀ b < s.engine.blockLen,
      Memory.read mem (s.engine.parityAddr t + b) = d (s.engine.missingRows.getD t 0) b := by
  by_cases hnil : s.engine.paritySlots = []
  · refine ⟨s.mem, ?_, fun d _ t ht => ?_⟩
    · rw [exec_decode_no_parity h.checks h.classified hnil, State.decoded, hnil]
      rfl
    · rw [hnil] at ht
      exact absurd ht (Nat.not_lt_zero t)
  · obtain ⟨z, hz, hcleared, hzero⟩ := exists_solve (initialSolver_reduced h.classified s.mem)
      (initialSolver_regular hd h.classified s.mem)
    refine ⟨z.mem, ?_, fun d hold t ht b hb => ?_⟩
    · rw [exec_decode_ready h hnil, decodeOutcome, hz]
      dsimp only
      rw [hcleared.piv]
      rfl
    · have hcol := (isColumn_dot s.engine s.engine.paritySlots.length
        (fun u => d (s.engine.missingRows.getD u 0) b) s.engine.paritySlots.length).xor (isColumn_byte h.parityApart hb)
      have hres := hzero _ hcol (fun t ht => h.residual_eq_zero hold hb ht) t ht
      rw [hcleared.dot _ ht] at hres
      exact (BitVec.xor_eq_zero_iff.1 hres).symm

/-- DECODE over distinct rows: every slot then holds the original row it names (R128). -/
theorem DecodeReady.exec_decode_distinct (hd : s.engine.rowsDistinct) : ∃ mem, exec .decode s = .next (s.decoded mem) ∧
    ∀ d, s.slotsHold d → ∀ p < s.engine.rows, ∀ b < s.engine.blockLen,
      Memory.read mem (s.engine.addrOf p + b) = d ((s.decoded mem).engine.rowOf p) b := by
  obtain ⟨mem, hexec, hmem⟩ := h.exec_decode_paritySlots hd
  refine ⟨mem, hexec, fun d hold p hp b hb => ?_⟩
  rcases s.engine.slot_cases hp with horig | ⟨t, ht, rfl⟩
  · have hslot := (s.engine.mem_originalSlots p).2 ⟨hp, horig⟩
    refine ((exec_ends hexec).read_outside _ (h.original_not_inParityBlock hslot hb)).trans ?_
    rw [s.decoded_rowOf_original mem horig, (s.slotsHold_iff d).1 hold p hp b hb, rowTimes_original horig]
  · rw [h.decoded_rowOf_paritySlot mem ht]
    exact hmem d hold t ht b hb

end

end Sys2Proof.Machine
end

section
/-! The statements about DECODE on the contents of the slots (R124, R128, R131, R132, R134). -/

namespace Sys2Proof.Machine

/-! ### The data is recovered -/

/-- Settles O41: what DECODE leaves over distinct rows, rule by rule. -/
theorem decodeCompletesOnValidInstances : Obligations.DecodeCompletesOnValidInstances := by
  intro s d h hd hold
  obtain ⟨mem, hexec, hread⟩ := h.exec_decode_distinct hd
  exact ⟨_, hexec, s.decoded_status mem, fun p hp => h.decoded_rowOf_lt mem hp,
    fun p hp q hq => h.decoded_rowOf_inj mem hp hq, hread d hold, fun p q hpq hq hppar hqpar =>
      h.decoded_rowOf_lt_rowOf mem hpq ((s.engine.mem_paritySlots p).2 ⟨hpq.trans hq, hppar⟩)
        ((s.engine.mem_paritySlots q).2 ⟨hq, hqpar⟩)⟩

/-- A ready DECODE that ends with `OK` ran over distinct rows, for a parity row that comes twice is SINGULAR. -/
theorem DecodeReady.rowsDistinct_of_ok {s t : State} (h : DecodeReady s) (hexec : exec .decode s = .next t)
    (hok : t.engine.status.err = 0) : s.engine.rowsDistinct := by
  intro p hp q hq heq
  by_contra hne
  rcases Nat.lt_or_ge (s.engine.rowOf p) s.engine.rows with horig | hpar
  · exact hne (h.classified.distinctOriginals p hp q hq horig heq)
  · rw [exec_decode_singular h hp hq (Ne.symm hne) hpar heq] at hexec
    obtain rfl := Host.Outcome.next.inj hexec
    rw [s.scrambleParity_finish_engine] at hok
    exact absurd hok (show (2 : BitVec 4) ≠ 0 by decide)

/-- Settles O40: the rows were distinct. -/
theorem decodeOkRecoversTheRows : Obligations.DecodeOkRecoversTheRows := by
  intro s t d h hold hexec hok
  obtain ⟨mem, hmem, hread⟩ := h.exec_decode_distinct (h.rowsDistinct_of_ok hexec hok)
  obtain rfl := Host.Outcome.next.inj (hmem.symm.trans hexec)
  exact ⟨fun p hp => h.decoded_rowOf_lt mem hp, fun p hp q hq => h.decoded_rowOf_inj mem hp hq, hread d hold,
    fun p _ horig => s.decoded_rowOf_original mem horig, (exec_ends hexec).read_outside⟩

/-- After ENCODE, slots over the encoder's blocks hold what their rows say of the data (R110, R113). -/
theorem EncodeReady.slotsHold {s r : State} (h : EncodeReady s) (hmem : r.mem = encodeBlocks s.engine s.mem)
    (hk : r.engine.rows = s.engine.rows) (hbb : r.engine.blockLen = s.engine.blockLen) {block : Nat → Nat}
    (hslot : ∀ p < s.engine.rows, block p < s.engine.rows + s.engine.parityRows ∧ r.engine.rowOf p = block p ∧
      r.engine.addrOf p = s.engine.addrOf (block p)) :
    r.slotsHold fun i b => Memory.read s.mem (s.engine.addrOf i + b) := by
  intro p hp b hb
  rw [hk] at hp
  rw [hbb] at hb
  obtain ⟨hblock, hrow, haddr⟩ := hslot p hp
  rw [hmem, hk, hrow, haddr]
  split
  · next horig => exact encodeBlocks_outside _ _ _ (h.data_not_inRecoveryBlock horig hb)
  · next hpar =>
    obtain ⟨j, hj⟩ := Nat.exists_eq_add_of_le (Nat.not_lt.1 hpar)
    rw [hj, h.read_encodeBlocks s.mem (by omega) hb]
    rfl

/-- Settles O42: the slots hold what their rows say of the data, and distinct blocks are distinct rows. -/
theorem decodeOfEncodeRestoresTheData : Obligations.DecodeOfEncodeRestoresTheData := by
  intro s t r block h hencode hmem hk _ hbb hslot hinj hready
  obtain rfl := Host.Outcome.next.inj ((exec_encode_ready h).symm.trans hencode)
  have hrows : r.engine.rows = s.engine.rows := congrArg BitVec.toNat hk
  have hlen : r.engine.blockLen = s.engine.blockLen := congrArg BitVec.toNat hbb
  have hd : r.engine.rowsDistinct := by
    intro p hp q hq heq
    rw [hrows] at hp hq
    rw [(hslot p hp).2.1, (hslot q hq).2.1] at heq
    exact hinj q hq p hp heq
  obtain ⟨mem, hexec, hread⟩ := hready.exec_decode_distinct hd
  refine ⟨_, hexec, rfl, fun p hp => ⟨?_, fun b hb => ?_⟩⟩
  · exact hrows ▸ hready.decoded_rowOf_lt mem (hrows.symm ▸ hp)
  · exact hread _ (h.slotsHold hmem hrows hlen hslot) p (hrows.symm ▸ hp) b (hlen.symm ▸ hb)

/-! ### Any contents are the contents of some data (R104) -/

/-- Whatever slots with distinct rows hold, it is what their rows say of some data. -/
theorem exists_slotsHold (s : State) (hk : s.engine.rows ≤ 256) (hd : s.engine.rowsDistinct) : ∃ d, s.slotsHold d := by
  have hsolution (b : Nat) : ∃ x : Nat → Byte, ∀ p < s.engine.rows,
      rowTimes s.engine.rows (s.engine.rowOf p) x = Memory.read s.mem (s.engine.addrOf p + b) :=
    exists_solution (A := fun p i => coef s.engine.rows (s.engine.rowOf p) i)
      (fun v hv => anyKRowsAreIndependent _ s.engine.rowOf v hk (fun p _ => s.engine.rowOf_lt_256 p)
        (fun p hp q hq heq => hd q hq p hp heq) hv) _
  choose x hx using hsolution
  exact ⟨fun i b => x b i, (s.slotsHold_iff _).2 fun p hp b _ => (hx b p hp).symm⟩

/-! ### One erasure -/

section
variable {s : State} {e u : Nat} (h : DecodeReady s) (he : e < s.engine.rows) (hpar : s.engine.rows ≤ s.engine.rowOf e)
  (hothers : ∀ p < s.engine.rows, p ≠ e → s.engine.rowOf p < s.engine.rows)
include hothers

theorem paritySlot_eq_of_one_erasure {p : Nat} (hp : p ∈ s.engine.paritySlots) : p = e := by
  obtain ⟨hp, hpar⟩ := (s.engine.mem_paritySlots p).1 hp
  by_contra hne
  exact absurd (hothers p hp hne) hpar.not_gt

include h in
/-- With one parity slot no row comes twice. -/
theorem rowsDistinct_of_one_erasure : s.engine.rowsDistinct := by
  intro p hp q hq heq
  rcases Nat.lt_or_ge (s.engine.rowOf p) s.engine.rows with horig | hpar
  · exact h.classified.distinctOriginals p hp q hq horig heq
  · rw [paritySlot_eq_of_one_erasure hothers ((s.engine.mem_paritySlots p).2 ⟨hp, hpar⟩),
      paritySlot_eq_of_one_erasure hothers ((s.engine.mem_paritySlots q).2 ⟨hq, heq ▸ hpar⟩)]

include hpar in
/-- The sum of R124 over all slots but `e` is that over the original slots. -/
theorem knownByte_of_one_erasure (mem : Memory) (r b : Nat) : s.engine.knownByte mem r b =
    xorSum s.engine.rows fun p => if p = e then 0 else
      gmul (coef s.engine.rows r (s.engine.rowOf p)) (Memory.read mem (s.engine.addrOf p + b)) := by
  unfold Engine.knownByte Engine.originalSlots
  rw [xorOver_filter_range]
  refine xorSum_congr fun p hp => ?_
  rcases eq_or_ne p e with rfl | hne
  · rw [if_neg (by simpa using hpar), if_pos rfl]
  · rw [if_pos (by simpa using hothers p hp hne), if_neg hne]

end

/-- Settles O39: the one slot gets the one missing row, and the sum over the missing rows has one term. -/
theorem decodeOneErasureCompletes : Obligations.DecodeOneErasureCompletes := by
  intro s e u h he hpar hothers hu hmissing
  have hd := rowsDistinct_of_one_erasure h hothers
  obtain ⟨mem, hexec, hread⟩ := h.exec_decode_distinct hd
  obtain ⟨d, hold⟩ := exists_slotsHold s h.rows_le hd
  have heq {t : Nat} (ht : t < s.engine.paritySlots.length) : s.engine.paritySlots.getD t 0 = e :=
    paritySlot_eq_of_one_erasure hothers (s.engine.paritySlot_getD t ht)
  obtain ⟨t, ht, rfl⟩ := exists_getD_of_mem ((s.engine.mem_missingRows u).2 ⟨hu, hmissing⟩)
  rw [h.classified.missingRows_length] at ht
  have hrow : (s.decoded mem).engine.rowOf e = s.engine.missingRows.getD t 0 := by
    rw [← heq ht, h.decoded_rowOf_paritySlot mem ht]
  refine ⟨_, hexec, s.decoded_status mem, hrow, fun n hn => ?_, fun b hb => ?_, fun a ha => ?_⟩
  · exact s.decoded_rowOf_kept mem fun hmem => hn (paritySlot_eq_of_one_erasure hothers hmem)
  · have hsplit := h.parityByte_split hold he hb
    rw [xorSum_eq_single ht fun i hi hne => absurd
      (getD_inj s.engine.paritySlots_sorted hi ht ((heq hi).trans (heq ht).symm)) hne,
      knownByte_of_one_erasure hpar hothers] at hsplit
    have hbyte := hread d hold e he b hb
    rw [hrow] at hbyte
    show gmul _ (Memory.read mem _) = _
    rw [hbyte, hsplit, BitVec.xor_comm, ← BitVec.xor_assoc, BitVec.xor_self, BitVec.zero_xor]
  · refine (exec_ends hexec).read_outside a fun hin => ha ?_
    obtain ⟨p, hp, hc⟩ := (s.engine.inParityBlock_iff a).1 hin
    exact paritySlot_eq_of_one_erasure hothers hp ▸ hc

/-! ### No error correction (R134) -/

theorem rowTimes_xor (k r : Nat) (v w : Nat → Byte) :
    rowTimes k r (fun i => v i ^^^ w i) = rowTimes k r v ^^^ rowTimes k r w := by
  simp only [rowTimes, gmul_xor, xorSum_xor]

section
variable {s : State} (h : DecodeReady s) (hd : s.engine.rowsDistinct)
include h hd

/-- A vector that the rows in the slots send to 0 is 0 (R104). -/
theorem DecodeReady.eq_zero_of_slots {v : Nat → Byte}
    (hv : ∀ q < s.engine.rows, rowTimes s.engine.rows (s.engine.rowOf q) v = 0) : ∀ i < s.engine.rows, v i = 0 :=
  anyKRowsAreIndependent _ s.engine.rowOf v h.rows_le (fun p _ => s.engine.rowOf_lt_256 p)
    (fun p hp q hq heq => hd q hq p hp heq) hv

/-- So is one that is 0 at a missing row and that the rows in all slots but one send to 0: the missing row, in the place of
that slot's row, makes `k` distinct rows again. -/
theorem DecodeReady.eq_zero_of_other_slots {v : Nat → Byte} {p r : Nat} (hr : r ∈ s.engine.missingRows) (hvr : v r = 0)
    (hv : ∀ q < s.engine.rows, q ≠ p → rowTimes s.engine.rows (s.engine.rowOf q) v = 0) :
    ∀ i < s.engine.rows, v i = 0 := by
  obtain ⟨hrk, hmissing⟩ := (s.engine.mem_missingRows r).1 hr
  have hk := h.rows_le
  refine anyKRowsAreIndependent _ (fun q => if q = p then r else s.engine.rowOf q) v hk (fun q _ => ?_)
    (fun q hq q' hq' heq => ?_) fun q hq => ?_
  · split_ifs
    · omega
    · exact s.engine.rowOf_lt_256 q
  · split_ifs at heq with hqp hqp' hqp'
    · rw [hqp, hqp']
    · exact absurd heq.symm (hmissing q' hq')
    · exact absurd heq (hmissing q hq)
    · exact hd q' hq' q hq heq
  · split_ifs with hqp
    · exact (rowTimes_original hrk v).trans hvr
    · exact hv q hq hqp

/-- A vector that the row of one slot alone does not send to 0 is 0 at no missing row. -/
theorem DecodeReady.ne_zero_of_missing {v : Nat → Byte} {p r : Nat} (hr : r ∈ s.engine.missingRows)
    (hp : rowTimes s.engine.rows (s.engine.rowOf p) v ≠ 0)
    (hv : ∀ q < s.engine.rows, q ≠ p → rowTimes s.engine.rows (s.engine.rowOf q) v = 0) : v r ≠ 0 := fun hvr =>
  hp (xorSum_eq_zero fun i hi => by rw [h.eq_zero_of_other_slots hd hr hvr hv i hi, gmul_zero])

end

/-- The bytes at offset `b` in which two sets of data differ. -/
def dataDifference (d d' : Nat → Nat → Byte) (b i : Nat) : Byte := d i b ^^^ d' i b

theorem dataDifference_eq_zero_iff {d d' : Nat → Nat → Byte} {b i : Nat} :
    dataDifference d d' b i = 0 ↔ d i b = d' i b :=
  BitVec.xor_eq_zero_iff

/-- The difference of the data is sent to the difference of the bytes the slots hold. -/
theorem rowTimes_dataDifference {s : State} {mem' : Memory} {d d' : Nat → Nat → Byte} (hold : s.slotsHold d)
    (hold' : State.slotsHold { s with mem := mem' } d') {q c : Nat} (hq : q < s.engine.rows) (hc : c < s.engine.blockLen) :
    rowTimes s.engine.rows (s.engine.rowOf q) (dataDifference d d' c) =
      Memory.read s.mem (s.engine.addrOf q + c) ^^^ Memory.read mem' (s.engine.addrOf q + c) := by
  have hq' : Memory.read mem' (s.engine.addrOf q + c) = rowTimes s.engine.rows (s.engine.rowOf q) fun i => d' i c :=
    (State.slotsHold_iff _ d').1 hold' q hq c hc
  rw [(s.slotsHold_iff d).1 hold q hq c hc, hq', ← rowTimes_xor]
  rfl

/-- Settles O43: at the wrong byte's offset the difference of the data is 0 at no missing row, at every other offset it is
0. -/
theorem decodeDoesNotCorrectErrors : Obligations.DecodeDoesNotCorrectErrors := by
  intro s mem' p b h hd hp hb hothers hdiffer hsame
  have h' : DecodeReady { s with mem := mem' } := ⟨h.checks, h.classified, h.plain, h.overlap⟩
  obtain ⟨m, hexec, hread⟩ := h.exec_decode_distinct hd
  obtain ⟨m', hexec', hread'⟩ := h'.exec_decode_distinct hd
  obtain ⟨d, hold⟩ := exists_slotsHold s h.rows_le hd
  obtain ⟨d', hold'⟩ := exists_slotsHold { s with mem := mem' } h.rows_le hd
  have hzero {q c : Nat} (hq : q < s.engine.rows) (hc : c < s.engine.blockLen) (hqc : q ≠ p ∨ c ≠ b) :
      rowTimes s.engine.rows (s.engine.rowOf q) (dataDifference d d' c) = 0 := by
    have hne : s.engine.addrOf q + c ≠ s.engine.addrOf p + b := by
      rcases eq_or_ne q p with rfl | hqp
      · exact fun heq => hqc.resolve_left (· rfl) (Nat.add_left_cancel heq)
      · exact fun heq => hothers q hq hqp (heq ▸ s.engine.block_contains q hc)
    rw [rowTimes_dataDifference hold hold' hq hc, hsame _ hne]
    exact BitVec.xor_self
  have hwrong : rowTimes s.engine.rows (s.engine.rowOf p) (dataDifference d d' b) ≠ 0 := by
    rw [rowTimes_dataDifference hold hold' hp hb]
    exact fun heq => hdiffer (BitVec.xor_eq_zero_iff.1 heq).symm
  have hbytes {q c : Nat} (hq : q < s.engine.rows) (hc : c < s.engine.blockLen) :
      Memory.read m' (s.engine.addrOf q + c) = Memory.read m (s.engine.addrOf q + c) ↔
        dataDifference d d' c ((s.decoded m).engine.rowOf q) = 0 := by
    have hq' : Memory.read m' (s.engine.addrOf q + c) = d' ((s.decoded m).engine.rowOf q) c := hread' d' hold' q hq c hc
    rw [hread d hold q hq c hc, hq', dataDifference_eq_zero_iff, eq_comm]
  have hrecovered : ∀ q < s.engine.rows, s.engine.rows ≤ s.engine.rowOf q →
      Memory.read m' (s.engine.addrOf q + b) ≠ Memory.read m (s.engine.addrOf q + b) := by
    intro q hq hpar
    have hmiss := h.decoded_rowOf_mem_missingRows m ((s.engine.mem_paritySlots q).2 ⟨hq, hpar⟩)
    exact (hbytes hq hb).not.2 (h.ne_zero_of_missing hd hmiss hwrong fun q hq hqp => hzero hq hb (.inl hqp))
  refine ⟨_, _, hexec, hexec', rfl, rfl, fun horig => ⟨(hbytes hp hb).not.2 ?_, hrecovered⟩,
    fun hpar => ⟨p, hp, hpar, hrecovered p hp hpar⟩, fun q hq _ c hc hcb => (hbytes hq hc).2 ?_⟩
  · rwa [rowTimes_original horig, ← s.decoded_rowOf_original m horig] at hwrong
  · exact h.eq_zero_of_slots hd (fun q hq => hzero hq hc (.inr hcb)) _ (h.decoded_rowOf_lt m hq)

end Sys2Proof.Machine
end

section
/-! The completion codes (60_exceptions.md): what ending a command writes (R140, R141), NOT_INIT before INIT (R144), what an
error leaves unchanged (R147), and the codes each command can end with (R156). -/

namespace Sys2Proof.Machine

/-! ### Single ends -/

/-- Settles O51: an error's `finish` writes its code and sub-cause, and the success 0. -/
theorem finishWritesTheTable : Obligations.FinishWritesTheTable := by
  intro s
  have config (cause : ConfigCause) : s.finish (.configError cause) = s.withError 1 cause.info :=
    s.finish_eq_withError (by simp)
  have decode (cause : DecodeCause) : s.finish (.decodeError cause) = s.withError 2 cause.info :=
    s.finish_eq_withError (by simp)
  exact ⟨s.finish_eq_withOk, config .kZero, config .mZero, config .kmRange, config .size, config .addrRange,
    config .operandRange, decode .rowRange, decode .dupOriginal, decode .singular, s.finish_eq_withError (by simp),
    s.finish_eq_withError (by simp), s.finish_eq_withError (by simp)⟩

/-- The test of `INIT_DONE` is the first of every command but INIT (R144). -/
theorem exec_before_init {i : Instr} {s : State} (hi : i ≠ .init) (h : s.engine.status.initDone = false) :
    exec i s = .next (s.finish .notInit) := by
  cases i with
  | init => exact absurd rfl hi
  | _ => exact requireInit_before s _ h

/-- Settles O22: `NOT_INIT` has code 3 and no sub-cause. -/
theorem notInitComesFirst : Obligations.NotInitComesFirst := fun _ s hi h =>
  (exec_before_init hi h).trans (congrArg _ (s.finish_eq_withError (by simp)))

/-! ### What an error leaves -/

/-- An error is reported before the command's work, and then `STATUS` alone is written, or it is the `SINGULAR` of a DECODE
whose parity-slot buffers are undefined (R129, R147). -/
theorem CommandEnds.error_cases {i : Instr} {s t : State} (h : CommandEnds s i t) (herr : t.engine.status.err ≠ 0) :
    t = s.withError t.engine.status.err t.engine.status.errInfo ∨
      (i = .decode ∧ t = s.scrambleParity.finish (.decodeError .singular)) := by
  cases h with
  | reports hi hc => exact .inl (s.finish_eq_withError hc)
  | singular hc hz => exact .inr ⟨rfl, rfl⟩
  | _ => exact absurd rfl herr

/-- Settles O54: of the two kinds of error only `SINGULAR` comes after memory was written. -/
theorem errorsLeaveEverythingElse : Obligations.ErrorsLeaveEverythingElse := by
  intro i s t h herr
  have hends := exec_ends h
  rcases hends.error_cases herr with ht | ⟨rfl, rfl⟩
  · refine ⟨fun _ => ht, fun ⟨hcode, hinfo⟩ => ?_⟩
    rw [hcode, hinfo] at ht
    subst ht
    exact ⟨rfl, hends.surroundingsKept, fun _ _ => rfl⟩
  · exact ⟨fun hne => absurd ⟨rfl, rfl⟩ hne,
      fun _ => ⟨s.scrambleParity_finish_engine, hends.surroundingsKept, hends.read_outside⟩⟩

/-! ### The table of codes -/

/-- `ERR` and `ERRINFO` hold the pair of one of the command's completions. -/
theorem exec_codes {i : Instr} {s t : State} (h : exec i s = .next t) :
    (t.engine.status.err, t.engine.status.errInfo) ∈ (completionsOf i).map fun c => (c.code, c.info) := by
  obtain ⟨u, c, hc, rfl⟩ := exec_endsAs i s t h
  exact List.mem_map_of_mem hc

/-- Settles O55: the pairs of the command's completions are those its row marks, from COEF on in another order. -/
theorem eachCommandEndsAsItsRowSays : Obligations.EachCommandEndsAsItsRowSays := by
  intro i s t h
  have hmem := exec_codes h
  cases i with
  | init => exact hmem
  | gfadd a b => exact hmem
  | gfmul a b => exact hmem
  | gfinv a => exact hmem
  | coef row col => exact (List.isPerm_iff.1 rfl).subset hmem
  | mulacc c => exact (List.isPerm_iff.1 rfl).subset hmem
  | encode => exact (List.isPerm_iff.1 rfl).subset hmem
  | decode => exact (List.isPerm_iff.1 rfl).subset hmem

end Sys2Proof.Machine
end
